-- ==== Sys2Proof/Word.lean ====
section
/-! DEFINITION. The two word types of GF256-CORE: a register or a memory word (R21, R62) and a byte, which is also a field
element (R10). -/

namespace Sys2Proof

/-- A 64-bit register value, command word or memory word (R21, R90, 00_scope.md `WORD_BITS`). -/
abbrev Word := BitVec 64

/-- One byte of memory, and one element of GF(256): they are the same value (R10, R120). -/
abbrev Byte := BitVec 8

end Sys2Proof
end

