-- ==== Sys2Proof/Config.lean ====
section
/-! DEFINITION. The fixed values and named parameters of the block (R6), and the free values: constants without a body,
of which nothing can be proved. -/

namespace Sys2Proof

/-- How PONLY seeds P (R6, R165, D17 OPEN). -/
inductive PonlySeed where
  | copy
  | accumulate
  deriving DecidableEq, Repr, Inhabited

/-- The named parameters of the model (R6). `ADDR_W` is at most 64: an address register is a field of a 64-bit register
(R21, R30). DEDUCED, safe: no wider `ADDR_W` has a meaning in R21 (log 1). -/
structure Params where
  addrW : Fin 65
  regBase : Nat
  ponlySeed : PonlySeed
  deriving DecidableEq, Repr

/-- The size of the memory space, `2^ADDR_W` bytes (R60). -/
def Params.memSize (p : Params) : Nat := 2 ^ p.addrW.val

namespace Config

/-- `POLY`, the field polynomial (R6, R121). -/
def poly : BitVec 9 := 0x11D

/-- `REG_BASE` of the machine after reset: open (R6, D2). DESIGN CHOICE, safe: no body (log 1). -/
opaque regBase : Nat

/-- `PONLY_SEED` of the machine after reset: open (R6, D17). DESIGN CHOICE, safe: no body (log 1). -/
opaque ponlySeed : PonlySeed

/-- The values the spec leaves unspecified, one for each draw: table contents before the build ends (R260, R40), a host
read of a written region while BUSY (R74), the bytes of an abandoned command's written regions (R262).
DESIGN CHOICE, safe: no body (log 3, log 4). -/
opaque freeByte : Nat → Byte

/-- The parameters of the machine after reset: `ADDR_W` at its default 64 (R6), the open ones without a value (log 1). -/
def params : Params := { addrW := 64, regBase := regBase, ponlySeed := ponlySeed }

end Config
end Sys2Proof
end

