-- ==== Sys2Proof/Syntax.lean ====
section
/-! DEFINITION. The commands of the block (R91), the names of its registers (R21), and the host statements and
pseudo-instructions in which host programs are written (R99, R101). -/

namespace Sys2Proof

/-- The fourteen commands (R91). A command word has no operand field: every operand comes from the snapshot (R90, R93). -/
inductive Instr where
  | add | sub | mul | div | log | alog | dbl
  | pqs | pqw | ponly | qs | qw
  | rec1 | rec2
  deriving DecidableEq, Repr

/-- The registers of the window, by name (R21). -/
inductive Reg where
  | id | status | cmd | opa | opb | res | win | wout
  | pAddr | qAddr | dAddr | blkSize | width | coefAddr
  | ipAddr | iqAddr | out1Addr | out2Addr | idx1 | idx2
  deriving DecidableEq, Repr

/-- The name a host program gives to the value of a read (R99: "the value is named by the program"). Names are numbered. -/
abbrev ValueName := Nat

/-- The `cond` of a host program (R99), over the values its reads have named, earlier ones as well as the latest: a bit
field `s[hi:lo]` equal to a value, two named values equal, and what `not`, `and` and `or` make of them. R99 gives `cond`
no form: DESIGN CHOICE, safe, for every condition on finitely many named values is such a term (log 9). -/
inductive Cond where
  | field (s : ValueName) (hi lo : Fin 64) (v : Nat)
  | same (s t : ValueName)
  | always
  | not (c : Cond)
  | and (c d : Cond)
  | or (c d : Cond)
  deriving DecidableEq, Repr

/-- `s[k] == val`, the condition of R101's loops. -/
def Cond.bit (s : ValueName) (k : Fin 64) (val : Bool) : Cond := .field s k k val.toNat

/-- One statement of a host program (R99) with its labels resolved to statement positions. `busWr` and `busRd` are host
register accesses by address and width (R22), of which `wr` and `rd` are the aligned 8-byte ones at a named register;
`memWr` and `memRd` are the host's own accesses to one byte of memory (R74, R265). A read names its value. -/
inductive HostStmt where
  | wr (r : Reg) (v : Word)
  | rd (r : Reg) (s : ValueName)
  | gotoIf (c : Cond) (target : Nat)
  | busWr (addr bytes : Nat) (v : Word)
  | busRd (addr bytes : Nat) (s : ValueName)
  | memWr (addr : Nat) (v : Byte)
  | memRd (addr : Nat) (s : ValueName)
  deriving DecidableEq, Repr

/-- The two-operand `gf.` pseudo-instructions (R101). -/
inductive GfOp where
  | add | sub | mul | div
  deriving DecidableEq, Repr

/-- The pseudo-instructions (R101). `a`, `b` and `e` are the 64-bit `v` of the `wr` they expand to (R99), of which the
register keeps its defined bits (R34): R101 itself gives them no width. DEDUCED, safe (log 26). `s` names the value that
the closing `rd` returns. -/
inductive Pseudo where
  | cmd (i : Instr)
  | waitready
  | wait
  | clrdrop
  | gf (op : GfOp) (a b : Word) (s : ValueName)
  | gfLog (a : Word) (s : ValueName)
  | gfAlog (e : Word) (s : ValueName)
  | gfDbl (x : Word) (s : ValueName)
  deriving DecidableEq, Repr

/-- One line of a host program as it is written (R99): a statement, a pseudo-instruction, a label, a goto to a label, or
a `mem` line of the start state. Labels are numbered. -/
inductive SrcLine where
  | stmt (t : HostStmt)
  | pseudo (p : Pseudo)
  | label (l : Nat)
  | branch (c : Cond) (l : Nat)
  | mem (addr : Nat) (bytes : List Byte)
  deriving DecidableEq, Repr

/-- A bus transaction on the register window as R99 writes it: `W off=.. data=..` or `R off=..`, `off` from REG_BASE. -/
inductive BusTxn where
  | write (off : Nat) (data : Word)
  | read (off : Nat)
  deriving DecidableEq, Repr

end Sys2Proof
end

