-- ==== Sys2Proof/WellFormed.lean ====
section
/-! DEFINITION. What is well formed: a command, a command word (R90 to R92), a host statement (R22, R60) and a host
program (R99). -/

namespace Sys2Proof

/-- A command has no operand field, so every term of `Instr` is well formed (R90: "There is no other field"). -/
def Instr.wellFormed (_ : Instr) : Bool := true

/-- The assigned OPCODE values (R91). -/
def assignedOpcodes : List Nat :=
  [0x01, 0x02, 0x03, 0x04, 0x05, 0x06, 0x07, 0x10, 0x11, 0x12, 0x13, 0x14, 0x20, 0x21]

/-- A legal command word: RSVD is 0 and OPCODE is assigned (R90, R92). -/
def commandWordOk (c : Word) : Bool :=
  (c.toNat / 256 == 0) && assignedOpcodes.contains (c.toNat % 256)

/-- An access the register window answers: 8 bytes wide, at an offset that is a multiple of 8 in [0, 0xF8] (R22). -/
def windowAccessOk (p : Params) (addr bytes : Nat) : Bool :=
  bytes == 8 && decide (p.regBase ≤ addr) && decide (addr - p.regBase ≤ 0xF8) && (addr - p.regBase) % 8 == 0

/-- A condition whose fields `s[hi:lo]` have `lo <= hi` (R7). -/
def Cond.wellFormed (c : Cond) : Bool :=
  match c with
  | .field _ hi lo _ => decide (lo ≤ hi)
  | .same _ _ => true
  | .always => true
  | .not c => Cond.wellFormed c
  | .and c d => Cond.wellFormed c && Cond.wellFormed d
  | .or c d => Cond.wellFormed c && Cond.wellFormed d

/-- A host statement whose register access is one of R22, whose memory address exists (R60), and whose condition is one. -/
def HostStmt.wellFormed (p : Params) (t : HostStmt) : Bool :=
  match t with
  | .wr _ _ => true
  | .rd _ _ => true
  | .gotoIf c _ => c.wellFormed
  | .busWr addr bytes _ => windowAccessOk p addr bytes
  | .busRd addr bytes _ => windowAccessOk p addr bytes
  | .memWr addr _ => decide (addr < p.memSize)
  | .memRd addr _ => decide (addr < p.memSize)

/-- A goto of a program of `n` statements goes to one of them or to its end (R99). -/
def HostStmt.targetOk (n : Nat) (t : HostStmt) : Bool :=
  match t with
  | .gotoIf _ target => decide (target ≤ n)
  | .wr _ _ => true
  | .rd _ _ => true
  | .busWr _ _ _ => true
  | .busRd _ _ _ => true
  | .memWr _ _ => true
  | .memRd _ _ => true

/-- A host program all of whose statements are well formed (R99). -/
def programOk (p : Params) (code : List HostStmt) : Bool :=
  code.all fun t => t.wellFormed p && t.targetOk code.length

/-- A line of source (R99) whose statement is well formed, whose label stands once in the program, whose `mem` bytes have an
address (R60), and whose goto has a condition and names a label of the program. -/
def SrcLine.wellFormed (p : Params) (all : List SrcLine) (x : SrcLine) : Bool :=
  match x with
  | .stmt t => t.wellFormed p
  | .pseudo _ => true
  | .label l => all.count (.label l) == 1
  | .branch c l => c.wellFormed && all.contains (.label l)
  | .mem a bs => bs.isEmpty || decide (a + bs.length ≤ p.memSize)

/-- A host program as it is written, all of whose lines are well formed (R99). -/
def sourceOk (p : Params) (lines : List SrcLine) : Bool := lines.all fun x => x.wellFormed p lines

end Sys2Proof
end

