-- ==== Sys2Proof/Decode.lean ====
section
/-! DEFINITION. The decoder of command words (R92), total and rejecting by name, the encoder written from the opcode map
(R91), and the register offsets of the window (R21). -/

namespace Sys2Proof

/-- Why a command word is illegal (R92, R232); both complete with ERR_ILLEGAL. DESIGN CHOICE, safe (log 24). -/
inductive DecodeError where
  | reservedBits      -- RSVD, bits [63:8], is not 0
  | unassignedOpcode  -- OPCODE, bits [7:0], is no opcode of R91
  deriving DecidableEq, Repr

/-- The command of an OPCODE (R91). -/
def instrOfOpcode (op : Nat) : Option Instr :=
  match op with
  | 0x01 => some .add
  | 0x02 => some .sub
  | 0x03 => some .mul
  | 0x04 => some .div
  | 0x05 => some .log
  | 0x06 => some .alog
  | 0x07 => some .dbl
  | 0x10 => some .pqs
  | 0x11 => some .pqw
  | 0x12 => some .ponly
  | 0x13 => some .qs
  | 0x14 => some .qw
  | 0x20 => some .rec1
  | 0x21 => some .rec2
  | _ => none

/-- `decode(c)` of R92: every 64-bit value is one command or illegal. -/
def decode (c : Word) : Except DecodeError Instr :=
  if c.extractLsb' 8 56 ≠ 0 then .error .reservedBits
  else
    match instrOfOpcode (c.extractLsb' 0 8).toNat with
    | some i => .ok i
    | none => .error .unassignedOpcode

/-- The command word of a command: its OPCODE of R91 in bits [7:0] and RSVD = 0 (R90). -/
def encode (i : Instr) : Word :=
  match i with
  | .add => 0x01
  | .sub => 0x02
  | .mul => 0x03
  | .div => 0x04
  | .log => 0x05
  | .alog => 0x06
  | .dbl => 0x07
  | .pqs => 0x10
  | .pqw => 0x11
  | .ponly => 0x12
  | .qs => 0x13
  | .qw => 0x14
  | .rec1 => 0x20
  | .rec2 => 0x21

/-- What the decoder reads from an instruction of `nbits` bits given as a number, bit 0 the least significant of the
command word; every bit above `nbits` is 0. -/
def decodeTableWord (nbits w : Nat) : Option Instr :=
  match decode (BitVec.ofNat 64 (w % 2 ^ nbits)) with
  | .ok i => some i
  | .error _ => none

/-- The offset of a register in the window (R21). -/
def Reg.offset (r : Reg) : Nat :=
  match r with
  | .id => 0x00
  | .status => 0x08
  | .cmd => 0x10
  | .opa => 0x18
  | .opb => 0x20
  | .res => 0x28
  | .win => 0x30
  | .wout => 0x38
  | .pAddr => 0x40
  | .qAddr => 0x48
  | .dAddr => 0x50
  | .blkSize => 0x58
  | .width => 0x60
  | .coefAddr => 0x68
  | .ipAddr => 0x70
  | .iqAddr => 0x78
  | .out1Addr => 0x80
  | .out2Addr => 0x88
  | .idx1 => 0x90
  | .idx2 => 0x98

/-- The register at an offset of the window, none at the unmapped offsets 0xA0 to 0xF8 (R21, R35). -/
def Reg.ofOffset (off : Nat) : Option Reg :=
  match off with
  | 0x00 => some .id
  | 0x08 => some .status
  | 0x10 => some .cmd
  | 0x18 => some .opa
  | 0x20 => some .opb
  | 0x28 => some .res
  | 0x30 => some .win
  | 0x38 => some .wout
  | 0x40 => some .pAddr
  | 0x48 => some .qAddr
  | 0x50 => some .dAddr
  | 0x58 => some .blkSize
  | 0x60 => some .width
  | 0x68 => some .coefAddr
  | 0x70 => some .ipAddr
  | 0x78 => some .iqAddr
  | 0x80 => some .out1Addr
  | 0x88 => some .out2Addr
  | 0x90 => some .idx1
  | 0x98 => some .idx2
  | _ => none

end Sys2Proof
end

