-- ==== Sys2Proof/Machine/State.lean ====
section
/-! DEFINITION. The state of the machine as plain data: the block's registers, tables, phase and snapshot (R20), the host's
memory (R60) and program (R99), the parameters (R6), and the model's own agenda and counter of free values. -/

namespace Sys2Proof.Machine

/-- The completion codes (R231). Codes 0x06 to 0xFF are never produced, so they have no constructor. -/
inductive ErrCode where
  | none | illegal | shape | range | overlap | domain
  deriving DecidableEq, Repr

/-- The RW registers, the arguments of a command, each with its defined bits only (R21, R34). -/
structure ArgRegs where
  opa : Byte
  opb : Byte
  win : Word
  pAddr : Word
  qAddr : Word
  dAddr : Word
  blkSize : BitVec 32
  width : Byte
  coefAddr : Word
  ipAddr : Word
  iqAddr : Word
  out1Addr : Word
  out2Addr : Word
  idx1 : Byte
  idx2 : Byte
  deriving DecidableEq, Repr

/-- Every RW register at its reset value (R21, R260). -/
def ArgRegs.zero : ArgRegs :=
  { opa := 0, opb := 0, win := 0, pAddr := 0, qAddr := 0, dAddr := 0, blkSize := 0, width := 0, coefAddr := 0,
    ipAddr := 0, iqAddr := 0, out1Addr := 0, out2Addr := 0, idx1 := 0, idx2 := 0 }

/-- The snapshot `S` of an accepted command (R44, R94). -/
structure Snapshot where
  cmd : Word
  args : ArgRegs
  deriving DecidableEq, Repr

/-- The engine phase (R43). The snapshot exists only while the phase is BUSY (R44), so BUSY carries it. -/
inductive Phase where
  | building
  | idle
  | busy (snap : Snapshot)
  deriving DecidableEq, Repr

/-- The stored bits of STATUS; READY and BUSY are views of the phase (R24). -/
structure Status where
  done : Bool
  err : Bool
  dropped : Bool
  errcode : ErrCode
  deriving DecidableEq, Repr

/-- STATUS's stored bits at reset (R260). -/
def Status.zero : Status := { done := false, err := false, dropped := false, errcode := .none }

/-- The field tables (R38). -/
structure Tables where
  alog : Vector Byte 512
  log : Vector Byte 256
  deriving DecidableEq, Repr

/-- Tables whose contents are unspecified (R260, R40): entry after entry the free values from the `k`-th on.
DESIGN CHOICE, safe: free values (log 3). -/
def Tables.unspecified (k : Nat) : Tables :=
  { alog := ⟨((List.range 512).map fun e => Config.freeByte (k + e)).toArray, by simp⟩
    log := ⟨((List.range 256).map fun a => Config.freeByte (k + 512 + a)).toArray, by simp⟩ }

/-- How many free values `Tables.unspecified` draws. -/
def Tables.drawn : Nat := 768

/-- The host's memory (R60): (address, byte) pairs, addresses rising, no byte equal to what an unlisted address reads. -/
abbrev Memory := List Host.Cell

/-- The host agent: its program, its position in it (R37: "The host's program counter is the host's"), and the values its
reads returned, each with the name the program gives it, the latest first (R99; DESIGN CHOICE, log 9). -/
structure Driver where
  code : List HostStmt
  pc : Nat
  reads : List (ValueName × Word)
  deriving DecidableEq, Repr

/-- Who moves next (R97, R268; DESIGN CHOICE, log 5): the block takes its own step if one is enabled, the host takes its next
statement, another agent writes a byte of memory (R265), the reset input is pulsed (R260, R262), or the memory port
answers with a bus error (R82). -/
inductive Turn where
  | block
  | host
  | agentWrite (addr : Nat) (v : Byte)
  | reset
  | busError
  deriving DecidableEq, Repr

/-- The state. -/
structure State where
  params : Params
  args : ArgRegs
  res : Byte
  wout : Word
  status : Status
  tables : Tables
  phase : Phase
  mem : Memory
  host : Driver
  agenda : List Turn
  fresh : Nat
  deriving DecidableEq, Repr

/-- The faults of the run. -/
inductive Fault where
  /-- Raised by a host or other agent's write to a byte of a region of the command in flight (R265: "A model treats a
  host write to a region of the command in flight as a fault of the run"). Safe: the run stops. -/
  | bufferHazard
  /-- Raised by a host or other agent's access to an address outside [0, 2^ADDR_W), which holds no byte (R60).
  Safe: the run stops (DEDUCED, log 11). -/
  | noSuchAddress
  /-- Raised when the memory port answers with a bus error (R82: "a fault of the run, not ... a value").
  Safe: the run stops (DEDUCED, log 12). -/
  | memoryBusError
  deriving DecidableEq, Repr

/-- The refusals. -/
inductive Refusal where
  /-- Raised by an arm of exec for an instruction that has no meaning yet; no arm does. Safe. -/
  | notModelled (mnemonic : String)
  /-- Raised by a host access to the register window that is not 8 bytes wide or not at a multiple of 8 (R22: "a model
  refuses it"). Safe. -/
  | registerAccess
  /-- Raised by a host bus access whose address is outside the register window: it does not reach the block (R21, R22).
  Safe (DEDUCED, log 10). -/
  | outsideWindow
  /-- Raised by exec when no command is in flight, so that there is no snapshot to execute (R97); step never asks for
  that. Safe (DESIGN CHOICE, log 13). -/
  | noCommandInFlight
  deriving DecidableEq, Repr

/-- The machine right after reset is released (R260), with no host program, nothing on the agenda and no byte of
memory listed. -/
def State.reset : State :=
  { params := Config.params
    args := ArgRegs.zero
    res := 0
    wout := 0
    status := Status.zero
    tables := Tables.unspecified 0
    phase := .building
    mem := []
    host := { code := [], pc := 0, reads := [] }
    agenda := []
    fresh := Tables.drawn }

end Sys2Proof.Machine
end

