-- ==== Sys2Proof/Machine/Flags.lean ====
section
/-! DEFINITION. The status word (R24): the code of each completion, READY and BUSY as views of the phase, and the bits of
STATUS. The block has no other flag (R37, R129, R137). -/

namespace Sys2Proof.Machine

/-- The number of a completion code (R231). -/
def ErrCode.code (e : ErrCode) : Byte :=
  match e with
  | .none => 0x00
  | .illegal => 0x01
  | .shape => 0x02
  | .range => 0x03
  | .overlap => 0x04
  | .domain => 0x05

/-- STATUS.READY = (phase != BUILDING) (R24, R43). -/
def State.ready (s : State) : Bool :=
  match s.phase with
  | .building => false
  | .idle => true
  | .busy _ => true

/-- STATUS.BUSY = (phase == BUSY) (R24, R43). -/
def State.isBusy (s : State) : Bool :=
  match s.phase with
  | .building => false
  | .idle => false
  | .busy _ => true

/-- A word whose bit `k` is `b` and whose other bits are 0. -/
def flagBit (k : Nat) (b : Bool) : Word := (BitVec.ofBool b).setWidth 64 <<< k

/-- What a host read of STATUS returns (R24): ERRCODE in [15:8], DROPPED 4, ERR 3, DONE 2, BUSY 1, READY 0; bits [7:5] and
[63:16] read 0. -/
def State.statusWord (s : State) : Word :=
  (s.status.errcode.code.setWidth 64 <<< 8) ||| flagBit 4 s.status.dropped ||| flagBit 3 s.status.err |||
    flagBit 2 s.status.done ||| flagBit 1 s.isBusy ||| flagBit 0 s.ready

/-- DONE, ERR and ERRCODE after an accept (R94). -/
def Status.accepted (t : Status) : Status := { t with done := false, err := false, errcode := .none }

/-- DONE, ERR and ERRCODE after a completion with a code (R230). -/
def Status.completed (t : Status) (e : ErrCode) : Status := { t with done := true, err := decide (e ≠ .none), errcode := e }

/-- DROPPED after a dropped CMD write (R95, R239). -/
def Status.withDrop (t : Status) : Status := { t with dropped := true }

/-- A host write of `v` to STATUS: bit 4 set clears DROPPED, every other bit is ignored (R25). -/
def Status.write (t : Status) (v : Word) : Status := if v.getLsbD 4 then { t with dropped := false } else t

end Sys2Proof.Machine
end

