-- ==== Sys2Proof/Machine/Operands.lean ====
section
/-! DEFINITION. The operands of the commands, assembled from the argument registers (R93), and the effective addresses of
buffers and stripe (R71, R72). Lengths and addresses are integers (R8). -/

namespace Sys2Proof.Machine

/-- `n`, the block size in bytes (R31). -/
def ArgRegs.n (a : ArgRegs) : Nat := a.blkSize.toNat

/-- `w`, the stripe width in blocks (R32). -/
def ArgRegs.w (a : ArgRegs) : Nat := a.width.toNat

/-- Base of the P buffer (R72). -/
def ArgRegs.p (a : ArgRegs) : Nat := a.pAddr.toNat

/-- Base of the Q buffer (R72). -/
def ArgRegs.q (a : ArgRegs) : Nat := a.qAddr.toNat

/-- Base of the stripe (R71). -/
def ArgRegs.d (a : ArgRegs) : Nat := a.dAddr.toNat

/-- Base of the coefficient list (R72). -/
def ArgRegs.coef (a : ArgRegs) : Nat := a.coefAddr.toNat

/-- Base of the partial P buffer (R72). -/
def ArgRegs.ip (a : ArgRegs) : Nat := a.ipAddr.toNat

/-- Base of the partial Q buffer (R72). -/
def ArgRegs.iq (a : ArgRegs) : Nat := a.iqAddr.toNat

/-- Base of output 1 (R72). -/
def ArgRegs.out1 (a : ArgRegs) : Nat := a.out1Addr.toNat

/-- Base of output 2 (R72). -/
def ArgRegs.out2 (a : ArgRegs) : Nat := a.out2Addr.toNat

/-- Address of byte `j` of data block `i`: `D_ADDR + i*n + j` (R71). -/
def ArgRegs.dataAddr (a : ArgRegs) (i j : Nat) : Nat := a.d + i * a.n + j

/-- The exponent of ALOG: `zext_9(OPA[7:0])` (R93, R135). -/
def ArgRegs.exponent (a : ArgRegs) : Nat := (a.opa.setWidth 9).toNat

/-- An address register stores only its defined bits [ADDR_W-1:0] (R30, R34). -/
def maskAddr (p : Params) (v : Word) : Word := BitVec.ofNat 64 (v.toNat % p.memSize)

end Sys2Proof.Machine
end

