-- ==== Sys2Proof/Machine/Ops.lean ====
section
/-! DEFINITION. The shared operations: loops, memory (R61, R62), regions and their checks (R66 to R70, R237), the end of a
command, normal or with an error (R230), the accept and drop of a CMD write (R94, R95), and the reset (R260, R262). -/

namespace Sys2Proof.Machine

/-! ### Loops (R9) -/

/-- `for i in [0, b)`: 0 first. -/
def forUp {α : Type} (b : Nat) (f : Nat → α → α) (x : α) : α :=
  match b with
  | 0 => x
  | k + 1 => f k (forUp k f x)

/-- `for i in [b-1 downto 0]`: b-1 first. -/
def forDown {α : Type} (b : Nat) (f : Nat → α → α) (x : α) : α :=
  match b with
  | 0 => x
  | k + 1 => forDown k f (f k x)

/-- `for i in [0, b)` with a body that may raise: a raise ends the loop (R9 `raise`). -/
def forUpRaise {α : Type} (b : Nat) (f : Nat → α → Except ErrCode α) (x : α) : Except ErrCode α :=
  match b with
  | 0 => .ok x
  | k + 1 =>
    match forUpRaise k f x with
    | .ok y => f k y
    | .error e => .error e

/-! ### Memory (R60, R61) -/

/-- What an unlisted byte of memory reads as. The spec gives no power-on contents; its programs start from zeros
(95_test_vectors.md section 7). DESIGN CHOICE, unsafe (log 2). -/
def Memory.unlisted : Byte := 0

/-- The byte at an address (R61: "MemRead returns what the byte holds"). -/
def Memory.read (m : Memory) (a : Nat) : Byte :=
  match m with
  | [] => Memory.unlisted
  | (b, v) :: rest => if a = b then v else Memory.read rest a

/-- Store a byte, keeping the canonical form. -/
def Memory.write (m : Memory) (a : Nat) (v : Byte) : Memory :=
  match m with
  | [] => if v = Memory.unlisted then [] else [(a, v)]
  | (b, u) :: rest =>
    if a < b then
      if v = Memory.unlisted then (b, u) :: rest else (a, v) :: (b, u) :: rest
    else if a = b then
      if v = Memory.unlisted then rest else (a, v) :: rest
    else (b, u) :: Memory.write rest a v

/-- The canonical form from address `lo` on: addresses rise and no entry equals an unlisted byte. -/
def Memory.wfFrom (lo : Nat) (m : Memory) : Bool :=
  match m with
  | [] => true
  | (a, v) :: rest => decide (lo ≤ a) && decide (v ≠ Memory.unlisted) && Memory.wfFrom (a + 1) rest

/-- The canonical form of memory. -/
def Memory.wf (m : Memory) : Bool := Memory.wfFrom 0 m

/-- The number whose byte `k` is the byte at `a + k` (R62: little-endian). -/
def Memory.readLE (m : Memory) (a : Nat) (n : Nat) : Nat :=
  match n with
  | 0 => 0
  | k + 1 => (Memory.read m a).toNat + 256 * Memory.readLE m (a + 1) k

/-- `MemRead(addr, n)` (R9, R61): bits [8k+7:8k] are the byte at `addr + k`. -/
def memRead (m : Memory) (a n : Nat) : BitVec (8 * n) := BitVec.ofNat (8 * n) (Memory.readLE m a n)

/-- Lane `k` of a value: bits [8k+7:8k] (R62). -/
def laneOf {m : Nat} (k : Nat) (x : BitVec m) : Byte := x.extractLsb' (8 * k) 8

/-- `MemWrite(addr, n, v)` (R9, R61): the byte at `addr + k` becomes bits [8k+7:8k] of `v`. -/
def memWrite (m : Memory) (a n : Nat) (v : BitVec (8 * n)) : Memory :=
  forUp n (fun k m => Memory.write m (a + k) (laneOf k v)) m

/-- The bytes `b0 b1 ...` put at addresses `a`, `a+1`, ... (R99 `mem`) of a space of `size` bytes. R60 and R99 do not say
what a byte for an address at or past `size` does: DESIGN CHOICE, safe, none stands there and it is left out (log 25). -/
def Memory.place (size : Nat) (m : Memory) (a : Nat) (bs : List Byte) : Memory :=
  match bs with
  | [] => m
  | b :: rest => Memory.place size (if a < size then Memory.write m a b else m) (a + 1) rest

/-! ### Regions (R66 to R70) -/

/-- The role of a region (R69). -/
inductive Role where
  | stripe | p | q | coef | partialP | partialQ | out1 | out2
  deriving DecidableEq, Repr

/-- The access of a region: read only, written only, read then written (R69). -/
inductive Access where
  | r | w | rw
  deriving DecidableEq, Repr

/-- A region with its role and access (R66, R69). -/
structure Region where
  role : Role
  base : Nat
  len : Nat
  access : Access
  deriving DecidableEq, Repr

/-- Access W or RW. -/
def Region.written (x : Region) : Bool :=
  match x.access with
  | .r => false
  | .w => true
  | .rw => true

/-- An address of the region (R66). -/
def Region.holds (x : Region) (a : Nat) : Bool := decide (x.base ≤ a) && decide (a < x.base + x.len)

/-- A nonempty region that passes the top of the address space (R67). -/
def Region.outOfRange (p : Params) (x : Region) : Bool := decide (0 < x.len) && decide (p.memSize < x.base + x.len)

/-- Two regions overlap (R68). -/
def Region.overlaps (x y : Region) : Bool :=
  decide (0 < x.len) && decide (0 < y.len) && decide (x.base < y.base + y.len) && decide (y.base < x.base + x.len)

/-- The access of PONLY's P region: W when `PONLY_SEED` = COPY, RW when ACCUMULATE (R69). -/
def ponlyAccess (p : Params) : Access :=
  match p.ponlySeed with
  | .copy => .w
  | .accumulate => .rw

/-- The regions a command names, in the order of R69's table; the scalar commands name none. -/
def regionsOf (p : Params) (i : Instr) (a : ArgRegs) : List Region :=
  match i with
  | .add => []
  | .sub => []
  | .mul => []
  | .div => []
  | .log => []
  | .alog => []
  | .dbl => []
  | .pqs => [⟨.stripe, a.d, a.w * a.n, .r⟩, ⟨.p, a.p, a.n, .rw⟩, ⟨.q, a.q, a.n, .rw⟩]
  | .pqw => [⟨.stripe, a.d, a.w * a.n, .r⟩, ⟨.p, a.p, a.n, .w⟩, ⟨.q, a.q, a.n, .w⟩]
  | .ponly => [⟨.stripe, a.d, a.w * a.n, .r⟩, ⟨.p, a.p, a.n, ponlyAccess p⟩]
  | .qs => [⟨.stripe, a.d, a.w * a.n, .r⟩, ⟨.coef, a.coef, a.w, .r⟩, ⟨.q, a.q, a.n, .rw⟩]
  | .qw => [⟨.stripe, a.d, a.w * a.n, .r⟩, ⟨.q, a.q, a.n, .w⟩]
  | .rec1 => [⟨.q, a.q, a.n, .r⟩, ⟨.partialQ, a.iq, a.n, .r⟩, ⟨.out1, a.out1, a.n, .w⟩]
  | .rec2 => [⟨.p, a.p, a.n, .r⟩, ⟨.partialP, a.ip, a.n, .r⟩, ⟨.q, a.q, a.n, .r⟩, ⟨.partialQ, a.iq, a.n, .r⟩,
      ⟨.out1, a.out1, a.n, .w⟩, ⟨.out2, a.out2, a.n, .w⟩]

/-- The word-parallel commands, which need `n mod 8 == 0` (R233). -/
def wordParallel (i : Instr) : Bool :=
  match i with
  | .pqw => true
  | .ponly => true
  | .qw => true
  | .add => false
  | .sub => false
  | .mul => false
  | .div => false
  | .log => false
  | .alog => false
  | .dbl => false
  | .pqs => false
  | .qs => false
  | .rec1 => false
  | .rec2 => false

/-- `alias_check` of R70: some written region overlaps a region of a different role. -/
def regionsAlias (rs : List Region) : Bool :=
  rs.any fun x => rs.any fun y => decide (x.role ≠ y.role) && x.overlaps y && x.written

/-- `precheck(cmd)` (R237): SHAPE, then RANGE, then ALIAS; the first that fails is raised. The
order among regions within a check is not observable (R237): DESIGN CHOICE, safe (log 20). -/
def precheck (p : Params) (i : Instr) (a : ArgRegs) : Except ErrCode Unit :=
  if wordParallel i && decide (a.n % 8 ≠ 0) then .error .shape
  else if (regionsOf p i a).any (Region.outOfRange p) then .error .range
  else if regionsAlias (regionsOf p i a) then .error .overlap
  else .ok ()

/-- The regions of the command in flight (R69, R265): none when no command is in flight or its word is illegal.
DEDUCED for a command that will complete with an error, safe (log 8). -/
def State.inFlight (s : State) : List Region :=
  match s.phase with
  | .building => []
  | .idle => []
  | .busy snap =>
    match decode snap.cmd with
    | .ok i => regionsOf s.params i snap.args
    | .error _ => []

/-! ### The end of a command -/

/-- `complete(code)` (R230): the one way a command ends, normally or with an error. No trap is taken: an error saves no
state and transfers no control (R241), and nothing but STATUS and the phase changes. -/
def State.complete (s : State) (e : ErrCode) : State :=
  { s with status := s.status.completed e, phase := .idle }

/-- Run the rule of a command on its snapshot and complete it (R97, R230). A raise discards whatever the rule had done:
errors are precise (R238). DEDUCED, safe: a command is one step, for R74 and R77 make it atomic to the host (log 15). -/
def runCommand (s : State) (body : Snapshot → Except ErrCode State) : Host.Outcome State Fault Refusal :=
  match s.phase with
  | .busy snap =>
    match body snap with
    | .ok t => .next (t.complete .none)
    | .error e => .next (s.complete e)
  | .building => .refused .noCommandInFlight
  | .idle => .refused .noCommandInFlight

/-- The rule of a memory command: `precheck`, then its effect on memory, which may raise (R237). -/
def memoryCommand (i : Instr) (s : State) (effect : ArgRegs → Memory → Except ErrCode Memory) :
    Host.Outcome State Fault Refusal :=
  runCommand s fun snap =>
    match precheck s.params i snap.args with
    | .error e => .error e
    | .ok () =>
      match effect snap.args s.mem with
      | .ok m => .ok { s with mem := m }
      | .error e => .error e

/-! ### Issue (R94, R95) -/

/-- An accepted CMD write (R94). -/
def State.accept (s : State) (v : Word) : State :=
  { s with status := s.status.accepted, phase := .busy { cmd := v, args := s.args } }

/-- A dropped CMD write (R95). -/
def State.drop (s : State) : State := { s with status := s.status.withDrop }

/-- A host write of `v` to CMD (R26, R94, R95). -/
def State.writeCmd (s : State) (v : Word) : State :=
  match s.phase with
  | .idle => s.accept v
  | .building => s.drop
  | .busy _ => s.drop

/-! ### Reset (R260, R262) -/

/-- Every byte of a region takes a free value, drawn from the `k`-th on; an address past the top holds no byte (R262).
DEDUCED, safe (log 7). -/
def scribble (p : Params) (x : Region) (mk : Memory × Nat) : Memory × Nat :=
  forUp x.len
    (fun j mk =>
      if x.base + j < p.memSize then (Memory.write mk.1 (x.base + j) (Config.freeByte mk.2), mk.2 + 1) else mk) mk

/-- The written regions of an abandoned command become unspecified (R262). -/
def scribbleAll (p : Params) (rs : List Region) (mk : Memory × Nat) : Memory × Nat :=
  match rs with
  | [] => mk
  | x :: rest => scribbleAll p rest (if x.written then scribble p x mk else mk)

/-- A reset: the registers, STATUS, the phase and the tables as R260 says; the bytes of the W and RW regions of a command
in flight become unspecified and no other byte changes (R262). The host's program, the agenda and the parameters are not
the block's (DESIGN CHOICE, safe, log 6). -/
def State.pulseReset (s : State) : State :=
  let mk := scribbleAll s.params s.inFlight (s.mem, s.fresh)
  { s with
    args := ArgRegs.zero
    res := 0
    wout := 0
    status := Status.zero
    tables := Tables.unspecified mk.2
    phase := .building
    mem := mk.1
    fresh := mk.2 + Tables.drawn }

end Sys2Proof.Machine
end

