-- ==== Sys2Proof/Machine/Tables.lean ====
section
/-! DEFINITION. The field tables (R38): reading an entry, and the build of R39 that ends the BUILDING phase (R261). -/

namespace Sys2Proof.Machine

/-- `ALOG[e]` (R9). Every exponent a rule computes is in [0, 511] (R128, R209), so the last case is never taken:
DESIGN CHOICE, safe (log 19). -/
def Tables.alogAt (t : Tables) (e : Nat) : Byte := if h : e < 512 then t.alog[e] else 0

/-- `LOG[a]` as an exponent (R9). No rule reads `LOG[0]` (R40). -/
def Tables.logAt (t : Tables) (a : Byte) : Nat := (t.log[a.toNat]'(a.isLt)).toNat

/-- The doubling of the 9-bit `value` of the build: shift, and XOR with POLY when bit 8 is set (R39). -/
def nextPower (value : BitVec 9) : BitVec 9 :=
  let v := value <<< 1
  if v.getLsbD 8 then v ^^^ Config.poly else v

/-- The bytes `value[7:0]` that the build's first loop records over its next `n` exponents (R39). -/
def recordPowers (n : Nat) (value : BitVec 9) : List Byte :=
  match n with
  | 0 => []
  | k + 1 => value.setWidth 8 :: recordPowers k (nextPower value)

/-- One byte is recorded for each exponent. -/
theorem recordPowers_length (n : Nat) : ∀ value : BitVec 9, (recordPowers n value).length = n := by
  induction n with
  | zero => intro value; rfl
  | succ k ih => intro value; simp [recordPowers, ih]

/-- The entries of exponents 0 to 254 (R39). -/
def powers : List Byte := recordPowers 255 1

/-- The exponent at which the build records the byte `a` in `LOG`, none when it never does (R39, R40). -/
def exponentIn (l : List Byte) (a : Byte) : Option Nat :=
  match l with
  | [] => none
  | b :: rest => if a = b then some 0 else (exponentIn rest a).map (· + 1)

/-- `LOG[a]` after the build, given what it held before: `LOG[0]` is not written (R39, R40). -/
def builtLog (a : Byte) (before : Byte) : Byte :=
  match exponentIn powers a with
  | some e => BitVec.ofNat 8 e
  | none => before

/-- The table build (R39): exponents 0 to 254 recorded in both tables, then ALOG's entries 255 to 511 copied from 255
places before, so that 510 and 511 repeat entries 0 and 1 (90_conflicts.md C6). Written as what the loop leaves in each
entry; Obligations.BuildIsThePseudocode says that it is what the loop of R39 leaves. -/
def Tables.build (t : Tables) : Tables :=
  { alog := ⟨(powers ++ (powers ++ powers.take 2)).toArray, by simp [powers, recordPowers_length]⟩
    log := ⟨((List.range 256).map fun a =>
      builtLog (BitVec.ofNat 8 a) (BitVec.ofNat 8 (t.logAt (BitVec.ofNat 8 a)))).toArray, by simp⟩ }

/-- The end of the build: the tables are built and the phase becomes IDLE (R43, R261). -/
def State.endBuild (s : State) : State := { s with tables := s.tables.build, phase := .idle }

end Sys2Proof.Machine
end

