-- ==== Sys2Proof/Machine/Field.lean ====
section
/-! DEFINITION. The field primitives (R122 to R125) and the scalar commands ADD, SUB, MUL, DIV, LOG, ALOG and DBL (R130 to
R137). -/

namespace Sys2Proof.Machine

/-- `gf_add` (R122). -/
def gfAdd (a b : Byte) : Byte := a ^^^ b

/-- `gf_sub` (R122). -/
def gfSub (a b : Byte) : Byte := a ^^^ b

/-- `gf_mul` (R123): the zero test comes first, so `LOG[0]` is never read. -/
def gfMul (t : Tables) (a b : Byte) : Byte :=
  if a = 0 ∨ b = 0 then 0 else t.alogAt (t.logAt a + t.logAt b)

/-- `gf_div` (R124): the test of b comes before the test of a (90_conflicts.md C2). -/
def gfDiv (t : Tables) (a b : Byte) : Except ErrCode Byte :=
  if b = 0 then .error .domain
  else if a = 0 then .ok 0
  else .ok (t.alogAt (255 + t.logAt a - t.logAt b))

/-- `dbl64` (R125): the eight lanes doubled at once, the subtraction modulo 2^64. -/
def dbl64 (x : Word) : Word :=
  let hi := x &&& 0x8080808080808080
  let mask := (hi <<< 1) - (hi >>> 7)
  let sh := (x <<< 1) &&& 0xFEFEFEFEFEFEFEFE
  sh ^^^ (mask &&& 0x1D1D1D1D1D1D1D1D)

/-- ADD (R130). -/
def execAdd (s : State) : Host.Outcome State Fault Refusal :=
  runCommand s fun snap => .ok { s with res := gfAdd snap.args.opa snap.args.opb }

/-- SUB (R131). -/
def execSub (s : State) : Host.Outcome State Fault Refusal :=
  runCommand s fun snap => .ok { s with res := gfSub snap.args.opa snap.args.opb }

/-- MUL (R132). -/
def execMul (s : State) : Host.Outcome State Fault Refusal :=
  runCommand s fun snap => .ok { s with res := gfMul s.tables snap.args.opa snap.args.opb }

/-- DIV (R133). -/
def execDiv (s : State) : Host.Outcome State Fault Refusal :=
  runCommand s fun snap =>
    match gfDiv s.tables snap.args.opa snap.args.opb with
    | .ok v => .ok { s with res := v }
    | .error e => .error e

/-- LOG (R134). -/
def execLog (s : State) : Host.Outcome State Fault Refusal :=
  runCommand s fun snap =>
    if snap.args.opa = 0 then .error .domain
    else .ok { s with res := BitVec.ofNat 8 (s.tables.logAt snap.args.opa) }

/-- ALOG (R135). -/
def execAlog (s : State) : Host.Outcome State Fault Refusal :=
  runCommand s fun snap => .ok { s with res := s.tables.alogAt snap.args.exponent }

/-- DBL (R136). -/
def execDbl (s : State) : Host.Outcome State Fault Refusal :=
  runCommand s fun snap => .ok { s with wout := dbl64 snap.args.win }

end Sys2Proof.Machine
end

