-- ==== Sys2Proof/Machine/Parity.lean ====
section
/-! DEFINITION. The parity commands PQS, PQW, PONLY, QS and QW (R160 to R171). Loops and accesses stand in the pseudocode's
order, which is not observable (R73, R171). -/

namespace Sys2Proof.Machine

/-- `Dw(i, t)`: word `t` of data block `i` (R72). -/
def dataWord (a : ArgRegs) (m : Memory) (i t : Nat) : Word := memRead m (a.dataAddr i (8 * t)) 8

/-- Word `t` of the buffer at `base`: `Pw[t]`, `Qw[t]` (R72). -/
def bufWord (base : Nat) (m : Memory) (t : Nat) : Word := memRead m (base + 8 * t) 8

/-- Store word `t` of the buffer at `base`. -/
def setBufWord (base : Nat) (m : Memory) (t : Nat) (v : Word) : Memory := memWrite m (base + 8 * t) 8 v

/-- The byte of PQS's inner loop (R161). -/
def pqsByte (tb : Tables) (a : ArgRegs) (i j : Nat) (m : Memory) : Memory :=
  let d := Memory.read m (a.dataAddr i j)
  let m := Memory.write m (a.p + j) (gfAdd (Memory.read m (a.p + j)) d)
  Memory.write m (a.q + j) (gfAdd (Memory.read m (a.q + j)) (gfMul tb d (tb.alogAt i)))

/-- PQS's fold (R161). -/
def pqsEffect (tb : Tables) (a : ArgRegs) (m : Memory) : Memory :=
  forUp a.w (fun i m => forUp a.n (fun j m => pqsByte tb a i j m) m) m

/-- PQS (R161). -/
def execPqs (s : State) : Host.Outcome State Fault Refusal :=
  memoryCommand .pqs s fun a m => .ok (pqsEffect s.tables a m)

/-- PQW's copy of the last block into P and Q (R163). -/
def pqwCopy (a : ArgRegs) (m : Memory) : Memory :=
  forUp (a.n / 8)
    (fun t m =>
      let v := dataWord a m (a.w - 1) t
      let m := setBufWord a.p m t v
      setBufWord a.q m t v) m

/-- The word of PQW's Horner loop (R163). -/
def pqwWord (a : ArgRegs) (i t : Nat) (m : Memory) : Memory :=
  let x := dataWord a m i t
  let m := setBufWord a.p m t (bufWord a.p m t ^^^ x)
  setBufWord a.q m t (dbl64 (bufWord a.q m t) ^^^ x)

/-- PQW's effect (R163). -/
def pqwEffect (a : ArgRegs) (m : Memory) : Memory :=
  if a.w = 0 then m
  else if a.w = 1 then pqwCopy a m
  else forDown (a.w - 1) (fun i m => forUp (a.n / 8) (fun t m => pqwWord a i t m) m) (pqwCopy a m)

/-- PQW (R163). -/
def execPqw (s : State) : Host.Outcome State Fault Refusal :=
  memoryCommand .pqw s fun a m => .ok (pqwEffect a m)

/-- One block folded into P, word by word (R165). -/
def ponlyFold (a : ArgRegs) (i : Nat) (m : Memory) : Memory :=
  forUp (a.n / 8) (fun t m => setBufWord a.p m t (bufWord a.p m t ^^^ dataWord a m i t)) m

/-- The last block copied into the buffer at `base`, word by word (R165 COPY, R169). -/
def copyLast (base : Nat) (a : ArgRegs) (m : Memory) : Memory :=
  forUp (a.n / 8) (fun t m => setBufWord base m t (dataWord a m (a.w - 1) t)) m

/-- PONLY's effect under either seed (R165). -/
def ponlyEffect (seed : PonlySeed) (a : ArgRegs) (m : Memory) : Memory :=
  if a.w = 0 then m
  else
    match seed with
    | .copy => forDown (a.w - 1) (fun i m => ponlyFold a i m) (copyLast a.p a m)
    | .accumulate => forDown a.w (fun i m => ponlyFold a i m) m

/-- PONLY (R165). -/
def execPonly (s : State) : Host.Outcome State Fault Refusal :=
  memoryCommand .ponly s fun a m => .ok (ponlyEffect s.params.ponlySeed a m)

/-- The byte of QS's inner loop, with coefficient `g` (R167). -/
def qsByte (tb : Tables) (a : ArgRegs) (g : Byte) (i j : Nat) (m : Memory) : Memory :=
  let d := Memory.read m (a.dataAddr i j)
  Memory.write m (a.q + j) (gfAdd (Memory.read m (a.q + j)) (gfMul tb d g))

/-- QS's fold: entry `i` of the list is the exponent of block `i`'s coefficient (R167). -/
def qsEffect (tb : Tables) (a : ArgRegs) (m : Memory) : Memory :=
  forUp a.w
    (fun i m =>
      let c := Memory.read m (a.coef + i)
      let g := tb.alogAt c.toNat
      forUp a.n (fun j m => qsByte tb a g i j m) m) m

/-- QS (R167). -/
def execQs (s : State) : Host.Outcome State Fault Refusal :=
  memoryCommand .qs s fun a m => .ok (qsEffect s.tables a m)

/-- One Horner step of QW over a block: `Qw[t] <- dbl64(Qw[t]) ^ Dw(i, t)` (R169). -/
def qwFold (a : ArgRegs) (i : Nat) (m : Memory) : Memory :=
  forUp (a.n / 8) (fun t m => setBufWord a.q m t (dbl64 (bufWord a.q m t) ^^^ dataWord a m i t)) m

/-- QW's effect (R169). -/
def qwEffect (a : ArgRegs) (m : Memory) : Memory :=
  if a.w = 0 then m
  else if a.w = 1 then copyLast a.q a m
  else forDown (a.w - 1) (fun i m => qwFold a i m) (copyLast a.q a m)

/-- QW (R169). -/
def execQw (s : State) : Host.Outcome State Fault Refusal :=
  memoryCommand .qw s fun a m => .ok (qwEffect a m)

end Sys2Proof.Machine
end

