-- ==== Sys2Proof/Machine/Recovery.lean ====
section
/-! DEFINITION. The recovery solver: REC1 (R201) and REC2 (R204). -/

namespace Sys2Proof.Machine

/-- The byte of REC1's loop: `gf_div(Q[j] ^ IQ[j], g)` written to output 1 (R201). -/
def rec1Byte (tb : Tables) (a : ArgRegs) (g : Byte) (j : Nat) (m : Memory) : Except ErrCode Memory :=
  match gfDiv tb (gfAdd (Memory.read m (a.q + j)) (Memory.read m (a.iq + j))) g with
  | .ok v => .ok (Memory.write m (a.out1 + j) v)
  | .error e => .error e

/-- REC1's effect (R201). -/
def rec1Effect (tb : Tables) (a : ArgRegs) (m : Memory) : Except ErrCode Memory :=
  let g := tb.alogAt a.idx1.toNat
  forUpRaise a.n (fun j m => rec1Byte tb a g j m) m

/-- REC1 (R201). -/
def execRec1 (s : State) : Host.Outcome State Fault Refusal :=
  memoryCommand .rec1 s fun a m => rec1Effect s.tables a m

/-- The coefficients (a, b) of REC2 from the positions, or the raise of R206 (R204, R209). -/
def rec2Coeffs (tb : Tables) (idx1 idx2 : Byte) : Except ErrCode (Byte × Byte) := do
  let g1p := tb.alogAt (idx2.toNat + 255 - idx1.toNat)
  let g2p ← gfDiv tb 1 (tb.alogAt idx1.toNat)
  let s := gfAdd g1p 1
  let a ← gfDiv tb g1p s
  let b ← gfDiv tb g2p s
  return (a, b)

/-- The byte of REC2's loop (R204, R205): `d1` first, then `d2`. -/
def rec2Byte (tb : Tables) (a : ArgRegs) (ca cb : Byte) (j : Nat) (m : Memory) : Memory :=
  let dp := gfAdd (Memory.read m (a.p + j)) (Memory.read m (a.ip + j))
  let dq := gfAdd (Memory.read m (a.q + j)) (Memory.read m (a.iq + j))
  let d1 := gfAdd (gfMul tb dp ca) (gfMul tb dq cb)
  let d2 := gfAdd dp d1
  Memory.write (Memory.write m (a.out1 + j) d1) (a.out2 + j) d2

/-- REC2's effect (R204). -/
def rec2Effect (tb : Tables) (a : ArgRegs) (m : Memory) : Except ErrCode Memory :=
  match rec2Coeffs tb a.idx1 a.idx2 with
  | .ok (ca, cb) => .ok (forUp a.n (fun j m => rec2Byte tb a ca cb j m) m)
  | .error e => .error e

/-- REC2 (R204). -/
def execRec2 (s : State) : Host.Outcome State Fault Refusal :=
  memoryCommand .rec2 s fun a m => rec2Effect s.tables a m

end Sys2Proof.Machine
end

