-- ==== Sys2Proof/Machine/Dispatch.lean ====
section
/-! DEFINITION. What each command does when the block executes it (R97): one arm per constructor of `Instr`. -/

namespace Sys2Proof.Machine

def exec (i : Instr) (s : State) : Host.Outcome State Fault Refusal :=
  match i with
  | .add => Sys2Proof.Machine.execAdd s
  | .sub => Sys2Proof.Machine.execSub s
  | .mul => Sys2Proof.Machine.execMul s
  | .div => Sys2Proof.Machine.execDiv s
  | .log => Sys2Proof.Machine.execLog s
  | .alog => Sys2Proof.Machine.execAlog s
  | .dbl => Sys2Proof.Machine.execDbl s
  | .pqs => Sys2Proof.Machine.execPqs s
  | .pqw => Sys2Proof.Machine.execPqw s
  | .ponly => Sys2Proof.Machine.execPonly s
  | .qs => Sys2Proof.Machine.execQs s
  | .qw => Sys2Proof.Machine.execQw s
  | .rec1 => Sys2Proof.Machine.execRec1 s
  | .rec2 => Sys2Proof.Machine.execRec2 s

end Sys2Proof.Machine
end

