-- ==== Sys2Proof/Machine/Registers.lean ====
section
/-! DEFINITION. Host accesses to the register window (R21 to R36): reads, writes, and the bus address they stand at. -/

namespace Sys2Proof.Machine

/-- The constant of the ID register (R23). -/
def idWord : Word := 0x000000000108011D

/-- What a host read of a register returns; it has no side effect (R21 to R36, R267). -/
def State.readReg (s : State) (r : Reg) : Word :=
  match r with
  | .id => idWord
  | .status => s.statusWord
  | .cmd => 0
  | .opa => s.args.opa.setWidth 64
  | .opb => s.args.opb.setWidth 64
  | .res => s.res.setWidth 64
  | .win => s.args.win
  | .wout => s.wout
  | .pAddr => s.args.pAddr
  | .qAddr => s.args.qAddr
  | .dAddr => s.args.dAddr
  | .blkSize => s.args.blkSize.setWidth 64
  | .width => s.args.width.setWidth 64
  | .coefAddr => s.args.coefAddr
  | .ipAddr => s.args.ipAddr
  | .iqAddr => s.args.iqAddr
  | .out1Addr => s.args.out1Addr
  | .out2Addr => s.args.out2Addr
  | .idx1 => s.args.idx1.setWidth 64
  | .idx2 => s.args.idx2.setWidth 64

/-- A host write to a RW register stores its defined bits and drops the others (R34). -/
def ArgRegs.write (p : Params) (a : ArgRegs) (r : Reg) (v : Word) : ArgRegs :=
  match r with
  | .opa => { a with opa := v.setWidth 8 }
  | .opb => { a with opb := v.setWidth 8 }
  | .win => { a with win := v }
  | .pAddr => { a with pAddr := maskAddr p v }
  | .qAddr => { a with qAddr := maskAddr p v }
  | .dAddr => { a with dAddr := maskAddr p v }
  | .blkSize => { a with blkSize := v.setWidth 32 }
  | .width => { a with width := v.setWidth 8 }
  | .coefAddr => { a with coefAddr := maskAddr p v }
  | .ipAddr => { a with ipAddr := maskAddr p v }
  | .iqAddr => { a with iqAddr := maskAddr p v }
  | .out1Addr => { a with out1Addr := maskAddr p v }
  | .out2Addr => { a with out2Addr := maskAddr p v }
  | .idx1 => { a with idx1 := v.setWidth 8 }
  | .idx2 => { a with idx2 := v.setWidth 8 }
  | .id => a
  | .status => a
  | .cmd => a
  | .res => a
  | .wout => a

/-- A host write to a register, in any phase (R36): CMD starts a command or is dropped (R94, R95), STATUS clears DROPPED
(R25), RO registers ignore it (R36), RW registers keep their defined bits (R34). -/
def State.writeReg (s : State) (r : Reg) (v : Word) : State :=
  match r with
  | .cmd => s.writeCmd v
  | .status => { s with status := s.status.write v }
  | .id => s
  | .res => s
  | .wout => s
  | .opa => { s with args := s.args.write s.params .opa v }
  | .opb => { s with args := s.args.write s.params .opb v }
  | .win => { s with args := s.args.write s.params .win v }
  | .pAddr => { s with args := s.args.write s.params .pAddr v }
  | .qAddr => { s with args := s.args.write s.params .qAddr v }
  | .dAddr => { s with args := s.args.write s.params .dAddr v }
  | .blkSize => { s with args := s.args.write s.params .blkSize v }
  | .width => { s with args := s.args.write s.params .width v }
  | .coefAddr => { s with args := s.args.write s.params .coefAddr v }
  | .ipAddr => { s with args := s.args.write s.params .ipAddr v }
  | .iqAddr => { s with args := s.args.write s.params .iqAddr v }
  | .out1Addr => { s with args := s.args.write s.params .out1Addr v }
  | .out2Addr => { s with args := s.args.write s.params .out2Addr v }
  | .idx1 => { s with args := s.args.write s.params .idx1 v }
  | .idx2 => { s with args := s.args.write s.params .idx2 v }

/-- The address of a register on the host's bus: `REG_BASE + offset` (R21, R99). -/
def busAddr (p : Params) (r : Reg) : Nat := p.regBase + r.offset

/-- The offset a bus access reaches (R22): refused when its width is not 8 bytes or its address not a multiple of 8 from
`REG_BASE`, and when it is outside the 256-byte window (DEDUCED, safe, log 10). -/
def windowOffset (p : Params) (addr bytes : Nat) : Except Refusal Nat :=
  if addr < p.regBase ∨ p.regBase + 256 ≤ addr then .error .outsideWindow
  else if bytes ≠ 8 ∨ (addr - p.regBase) % 8 ≠ 0 then .error .registerAccess
  else .ok (addr - p.regBase)

/-- A read of an offset: an unmapped one reads 0 (R35). -/
def State.readOffset (s : State) (off : Nat) : Word :=
  match Reg.ofOffset off with
  | some r => s.readReg r
  | none => 0

/-- A write of an offset: an unmapped one is ignored (R35). -/
def State.writeOffset (s : State) (off : Nat) (v : Word) : State :=
  match Reg.ofOffset off with
  | some r => s.writeReg r v
  | none => s

end Sys2Proof.Machine
end

