-- ==== Sys2Proof/Machine/HostAgent.lean ====
section
/-! DEFINITION. The host agent: its memory accesses (R74, R265), its statements (R99), and its writing of programs with
labels and pseudo-instructions (R99, R101). -/

namespace Sys2Proof.Machine

/-! ### Accesses to memory by agents other than the block -/

/-- Some region of the command in flight, written or not, holds the byte (R265). -/
def State.inFlightHolds (s : State) (a : Nat) : Bool := s.inFlight.any fun x => x.holds a

/-- Some W or RW region of the command in flight holds the byte (R74). -/
def State.inFlightWrites (s : State) (a : Nat) : Bool := s.inFlight.any fun x => x.written && x.holds a

/-- A write of a byte of memory by the host or another agent (R265); no byte stands past the space (R60). DEDUCED, safe
(log 11). -/
def State.agentWrite (s : State) (a : Nat) (v : Byte) : Host.Outcome State Fault Refusal :=
  if s.params.memSize ≤ a then .fault .noSuchAddress
  else if s.inFlightHolds a then .fault .bufferHazard
  else .next { s with mem := Memory.write s.mem a v }

/-- The host program names the value of a read (R99 "the value is named by the program"). -/
def State.hostSees (s : State) (name : ValueName) (v : Word) : State :=
  { s with host := { s.host with reads := (name, v) :: s.host.reads } }

/-- A host read of a byte of memory (R74): a byte of a W or RW region of the command in flight gives a free value. -/
def State.hostMemRead (s : State) (a : Nat) (name : ValueName) : Host.Outcome State Fault Refusal :=
  if s.params.memSize ≤ a then .fault .noSuchAddress
  else if s.inFlightWrites a then
    .next { (s.hostSees name ((Config.freeByte s.fresh).setWidth 64)) with fresh := s.fresh + 1 }
  else .next (s.hostSees name ((Memory.read s.mem a).setWidth 64))

/-! ### Statements -/

/-- The value a name stands for: that of the latest read which named it, however many reads under other names came after;
0 before any (R99; DESIGN CHOICE, safe, log 9). -/
def valueNamed (reads : List (ValueName × Word)) (name : ValueName) : Word :=
  match reads with
  | [] => 0
  | (n, v) :: rest => if n = name then v else valueNamed rest name

/-- Whether a condition holds of named values (R99, R7 for `s[hi:lo]`). A field with `hi < lo`, which R7 does not have and
`Cond.wellFormed` refuses, is 0: DESIGN CHOICE, safe (log 9). -/
def Cond.holds (reads : List (ValueName × Word)) (c : Cond) : Bool :=
  match c with
  | .field s hi lo v => decide ((valueNamed reads s).toNat / 2 ^ lo.val % 2 ^ (hi.val + 1 - lo.val) = v)
  | .same s t => decide (valueNamed reads s = valueNamed reads t)
  | .always => true
  | .not c => !Cond.holds reads c
  | .and c d => Cond.holds reads c && Cond.holds reads d
  | .or c d => Cond.holds reads c || Cond.holds reads d

/-- The effect of a host statement; the host's position has already moved past it (R99). Its accesses take effect in
program order (R266, DEDUCED, log 17), a memory access is to one byte (DESIGN CHOICE, log 16), and a register access by bus
address is R22's (DEDUCED, log 22). -/
def hostStmt (t : HostStmt) (s : State) : Host.Outcome State Fault Refusal :=
  match t with
  | .wr r v => .next (s.writeReg r v)
  | .rd r name => .next (s.hostSees name (s.readReg r))
  | .gotoIf c target => .next (if Cond.holds s.host.reads c then { s with host := { s.host with pc := target } } else s)
  | .busWr addr bytes v =>
    match windowOffset s.params addr bytes with
    | .ok off => .next (s.writeOffset off v)
    | .error r => .refused r
  | .busRd addr bytes name =>
    match windowOffset s.params addr bytes with
    | .ok off => .next (s.hostSees name (s.readOffset off))
    | .error r => .refused r
  | .memWr addr v => s.agentWrite addr v
  | .memRd addr name => s.hostMemRead addr name

/-- The host moves past its next statement. -/
def State.advanceHost (s : State) : State := { s with host := { s.host with pc := s.host.pc + 1 } }

/-- The host takes its next statement; a program that has ended does nothing (R99). -/
def hostStep (s : State) : Host.Outcome State Fault Refusal :=
  match s.host.code[s.host.pc]? with
  | none => .next s
  | some t => hostStmt t s.advanceHost

/-! ### Writing host programs -/

/-- The name `s` under which the expansions of R101 read STATUS. -/
def statusName : ValueName := 0

/-- The polling loop at position `at0`: `L: rd STATUS -> s ; if s[k] == val goto L` (R101). -/
def pollLoop (at0 : Nat) (k : Fin 64) (val : Bool) : List HostStmt :=
  [.rd .status statusName, .gotoIf (.bit statusName k val) at0]

/-- `cmd OP`: a mnemonic stands for its OPCODE (R99, R101). -/
def cmdStmt (i : Instr) : HostStmt := .wr .cmd (encode i)

/-- The command of a `gf.` pseudo-instruction (R101). -/
def gfInstr (op : GfOp) : Instr :=
  match op with
  | .add => .add
  | .sub => .sub
  | .mul => .mul
  | .div => .div

/-- The expansion of a pseudo-instruction that stands at position `at0` (R101). -/
def expand (at0 : Nat) (p : Pseudo) : List HostStmt :=
  match p with
  | .cmd i => [cmdStmt i]
  | .waitready => pollLoop at0 0 false
  | .wait => pollLoop at0 1 true
  | .clrdrop => [.wr .status 0x10]
  | .gf op a b s => [.wr .opa a, .wr .opb b, cmdStmt (gfInstr op)] ++ pollLoop (at0 + 3) 1 true ++ [.rd .res s]
  | .gfLog a s => [.wr .opa a, cmdStmt .log] ++ pollLoop (at0 + 2) 1 true ++ [.rd .res s]
  | .gfAlog e s => [.wr .opa e, cmdStmt .alog] ++ pollLoop (at0 + 2) 1 true ++ [.rd .res s]
  | .gfDbl x s => [.wr .win x, cmdStmt .dbl] ++ pollLoop (at0 + 2) 1 true ++ [.rd .wout s]

/-- How many statements a line becomes. -/
def lineSize (l : SrcLine) : Nat :=
  match l with
  | .stmt _ => 1
  | .pseudo p => (expand 0 p).length
  | .label _ => 0
  | .branch _ _ => 1
  | .mem _ _ => 0

/-- The position of a label. R99 does not say which position a label that stands twice has, or one that does not stand in
the program: the first place, and the program's end. DESIGN CHOICE, safe (log 9); `sourceOk` refuses both programs. -/
def labelPos (lines : List SrcLine) (l : Nat) (at0 : Nat) : Nat :=
  match lines with
  | [] => at0
  | x :: rest => if x = .label l then at0 else labelPos rest l (at0 + lineSize x)

/-- The statements of lines from position `at0` on; `all` is the whole program, in which labels are looked up. -/
def assembleFrom (all : List SrcLine) (at0 : Nat) (lines : List SrcLine) : List HostStmt :=
  match lines with
  | [] => []
  | .stmt t :: rest => t :: assembleFrom all (at0 + 1) rest
  | .pseudo p :: rest => expand at0 p ++ assembleFrom all (at0 + (expand 0 p).length) rest
  | .label _ :: rest => assembleFrom all at0 rest
  | .branch c l :: rest => .gotoIf c (labelPos all l 0) :: assembleFrom all (at0 + 1) rest
  | .mem _ _ :: rest => assembleFrom all at0 rest

/-- A host program from its source lines (R99). -/
def assemble (lines : List SrcLine) : List HostStmt := assembleFrom lines 0 lines

/-- The start memory of a host program: its `mem` lines (R99). A byte for an address at or past `2^ADDR_W` is left out:
R60 and R99 do not say what such a line does. DESIGN CHOICE, safe (log 25); `sourceOk` refuses such a program. Where two
lines name one address R99 does not say which byte it holds: the later line's. DESIGN CHOICE, safe (log 27). -/
def startMemory (p : Params) (lines : List SrcLine) (m : Memory) : Memory :=
  match lines with
  | [] => m
  | .mem a bs :: rest => startMemory p rest (Memory.place p.memSize m a bs)
  | .stmt _ :: rest => startMemory p rest m
  | .pseudo _ :: rest => startMemory p rest m
  | .label _ :: rest => startMemory p rest m
  | .branch _ _ :: rest => startMemory p rest m

/-! ### Bus transactions -/

/-- The transaction of an access that reaches the window, none of one that is refused (R22). -/
def windowTxn (p : Params) (addr bytes : Nat) (txn : Nat → BusTxn) : Option BusTxn :=
  match windowOffset p addr bytes with
  | .ok off => some (txn off)
  | .error _ => none

/-- The bus transaction of a statement on the register window (R99): none for host control flow and memory. -/
def stmtTxn (p : Params) (t : HostStmt) : Option BusTxn :=
  match t with
  | .wr r v => some (.write r.offset v)
  | .rd r _ => some (.read r.offset)
  | .gotoIf _ _ => none
  | .busWr addr bytes v => windowTxn p addr bytes (.write · v)
  | .busRd addr bytes _ => windowTxn p addr bytes .read
  | .memWr _ _ => none
  | .memRd _ _ => none

/-- The bus address of a transaction (R99: `REG_BASE + offset(REG)`). -/
def BusTxn.addr (p : Params) (x : BusTxn) : Nat :=
  match x with
  | .write off _ => p.regBase + off
  | .read off => p.regBase + off

/-- The transactions of statements taken one after the other: the encoding of a program without gotos (R99). What a
program with gotos puts on the bus depends on its run: `runTxns`. -/
def listedTxns (p : Params) (code : List HostStmt) : List BusTxn := code.filterMap (stmtTxn p)

end Sys2Proof.Machine
end

