-- ==== Sys2Proof/Machine/Execute.lean ====
section
/-! DEFINITION. The block's own steps (R97, R261), the turns of the agenda, and how a command word is put in flight. -/

namespace Sys2Proof.Machine

/-- The block's own step: the end of the build while BUILDING (R261), the execute step while BUSY (R97), nothing while
IDLE. An illegal word completes with ERR_ILLEGAL and does nothing else (R92, R232). -/
def blockStep (s : State) : Host.Outcome State Fault Refusal :=
  match s.phase with
  | .building => .next s.endBuild
  | .idle => .next s
  | .busy snap =>
    match decode snap.cmd with
    | .ok i => exec i s
    | .error _ => .next (s.complete .illegal)

/-- One turn. -/
def takeTurn (t : Turn) (s : State) : Host.Outcome State Fault Refusal :=
  match t with
  | .block => blockStep s
  | .host => hostStep s
  | .agentWrite a v => s.agentWrite a v
  | .reset => .next s.pulseReset
  | .busError => .fault .memoryBusError

/-- Whose turn it is when the agenda is empty: the block's if it has a step of its own, else the host's. A state whose
agenda lists no turns is thus the schedule of 95_test_vectors.md section 7. DESIGN CHOICE, safe: every other schedule is
an agenda (log 5). -/
def State.defaultTurn (s : State) : Turn :=
  match s.phase with
  | .building => .block
  | .busy _ => .block
  | .idle => .host

/-- The turn that comes next (DESIGN CHOICE, log 5). -/
def State.nextTurn (s : State) : Turn := s.agenda.headD s.defaultTurn

/-- The state once its next turn is taken off the agenda. -/
def State.popTurn (s : State) : State := { s with agenda := s.agenda.tail }

/-- The machine with its build ended, as it is before any command can be accepted (R95, R263). -/
def State.built (s : State) : State :=
  match s.phase with
  | .building => s.endBuild
  | .idle => s
  | .busy _ => s

/-- Put a command word in flight from any phase: the build ended, and the accept of R94; the block moves next. -/
def State.placeCommand (s : State) (w : Word) : State := { s.built.accept w with agenda := .block :: s.agenda }

end Sys2Proof.Machine
end

