-- ==== Sys2Proof/Machine/Step.lean ====
section
/-! DEFINITION. One step of the machine, and where step fetches its next command. -/

namespace Sys2Proof.Machine

/-- One step: the next turn of the agenda, or the default turn when it is empty (DESIGN CHOICE, safe, log 5). -/
def step (s : State) : Host.Outcome State Fault Refusal := takeTurn s.nextTurn s.popTurn

/-- `s` with a command word in flight as the block's next step: the tables built, the word accepted (R94), and the block
to move next. It stands for the steps of log 14, after which a host's CMD write runs. DESIGN CHOICE, safe. -/
def State.withFetchWord (s : State) (nbits w : Nat) : State := s.placeCommand (BitVec.ofNat 64 (w % 2 ^ nbits))

end Sys2Proof.Machine
end

