-- ==== Sys2Proof/Machine/Trace.lean ====
section
/-! DEFINITION. The encoding of a host program (R99): the list of bus transactions that a run of it makes. -/

namespace Sys2Proof.Machine

/-- The statement the host executes in the next step, if the step is the host's. -/
def State.nextStmt (s : State) : Option HostStmt :=
  match s.nextTurn with
  | .host => s.host.code[s.host.pc]?
  | .block => none
  | .agentWrite _ _ => none
  | .reset => none
  | .busError => none

/-- The bus transaction the next step makes (R99). -/
def State.nextTxn (s : State) : Option BusTxn := s.nextStmt.bind (stmtTxn s.params)

/-- The bus transactions of the first `k` steps from `s`, in order: a program's encoding (R99), its gotos taken as the run
takes them. The values the reads returned stand in `host.reads`. -/
def runTxns (k : Nat) (s : State) : List BusTxn :=
  match k with
  | 0 => []
  | k + 1 =>
    match step s with
    | .next t => s.nextTxn.toList ++ runTxns k t
    | .fault _ => []
    | .refused _ => []

end Sys2Proof.Machine
end

