-- ==== Sys2Proof/Safety.lean ====
section
/-! DEFINITION. What counts as a safe state, and the vocabulary claims are written in: the field in its own terms (R120,
R121, R126), the checks of a command as propositions (R66 to R70, R233), and the invariant of the machine. -/

namespace Sys2Proof.Machine

/-! ### The field, apart from the tables -/

/-- Multiplication of an element by 2: `((v << 1) & 0xFF) ^ (v[7] ? 0x1D : 0x00)` (R126). -/
def xtime (v : Byte) : Byte := (v <<< 1) ^^^ (if v.getLsbD 7 then 0x1D else 0)

/-- `e` doublings of `v`: `v` times `x^e` modulo `POLY`. -/
def xtimes (e : Nat) (v : Byte) : Byte :=
  match e with
  | 0 => v
  | k + 1 => xtime (xtimes k v)

/-- The power `2^e` in the field (R121). -/
def xpow (e : Nat) : Byte := xtimes e 1

/-- `f 0 ^ f 1 ^ ... ^ f (b-1)`. -/
def xorSum (b : Nat) (f : Nat → Byte) : Byte :=
  match b with
  | 0 => 0
  | k + 1 => xorSum k f ^^^ f k

/-- The product of the polynomials `a` and `b` reduced modulo `POLY` (R120, R127): the sum of `x^k * a` over the set bits
`k` of `b`. -/
def fieldMul (a b : Byte) : Byte := xorSum 8 fun k => if b.getLsbD k then xtimes k a else 0

/-- The tables hold what the build leaves (R39, R41): `ALOG[0] = 1`, each next entry is the double of the one before, and
`LOG` inverts `ALOG` on the exponents 0 to 254. -/
structure Tables.Built (t : Tables) : Prop where
  alog_zero : t.alogAt 0 = 1
  alog_succ : ∀ e < 511, t.alogAt (e + 1) = xtime (t.alogAt e)
  log_alog : ∀ e < 255, t.logAt (t.alogAt e) = e

/-- The build as R39's pseudocode writes it: entry after entry of both tables, `value` a 9-bit integer. -/
def Tables.pseudoBuild (t : Tables) : Tables :=
  let round := fun (e : Nat) (tv : Tables × BitVec 9) =>
    let byte : Byte := tv.2.setWidth 8
    ({ alog := tv.1.alog.setIfInBounds e byte, log := tv.1.log.setIfInBounds byte.toNat (BitVec.ofNat 8 e) : Tables },
      if (tv.2 <<< 1).getLsbD 8 then (tv.2 <<< 1) ^^^ Config.poly else tv.2 <<< 1)
  let filled := (forUp 255 round (t, 1)).1
  forUp 257
    (fun k (t : Tables) => { t with alog := t.alog.setIfInBounds (255 + k) (t.alogAt (255 + k - 255)) }) filled

/-! ### The checks of a command as propositions -/

/-- The commands that name regions (R69). -/
def memoryCommands : List Instr := [.pqs, .pqw, .ponly, .qs, .qw, .rec1, .rec2]

/-- The commands that name none (R69, R137). -/
def scalarCommands : List Instr := [.add, .sub, .mul, .div, .log, .alog, .dbl]

/-- `n mod 8 == 0` where the command asks for it (R233). -/
def ShapeOk (i : Instr) (a : ArgRegs) : Prop := (i = .pqw ∨ i = .ponly ∨ i = .qw) → a.n % 8 = 0

/-- No nonempty region passes the top of the address space (R67). -/
def RangeOk (p : Params) (i : Instr) (a : ArgRegs) : Prop :=
  ∀ x ∈ regionsOf p i a, 0 < x.len → x.base + x.len ≤ p.memSize

/-- No written region shares an address with a region of another role (R68, R70). -/
def AliasOk (p : Params) (i : Instr) (a : ArgRegs) : Prop :=
  ∀ x ∈ regionsOf p i a, ∀ y ∈ regionsOf p i a, x.role ≠ y.role → x.access ≠ .r →
    ∀ b : Nat, ¬ ((x.base ≤ b ∧ b < x.base + x.len) ∧ (y.base ≤ b ∧ b < y.base + y.len))

/-- A command passes its checks (R237). -/
structure ChecksPass (p : Params) (i : Instr) (a : ArgRegs) : Prop where
  shape : ShapeOk i a
  range : RangeOk p i a
  apart : AliasOk p i a

/-- The address `b` is in the `n` bytes from `base`. -/
def InBuf (base n b : Nat) : Prop := base ≤ b ∧ b < base + n

/-- The byte is in a W or RW region the command names (R69). -/
def WrittenBy (p : Params) (i : Instr) (a : ArgRegs) (b : Nat) : Prop :=
  ∃ x ∈ regionsOf p i a, x.access ≠ .r ∧ InBuf x.base x.len b

/-- The byte is in a region the command names (R69). -/
def NamedBy (p : Params) (i : Instr) (a : ArgRegs) (b : Nat) : Prop :=
  ∃ x ∈ regionsOf p i a, InBuf x.base x.len b

/-- The step from `s` to `t` is the execute step in which one of the commands `is` completes without error (R97, R230). -/
structure CompletesWithoutError (s t : State) (is : List Instr) : Prop where
  turn : s.nextTurn = .block
  inFlight : ∃ snap, s.phase = .busy snap ∧ ∃ i ∈ is, decode snap.cmd = .ok i
  idle : t.phase = .idle
  done : t.status.done = true
  noError : t.status.errcode = .none

/-! ### Registers -/

/-- The number of defined bits of a register that is RW, none of another (R21). -/
def rwBits (p : Params) (r : Reg) : Option Nat :=
  match r with
  | .opa => some 8
  | .opb => some 8
  | .win => some 64
  | .pAddr => some p.addrW.val
  | .qAddr => some p.addrW.val
  | .dAddr => some p.addrW.val
  | .blkSize => some 32
  | .width => some 8
  | .coefAddr => some p.addrW.val
  | .ipAddr => some p.addrW.val
  | .iqAddr => some p.addrW.val
  | .out1Addr => some p.addrW.val
  | .out2Addr => some p.addrW.val
  | .idx1 => some 8
  | .idx2 => some 8
  | .id => none
  | .status => none
  | .cmd => none
  | .res => none
  | .wout => none

/-! ### The contents of buffers -/

/-- `data_i[j]`: byte `j` of data block `i` (R71). -/
def dataByte (a : ArgRegs) (m : Memory) (i j : Nat) : Byte := Memory.read m (a.d + i * a.n + j)

/-- The P of a stripe at byte `j` (R162). -/
def parityP (a : ArgRegs) (m : Memory) (j : Nat) : Byte := xorSum a.w fun i => dataByte a m i j

/-- The Q of a stripe at byte `j` with the default coefficients `2^i` (R160, R162). -/
def parityQ (a : ArgRegs) (m : Memory) (j : Nat) : Byte := xorSum a.w fun i => fieldMul (dataByte a m i j) (xpow i)

/-! ### The invariant -/

/-- Every listed byte of memory lies in `[0, size)`. -/
def Memory.Within (size : Nat) (m : Memory) : Prop := ∀ c ∈ m, c.1 < size

/-- The address registers hold only their defined bits (R30, R34). -/
structure ArgRegs.Masked (p : Params) (a : ArgRegs) : Prop where
  p_lt : a.p < p.memSize
  q_lt : a.q < p.memSize
  d_lt : a.d < p.memSize
  coef_lt : a.coef < p.memSize
  ip_lt : a.ip < p.memSize
  iq_lt : a.iq < p.memSize
  out1_lt : a.out1 < p.memSize
  out2_lt : a.out2 < p.memSize

/-- What holds of the machine after reset and after every step. -/
structure State.Inv (s : State) : Prop where
  /-- Memory is in its canonical form. -/
  mem_wf : Memory.wf s.mem = true
  /-- Every listed byte is in the address space (R60). -/
  mem_in : Memory.Within s.params.memSize s.mem
  /-- Reserved bits of the address registers are 0 (R34), and so they are in the snapshot (R44). -/
  args_masked : s.args.Masked s.params
  snap_masked : ∀ snap, s.phase = .busy snap → snap.args.Masked s.params
  /-- Commands run on built tables: READY means the build has ended (R43, R261). -/
  tables_built : s.phase ≠ .building → s.tables.Built
  /-- ERR says that ERRCODE is not 0, and only a completed command has an error (R24, R230). -/
  err_code : s.status.err = decide (s.status.errcode ≠ .none)
  err_done : s.status.err = true → s.status.done = true
  /-- While BUSY, DONE, ERR and ERRCODE are 0 (R24), and while BUILDING no command has completed (R95, R260). -/
  quiet : s.phase ≠ .idle → s.status.done = false ∧ s.status.err = false ∧ s.status.errcode = .none

end Sys2Proof.Machine
end

