-- ==== Sys2Proof/Certificates/Slice0/Obligations.lean ====
section
/-! DEFINITION. The statements about the machine. -/

open Sys2Proof Sys2Proof.Machine

/-! ### Encoding -/

/-- The words of R91 decode to their commands, and words beside them are illegal by name (R92, R100). -/
def Obligations.DecodeReadsTheSpecWords : Prop :=
  decode 0x0000000000000001 = .ok .add ∧ decode 0x0000000000000002 = .ok .sub ∧
  decode 0x0000000000000003 = .ok .mul ∧ decode 0x0000000000000004 = .ok .div ∧
  decode 0x0000000000000005 = .ok .log ∧ decode 0x0000000000000006 = .ok .alog ∧
  decode 0x0000000000000007 = .ok .dbl ∧ decode 0x0000000000000010 = .ok .pqs ∧
  decode 0x0000000000000011 = .ok .pqw ∧ decode 0x0000000000000012 = .ok .ponly ∧
  decode 0x0000000000000013 = .ok .qs ∧ decode 0x0000000000000014 = .ok .qw ∧
  decode 0x0000000000000020 = .ok .rec1 ∧ decode 0x0000000000000021 = .ok .rec2 ∧
  decode 0x0000000000000103 = .error .reservedBits ∧ decode 0x8000000000000001 = .error .reservedBits ∧
  decode 0x0000000000000000 = .error .unassignedOpcode ∧ decode 0x0000000000000008 = .error .unassignedOpcode ∧
  decode 0x0000000000000015 = .error .unassignedOpcode ∧ decode 0x00000000000000FF = .error .unassignedOpcode

/-- R91: a word is a command exactly when RSVD is 0 and OPCODE is that command's; every other word is illegal. -/
def Obligations.DecodeIsExactlyTheOpcodeMap : Prop :=
  (∀ (c : Word) (i : Instr), decode c = .ok i ↔
    c.toNat / 256 = 0 ∧ (c.toNat % 256, i) ∈
      [(0x01, Instr.add), (0x02, .sub), (0x03, .mul), (0x04, .div), (0x05, .log), (0x06, .alog), (0x07, .dbl),
        (0x10, .pqs), (0x11, .pqw), (0x12, .ponly), (0x13, .qs), (0x14, .qw), (0x20, .rec1), (0x21, .rec2)]) ∧
  (∀ c : Word, (∃ e, decode c = .error e) ↔ commandWordOk c = false)

/-- Decode and encode agree: the word of a command decodes to it, and no other word does (R92: a decoder is total, exactly
one command or illegal). -/
def Obligations.DecodeOfEncodeIsTheCommand : Prop :=
  ∀ (i : Instr) (c : Word), decode c = .ok i ↔ c = encode i

/-! ### The execute step and completion -/

/-- R97: when it is the block's turn and the command in flight decodes to `i`, the step is `exec i` on the state with the
turn taken; and `withFetchWord` puts a command in flight that the very next step executes, with memory and agenda as they
were and the arguments in its snapshot. -/
def Obligations.StepRunsTheDecodedCommand : Prop :=
  (∀ (s : State) (snap : Snapshot) (i : Instr), s.phase = .busy snap → s.nextTurn = .block → decode snap.cmd = .ok i →
    step s = exec i s.popTurn) ∧
  (∀ (s : State) (i : Instr), ∃ u : State,
    u.phase = .busy { cmd := encode i, args := s.args } ∧ u.agenda = s.agenda ∧ u.mem = s.mem ∧ u.params = s.params ∧
      step (s.withFetchWord 64 (encode i).toNat) = exec i u)

/-- R232: a command word whose RSVD is not 0 or whose OPCODE is unassigned completes with ERR_ILLEGAL and has no other
effect. -/
def Obligations.IllegalWordsCompleteWithErrIllegal : Prop :=
  ∀ (s : State) (snap : Snapshot), s.phase = .busy snap → s.nextTurn = .block →
    (snap.cmd.toNat / 256 ≠ 0 ∨ snap.cmd.toNat % 256 ∉
      [0x01, 0x02, 0x03, 0x04, 0x05, 0x06, 0x07, 0x10, 0x11, 0x12, 0x13, 0x14, 0x20, 0x21]) →
    step s = .next { s.popTurn with
      status := { done := true, err := true, dropped := s.status.dropped, errcode := .illegal }
      phase := .idle }

/-- R230: every command in flight, legal or not, completes when the block's turn comes; a normal end completes with code 0
and a raise stops the rule and completes with its code; completing sets DONE, ERRCODE and ERR = (code != 0), makes the
phase IDLE, which discards the snapshot, and changes nothing else. -/
def Obligations.EveryAcceptedCommandCompletes : Prop :=
  (∀ (s : State) (snap : Snapshot), s.phase = .busy snap → s.nextTurn = .block →
    ∃ t e, step s = .next t ∧ t.phase = .idle ∧
      t.status = { done := true, err := decide (e ≠ .none), dropped := s.status.dropped, errcode := e }) ∧
  (∀ (s : State) (snap : Snapshot) (body : Snapshot → Except ErrCode State), s.phase = .busy snap →
    (∀ u, body snap = .ok u → runCommand s body = .next (u.complete .none)) ∧
    (∀ e, body snap = .error e → runCommand s body = .next (s.complete e))) ∧
  (∀ (s : State) (e : ErrCode), s.complete e = { s with
    status := { done := true, err := decide (e ≠ .none), dropped := s.status.dropped, errcode := e }
    phase := .idle })

/-! ### Field arithmetic -/

/-- R130, R131: ADD and SUB complete without error with RES = OPA ^ OPB, and change nothing else. -/
def Obligations.AddAndSubGiveTheXor : Prop :=
  decode 0x01 = .ok .add ∧ decode 0x02 = .ok .sub ∧
  ∀ (s : State) (snap : Snapshot), s.phase = .busy snap →
    exec .add s = .next ({ s with res := snap.args.opa ^^^ snap.args.opb }.complete .none) ∧
    exec .sub s = .next ({ s with res := snap.args.opa ^^^ snap.args.opb }.complete .none)

/-- R132: MUL completes without error with RES the product of the polynomials OPA and OPB modulo `POLY`, and changes
nothing else. -/
def Obligations.MulGivesTheFieldProduct : Prop :=
  decode 0x03 = .ok .mul ∧
  ∀ (s : State) (snap : Snapshot), s.phase = .busy snap → s.tables.Built →
    exec .mul s = .next ({ s with res := fieldMul snap.args.opa snap.args.opb }.complete .none)

/-- R133: DIV by a nonzero divisor completes with RES the quotient and changes nothing else; DIV by 0, of 0 too, completes
with ERR_DOMAIN and changes nothing else. -/
def Obligations.DivGivesTheFieldQuotient : Prop :=
  decode 0x04 = .ok .div ∧
  ∀ (s : State) (snap : Snapshot), s.phase = .busy snap → s.tables.Built →
    (snap.args.opb ≠ 0 → ∃ c, fieldMul c snap.args.opb = snap.args.opa ∧
      exec .div s = .next ({ s with res := c }.complete .none)) ∧
    (snap.args.opb = 0 → exec .div s = .next (s.complete .domain))

/-- R134: LOG of a nonzero element completes with RES its exponent, at most 254, and changes nothing else; LOG of 0
completes with ERR_DOMAIN and changes nothing else. -/
def Obligations.LogGivesTheExponent : Prop :=
  decode 0x05 = .ok .log ∧
  ∀ (s : State) (snap : Snapshot), s.phase = .busy snap → s.tables.Built →
    (snap.args.opa ≠ 0 → ∃ c : Byte, c.toNat ≤ 254 ∧ xpow c.toNat = snap.args.opa ∧
      exec .log s = .next ({ s with res := c }.complete .none)) ∧
    (snap.args.opa = 0 → exec .log s = .next (s.complete .domain))

/-- R135: ALOG completes without error with RES = 2^OPA, and changes nothing else. -/
def Obligations.AlogGivesThePower : Prop :=
  decode 0x06 = .ok .alog ∧
  ∀ (s : State) (snap : Snapshot), s.phase = .busy snap → s.tables.Built →
    exec .alog s = .next ({ s with res := xpow snap.args.opa.toNat }.complete .none)

/-- R136: DBL completes without error with each lane of WOUT the double of that lane of WIN, and changes nothing else. -/
def Obligations.DblDoublesEveryLane : Prop :=
  decode 0x07 = .ok .dbl ∧
  ∀ (s : State) (snap : Snapshot), s.phase = .busy snap →
    ∃ y : Word, (∀ k < 8, laneOf k y = xtime (laneOf k snap.args.win)) ∧
      exec .dbl s = .next ({ s with wout := y }.complete .none)

/-- R126: lane `k` of `dbl64(x)` is the double of lane `k` of `x`, and equals `gf_mul` of it by 2. -/
def Obligations.WordDoublingIsLanewise : Prop :=
  ∀ (x : Word), ∀ k < 8, laneOf k (dbl64 x) = xtime (laneOf k x) ∧
    ∀ t : Tables, t.Built → laneOf k (dbl64 x) = gfMul t (laneOf k x) 2

/-- R127: the field laws of the primitives, and that `gf_mul` is the product of polynomials modulo `POLY`. -/
def Obligations.FieldLawsHold : Prop :=
  ∀ t : Tables, t.Built → ∀ a b c : Byte,
    gfAdd a b = gfAdd b a ∧ gfAdd a 0 = a ∧ gfAdd a a = 0 ∧
    gfMul t a 1 = a ∧ gfMul t a 0 = 0 ∧ gfMul t a b = gfMul t b a ∧
    (b ≠ 0 → gfDiv t (gfMul t a b) b = .ok a) ∧ gfDiv t a 0 = .error .domain ∧
    gfMul t (gfMul t a b) c = gfMul t a (gfMul t b c) ∧
    gfMul t a (gfAdd b c) = gfAdd (gfMul t a b) (gfMul t a c) ∧
    gfMul t a b = fieldMul a b ∧
    (b ≠ 0 → ∃ r v, gfDiv t a b = .ok r ∧ gfDiv t 1 b = .ok v ∧ r = gfMul t a v)

/-- R128: every table index the primitives compute is in range. -/
def Obligations.TableIndexesAreInRange : Prop :=
  ∀ t : Tables, t.Built → ∀ a b : Byte, a ≠ 0 → b ≠ 0 →
    t.logAt a ≤ 254 ∧ t.logAt a + t.logAt b ≤ 508 ∧
      1 ≤ 255 + t.logAt a - t.logAt b ∧ 255 + t.logAt a - t.logAt b ≤ 509

/-! ### Tables -/

/-- R41: what holds of the tables after the build, whatever they held before. -/
def Obligations.BuiltTablesInvertEachOther : Prop :=
  ∀ t : Tables,
    (∀ a : Byte, a ≠ 0 → t.build.alogAt (t.build.logAt a) = a) ∧
    (∀ e ≤ 254, t.build.logAt (t.build.alogAt e) = e) ∧
    (∀ e ≤ 254, t.build.alogAt e = t.build.alogAt (e + 255)) ∧
    (∀ e ≤ 511, t.build.alogAt e = t.build.alogAt (e % 255) ∧ t.build.alogAt e ≠ 0)

/-- R39: the build leaves exactly what the loops of the pseudocode leave, entry by entry, from any contents. -/
def Obligations.BuildIsThePseudocode : Prop := ∀ t : Tables, t.build = t.pseudoBuild

/-! ### Parity -/

/-- R162: PQS that passes its checks completes without error with P and Q accumulated, and changes nothing but the P and Q
buffers, STATUS and the phase. -/
def Obligations.PqsAccumulatesBothParities : Prop :=
  ∀ (s : State) (snap : Snapshot), s.phase = .busy snap → Memory.wf s.mem = true →
    ChecksPass s.params .pqs snap.args →
    ∃ m, exec .pqs s = .next ({ s with mem := m }.complete .none) ∧
      (∀ j < snap.args.n, Memory.read m (snap.args.p + j) =
        Memory.read s.mem (snap.args.p + j) ^^^ xorSum snap.args.w fun i => dataByte snap.args s.mem i j) ∧
      (∀ j < snap.args.n, Memory.read m (snap.args.q + j) =
        Memory.read s.mem (snap.args.q + j) ^^^
          xorSum snap.args.w fun i => gfMul s.tables (dataByte snap.args s.mem i j) (s.tables.alogAt i)) ∧
      (∀ b, ¬ InBuf snap.args.p snap.args.n b → ¬ InBuf snap.args.q snap.args.n b →
        Memory.read m b = Memory.read s.mem b)

/-- R164: PQW that passes its checks completes without error with P and Q overwritten by the parities of the stripe when
w >= 1, and changes nothing but the P and Q buffers, STATUS and the phase; with w = 0 it changes no byte. With w >= 1 it
ends as PQS does exactly when the P and Q buffers hold zeros at the start. -/
def Obligations.PqwOverwritesBothParities : Prop :=
  ∀ (s : State) (snap : Snapshot), s.phase = .busy snap → Memory.wf s.mem = true → s.tables.Built →
    ChecksPass s.params .pqw snap.args →
    (snap.args.w = 0 → exec .pqw s = .next (s.complete .none)) ∧
    (1 ≤ snap.args.w → ∃ m, exec .pqw s = .next ({ s with mem := m }.complete .none) ∧
      (∀ j < snap.args.n, Memory.read m (snap.args.p + j) =
        xorSum snap.args.w fun i => dataByte snap.args s.mem i j) ∧
      (∀ j < snap.args.n, Memory.read m (snap.args.q + j) =
        xorSum snap.args.w fun i => gfMul s.tables (dataByte snap.args s.mem i j) (s.tables.alogAt i)) ∧
      (∀ b, ¬ InBuf snap.args.p snap.args.n b → ¬ InBuf snap.args.q snap.args.n b →
        Memory.read m b = Memory.read s.mem b) ∧
      (exec .pqs s = exec .pqw s ↔ ∀ j < snap.args.n,
        Memory.read s.mem (snap.args.p + j) = 0 ∧ Memory.read s.mem (snap.args.q + j) = 0))

/-- R166: PONLY that passes its checks completes without error; with w >= 1 it overwrites P with the parity under COPY and
XORs the parity into it under ACCUMULATE, and changes nothing but the P buffer, STATUS and the phase; with w = 0 it changes
no byte. -/
def Obligations.PonlyFoldsByTheSeed : Prop :=
  ∀ (s : State) (snap : Snapshot), s.phase = .busy snap → Memory.wf s.mem = true →
    ChecksPass s.params .ponly snap.args →
    (snap.args.w = 0 → exec .ponly s = .next (s.complete .none)) ∧
    (1 ≤ snap.args.w → ∃ m, exec .ponly s = .next ({ s with mem := m }.complete .none) ∧
      (s.params.ponlySeed = .copy → ∀ j < snap.args.n, Memory.read m (snap.args.p + j) =
        xorSum snap.args.w fun i => dataByte snap.args s.mem i j) ∧
      (s.params.ponlySeed = .accumulate → ∀ j < snap.args.n, Memory.read m (snap.args.p + j) =
        Memory.read s.mem (snap.args.p + j) ^^^ xorSum snap.args.w fun i => dataByte snap.args s.mem i j) ∧
      (∀ b, ¬ InBuf snap.args.p snap.args.n b → Memory.read m b = Memory.read s.mem b))

/-- R168: QS that passes its checks completes without error with Q accumulated under the listed exponents, which is PQS's Q
when entry `i` is `i`, and changes nothing but the Q buffer, STATUS and the phase. -/
def Obligations.QsUsesTheListedExponents : Prop :=
  ∀ (s : State) (snap : Snapshot), s.phase = .busy snap → Memory.wf s.mem = true →
    ChecksPass s.params .qs snap.args →
    ∃ m, exec .qs s = .next ({ s with mem := m }.complete .none) ∧
      (∀ j < snap.args.n, Memory.read m (snap.args.q + j) =
        Memory.read s.mem (snap.args.q + j) ^^^
          xorSum snap.args.w fun i => gfMul s.tables (dataByte snap.args s.mem i j)
            (s.tables.alogAt (Memory.read s.mem (snap.args.coef + i)).toNat)) ∧
      ((∀ i < snap.args.w, (Memory.read s.mem (snap.args.coef + i)).toNat = i) →
        ∀ j < snap.args.n, Memory.read m (snap.args.q + j) =
          Memory.read s.mem (snap.args.q + j) ^^^
            xorSum snap.args.w fun i => gfMul s.tables (dataByte snap.args s.mem i j) (s.tables.alogAt i)) ∧
      (∀ b, ¬ InBuf snap.args.q snap.args.n b → Memory.read m b = Memory.read s.mem b)

/-- R169: QW that passes its checks completes without error with Q overwritten by the stripe's Q when w >= 1, and changes
nothing but the Q buffer, STATUS and the phase; with w = 0 it changes no byte. -/
def Obligations.QwOverwritesQ : Prop :=
  ∀ (s : State) (snap : Snapshot), s.phase = .busy snap → Memory.wf s.mem = true → s.tables.Built →
    ChecksPass s.params .qw snap.args →
    (snap.args.w = 0 → exec .qw s = .next (s.complete .none)) ∧
    (1 ≤ snap.args.w → ∃ m, exec .qw s = .next ({ s with mem := m }.complete .none) ∧
      (∀ j < snap.args.n, Memory.read m (snap.args.q + j) = parityQ snap.args s.mem j) ∧
      (∀ b, ¬ InBuf snap.args.q snap.args.n b → Memory.read m b = Memory.read s.mem b))

/-- R170: with w >= 1, QW leaves the Q buffer that PQW leaves on the same stripe and that PQS leaves when it starts from a
zero Q buffer, and PQW leaves the P buffer that PQS leaves when it starts from a zero P buffer: the scalar and the
word-parallel computations are byte-identical. -/
def Obligations.ScalarAndWordParityAgree : Prop :=
  ∀ (s : State) (snap : Snapshot), s.phase = .busy snap → Memory.wf s.mem = true → s.tables.Built →
    ChecksPass s.params .pqw snap.args → 1 ≤ snap.args.w →
    ∃ t u v : State, exec .pqw s = .next t ∧ exec .qw s = .next u ∧ exec .pqs s = .next v ∧
      (∀ j < snap.args.n, Memory.read u.mem (snap.args.q + j) = Memory.read t.mem (snap.args.q + j)) ∧
      ((∀ j < snap.args.n, Memory.read s.mem (snap.args.q + j) = 0) →
        ∀ j < snap.args.n, Memory.read v.mem (snap.args.q + j) = Memory.read u.mem (snap.args.q + j)) ∧
      ((∀ j < snap.args.n, Memory.read s.mem (snap.args.p + j) = 0) →
        ∀ j < snap.args.n, Memory.read v.mem (snap.args.p + j) = Memory.read t.mem (snap.args.p + j))

/-! ### Recovery -/

/-- R201: REC1 that passes its checks completes without error with output byte `j` the quotient of `Q[j] ^ IQ[j]` by
`ALOG[idx]`, and changes nothing but the output, STATUS and the phase; one that fails them completes with ERR_RANGE or
ERR_ALIAS and changes nothing else. -/
def Obligations.Rec1DividesByTheCoefficient : Prop :=
  decode 0x20 = .ok .rec1 ∧
  ∀ (s : State) (snap : Snapshot), s.phase = .busy snap → Memory.wf s.mem = true → s.tables.Built →
    (¬ ChecksPass s.params .rec1 snap.args →
      exec .rec1 s = .next (s.complete .range) ∨ exec .rec1 s = .next (s.complete .overlap)) ∧
    (ChecksPass s.params .rec1 snap.args → ∃ m, exec .rec1 s = .next ({ s with mem := m }.complete .none) ∧
      (∀ j < snap.args.n, gfDiv s.tables
        (Memory.read s.mem (snap.args.q + j) ^^^ Memory.read s.mem (snap.args.iq + j))
        (s.tables.alogAt snap.args.idx1.toNat) = .ok (Memory.read m (snap.args.out1 + j))) ∧
      (∀ b, ¬ InBuf snap.args.out1 snap.args.n b → Memory.read m b = Memory.read s.mem b))

/-- R202: REC1's coefficient is never 0 and position 255 acts as position 0: REC1 never raises ERR_DOMAIN, and snapshots
that differ only in IDX1 being 255 or 0 end alike. -/
def Obligations.Rec1PositionsNeedNoRangeCheck : Prop :=
  ∀ (s : State) (snap : Snapshot), s.tables.Built →
    s.tables.alogAt snap.args.idx1.toNat ≠ 0 ∧
    (∀ t, s.phase = .busy snap → exec .rec1 s = .next t → t.status.errcode ≠ .domain) ∧
    ∃ t, exec .rec1 { s with phase := .busy { snap with args := { snap.args with idx1 := 255 } } } = .next t ∧
      exec .rec1 { s with phase := .busy { snap with args := { snap.args with idx1 := 0 } } } = .next t

/-- R208: REC2 on distinct positions that passes its checks completes without error with the outputs the solution of
`d1 ^ d2 = dP`, `g1*d1 ^ g2*d2 = dQ`, and changes nothing but the two outputs, STATUS and the phase. -/
def Obligations.Rec2SolvesTheTwoEquations : Prop :=
  ∀ (s : State) (snap : Snapshot), s.phase = .busy snap → Memory.wf s.mem = true → s.tables.Built →
    ChecksPass s.params .rec2 snap.args → snap.args.idx1.toNat % 255 ≠ snap.args.idx2.toNat % 255 →
    ∃ m, exec .rec2 s = .next ({ s with mem := m }.complete .none) ∧
      (∀ j < snap.args.n,
        Memory.read m (snap.args.out1 + j) ^^^ Memory.read m (snap.args.out2 + j) =
          Memory.read s.mem (snap.args.p + j) ^^^ Memory.read s.mem (snap.args.ip + j) ∧
        fieldMul (Memory.read m (snap.args.out1 + j)) (xpow snap.args.idx1.toNat) ^^^
            fieldMul (Memory.read m (snap.args.out2 + j)) (xpow snap.args.idx2.toNat) =
          Memory.read s.mem (snap.args.q + j) ^^^ Memory.read s.mem (snap.args.iq + j)) ∧
      (∀ b, ¬ InBuf snap.args.out1 snap.args.n b → ¬ InBuf snap.args.out2 snap.args.n b →
        Memory.read m b = Memory.read s.mem b)

/-- R206: REC2 that passes its checks raises ERR_DOMAIN exactly when its positions are equal modulo 255, whatever n is, and
then changes nothing but STATUS and the phase. -/
def Obligations.Rec2RejectsEqualPositions : Prop :=
  ∀ (s : State) (snap : Snapshot), s.phase = .busy snap → s.tables.Built → ChecksPass s.params .rec2 snap.args →
    (exec .rec2 s = .next (s.complete .domain) ↔
      snap.args.idx1.toNat = snap.args.idx2.toNat ∨
        (snap.args.idx1.toNat = 0 ∧ snap.args.idx2.toNat = 255) ∨
        (snap.args.idx1.toNat = 255 ∧ snap.args.idx2.toNat = 0)) ∧
    ∀ t, exec .rec2 s = .next t → t.status.errcode = .domain → t = s.complete .domain

/-- R203: with Q the full Q of a stripe and IQ the Q of the stripe without block `k`, REC1 with IDX1 = `k` writes block `k`
to the output. -/
def Obligations.SingleLossIsRecovered : Prop :=
  ∀ (s : State) (snap : Snapshot), s.phase = .busy snap → Memory.wf s.mem = true → s.tables.Built →
    ChecksPass s.params .rec1 snap.args →
    ∀ (w k : Nat) (data : Nat → Nat → Byte), w ≤ 255 → k < w → snap.args.idx1.toNat = k →
    (∀ j < snap.args.n, Memory.read s.mem (snap.args.q + j) =
      xorSum w fun i => fieldMul (data i j) (xpow i)) →
    (∀ j < snap.args.n, Memory.read s.mem (snap.args.iq + j) =
      xorSum w fun i => if i = k then 0 else fieldMul (data i j) (xpow i)) →
    ∃ m, exec .rec1 s = .next ({ s with mem := m }.complete .none) ∧
      ∀ j < snap.args.n, Memory.read m (snap.args.out1 + j) = data k j

/-- R207: with P and Q the full parities of a stripe and IP, IQ those of the stripe without the blocks `k1` and `k2`, REC2
with IDX1 = `k1`, IDX2 = `k2` writes block `k1` to output 1 and block `k2` to output 2, in either order of the positions. -/
def Obligations.DoubleLossIsRecovered : Prop :=
  ∀ (s : State) (snap : Snapshot), s.phase = .busy snap → Memory.wf s.mem = true → s.tables.Built →
    ChecksPass s.params .rec2 snap.args →
    ∀ (w k1 k2 : Nat) (data : Nat → Nat → Byte), w ≤ 255 → k1 < w → k2 < w → k1 ≠ k2 →
    snap.args.idx1.toNat = k1 → snap.args.idx2.toNat = k2 →
    (∀ j < snap.args.n, Memory.read s.mem (snap.args.p + j) = xorSum w fun i => data i j) →
    (∀ j < snap.args.n, Memory.read s.mem (snap.args.ip + j) =
      xorSum w fun i => if i = k1 ∨ i = k2 then 0 else data i j) →
    (∀ j < snap.args.n, Memory.read s.mem (snap.args.q + j) =
      xorSum w fun i => fieldMul (data i j) (xpow i)) →
    (∀ j < snap.args.n, Memory.read s.mem (snap.args.iq + j) =
      xorSum w fun i => if i = k1 ∨ i = k2 then 0 else fieldMul (data i j) (xpow i)) →
    ∃ m, exec .rec2 s = .next ({ s with mem := m }.complete .none) ∧
      (∀ j < snap.args.n, Memory.read m (snap.args.out1 + j) = data k1 j) ∧
      (∀ j < snap.args.n, Memory.read m (snap.args.out2 + j) = data k2 j)

/-! ### Checks, errors and frames -/

/-- R233, R234, R235 in the order of R237: a memory command that fails a check completes with the code of the first check
that fails, and changes nothing else. -/
def Obligations.FailedChecksCompleteInOrder : Prop :=
  ∀ (s : State) (snap : Snapshot) (i : Instr), i ∈ memoryCommands → s.phase = .busy snap →
    (¬ ShapeOk i snap.args → exec i s = .next (s.complete .shape)) ∧
    (ShapeOk i snap.args → ¬ RangeOk s.params i snap.args → exec i s = .next (s.complete .range)) ∧
    (ShapeOk i snap.args → RangeOk s.params i snap.args → ¬ AliasOk s.params i snap.args →
      exec i s = .next (s.complete .overlap))

/-- R238: a command, legal or not, that completes with an error changes nothing but STATUS and the phase. -/
def Obligations.ErrorsArePrecise : Prop :=
  ∀ (s t : State) (snap : Snapshot), s.phase = .busy snap → blockStep s = .next t → t.status.errcode ≠ .none →
    t = { s with
      status := { done := true, err := true, dropped := s.status.dropped, errcode := t.status.errcode }
      phase := .idle }

/-- R137: a scalar command touches no memory, raises no code but ERR_DOMAIN, and writes exactly one result register, WOUT
for DBL and RES for the others, only when it does not raise; all else but STATUS and the phase is unchanged. -/
def Obligations.ScalarCommandsWriteOneResult : Prop :=
  ∀ (s : State) (snap : Snapshot) (i : Instr), i ∈ scalarCommands → s.phase = .busy snap →
    ∃ t, exec i s = .next t ∧
      ((i ≠ .dbl ∧ ∃ r, t = { s with res := r }.complete .none) ∨
        (i = .dbl ∧ ∃ x, t = { s with wout := x }.complete .none) ∨
        ((i = .div ∨ i = .log) ∧ t = s.complete .domain))

/-- R75, the writes: a command changes no byte outside the W and RW regions it names; and beside memory it changes only
RES, WOUT, STATUS and the phase. -/
def Obligations.CommandsWriteOnlyTheirRegions : Prop :=
  ∀ (s t : State) (snap : Snapshot) (i : Instr), s.phase = .busy snap → Memory.wf s.mem = true → exec i s = .next t →
    Memory.wf t.mem = true ∧
    (∀ b, ¬ WrittenBy s.params i snap.args b → Memory.read t.mem b = Memory.read s.mem b) ∧
    t = { s with
      mem := t.mem
      res := t.res
      wout := t.wout
      status := ⟨true, decide (t.status.errcode ≠ .none), s.status.dropped, t.status.errcode⟩
      phase := .idle }

/-- R75, the reads: what a command leaves in STATUS, RES, WOUT and the regions it names does not depend on any byte outside
those regions. -/
def Obligations.CommandsReadOnlyTheirRegions : Prop :=
  ∀ (s : State) (snap : Snapshot) (i : Instr) (m : Memory), s.phase = .busy snap →
    Memory.wf s.mem = true → Memory.wf m = true →
    (∀ b, NamedBy s.params i snap.args b → Memory.read m b = Memory.read s.mem b) →
    ∃ t u : State, exec i s = .next t ∧ exec i { s with mem := m } = .next u ∧
      u.status = t.status ∧ u.res = t.res ∧ u.wout = t.wout ∧
      ∀ b, NamedBy s.params i snap.args b → Memory.read u.mem b = Memory.read t.mem b

/-- R44: an accepted CMD write puts the word and every argument register into the snapshot, which exists only while BUSY; a
command reads its operands only from the snapshot and changes no RW register, so that with other values in the argument
registers it does the same and leaves them as they are; a write of another register leaves the snapshot as it is. -/
def Obligations.CommandsReadOnlyTheSnapshot : Prop :=
  (∀ (s : State) (v : Word), s.phase = .idle → (s.writeReg .cmd v).phase = .busy { cmd := v, args := s.args }) ∧
  (∀ (s : State) (snap : Snapshot) (i : Instr) (a : ArgRegs), s.phase = .busy snap →
    ∃ t, exec i s = .next t ∧ t.phase = .idle ∧ t.args = s.args ∧
      exec i { s with args := a } = .next { t with args := a }) ∧
  (∀ (s : State) (r : Reg) (v : Word), s.phase ≠ .idle ∨ r ≠ .cmd → (s.writeReg r v).phase = s.phase)

/-! ### Registers -/

/-- R24: the bits of the status word. -/
def Obligations.StatusWordHasTheSpecFields : Prop :=
  ∀ s : State,
    s.statusWord.getLsbD 0 = decide (s.phase ≠ .building) ∧
    (s.statusWord.getLsbD 1 = true ↔ ∃ snap, s.phase = .busy snap) ∧
    s.statusWord.getLsbD 2 = s.status.done ∧ s.statusWord.getLsbD 3 = s.status.err ∧
    s.statusWord.getLsbD 4 = s.status.dropped ∧ s.statusWord.extractLsb' 5 3 = 0 ∧
    (s.statusWord.extractLsb' 8 8).toNat = (match s.status.errcode with
      | .none => 0 | .illegal => 1 | .shape => 2 | .range => 3 | .overlap => 4 | .domain => 5) ∧
    s.statusWord.extractLsb' 16 48 = 0

/-- R25: a host write to STATUS clears DROPPED when bit 4 of the value is 1 and has no other effect, in any phase. -/
def Obligations.StatusWriteClearsDropped : Prop :=
  ∀ (s : State) (v : Word), s.writeReg .status v =
    { s with status := { s.status with dropped := if v.getLsbD 4 then false else s.status.dropped } }

/-- R34: a write of a RW register, in any phase, stores its defined bits and drops the others; every other register reads as
before, and nothing but the argument registers changes. A RW register whose reserved bits are 0 reads 0 in them, and every
bit of a word written to CMD is decoded. -/
def Obligations.RwRegistersKeepTheirDefinedBits : Prop :=
  (∀ (s : State) (r : Reg) (k : Nat) (v : Word), rwBits s.params r = some k →
    ((s.writeReg r v).readReg r).toNat = v.toNat % 2 ^ k ∧
    (∀ r', r' ≠ r → (s.writeReg r v).readReg r' = s.readReg r') ∧
    s.writeReg r v = { s with args := (s.writeReg r v).args } ∧
    (s.args.Masked s.params → (s.readReg r).toNat < 2 ^ k ∧ (s.writeReg r v).args.Masked s.params)) ∧
  (∀ (s : State) (v : Word), s.phase = .idle → (s.writeReg .cmd v).phase = .busy { cmd := v, args := s.args }) ∧
  (∀ c : Word, c.toNat / 256 ≠ 0 → ∃ e, decode c = .error e)

/-- R35, R23: ID is the constant, CMD reads 0, unmapped offsets read 0 and ignore writes, and so do the RO registers. -/
def Obligations.ReadOnlyAndUnmappedIgnoreWrites : Prop :=
  ∀ (s : State) (v : Word),
    s.readReg .id = 0x000000000108011D ∧ s.readReg .cmd = 0 ∧
    s.writeReg .id v = s ∧ s.writeReg .res v = s ∧ s.writeReg .wout v = s ∧
    (∀ off, 0xA0 ≤ off → off ≤ 0xF8 → off % 8 = 0 → s.readOffset off = 0 ∧ s.writeOffset off v = s)

/-- R22: a host bus access of 8 bytes at `REG_BASE + off`, `off` a multiple of 8 in [0, 0xF8], reaches the register there;
one of another width or alignment in the window is refused. The access at a register's address is `wr` or `rd` of it (R99).
That no access outside the window answers a next state is log 10 (DEDUCED), not a rule. -/
def Obligations.OnlyAlignedWordAccessesReachRegisters : Prop :=
  ∀ (s : State) (addr bytes : Nat) (v : Word) (n : ValueName),
    (s.params.regBase ≤ addr → addr ≤ s.params.regBase + 0xF8 → (addr - s.params.regBase) % 8 = 0 → bytes = 8 →
      hostStmt (.busWr addr bytes v) s = .next (s.writeOffset (addr - s.params.regBase) v) ∧
      hostStmt (.busRd addr bytes n) s = .next (s.hostSees n (s.readOffset (addr - s.params.regBase)))) ∧
    (s.params.regBase ≤ addr → addr < s.params.regBase + 256 →
      ((addr - s.params.regBase) % 8 ≠ 0 ∨ bytes ≠ 8) →
      hostStmt (.busWr addr bytes v) s = .refused .registerAccess ∧
      hostStmt (.busRd addr bytes n) s = .refused .registerAccess) ∧
    (∀ t, hostStmt (.busWr addr bytes v) s = .next t ∨ hostStmt (.busRd addr bytes n) s = .next t →
      s.params.regBase ≤ addr ∧ addr ≤ s.params.regBase + 0xF8 ∧ (addr - s.params.regBase) % 8 = 0 ∧ bytes = 8) ∧
    (∀ r : Reg, hostStmt (.busWr (s.params.regBase + r.offset) 8 v) s = hostStmt (.wr r v) s ∧
      hostStmt (.busRd (s.params.regBase + r.offset) 8 n) s = hostStmt (.rd r n) s)

/-- R267: a read of a register is always answered and changes nothing of the block; RES and WOUT read as their stored fields,
and whatever step leaves a command in flight leaves both reads as they were, so that a read while BUSY returns what the last
completed command left; and a write of an argument register while BUSY changes that register's own argument and not the
command in flight. -/
def Obligations.RegisterReadsHaveNoSideEffect : Prop :=
  (∀ (s : State) (r : Reg) (n : ValueName), hostStmt (.rd r n) s =
    .next { s with host := { s.host with reads := (n, s.readReg r) :: s.host.reads } }) ∧
  (∀ s : State, s.readReg .res = s.res.setWidth 64 ∧ s.readReg .wout = s.wout) ∧
  (∀ (s t : State) (snap snap' : Snapshot), s.phase = .busy snap → step s = .next t → t.phase = .busy snap' →
    t.readReg .res = s.readReg .res ∧ t.readReg .wout = s.readReg .wout) ∧
  (∀ (s : State) (snap : Snapshot) (r : Reg) (k : Nat) (v : Word), s.phase = .busy snap → rwBits s.params r = some k →
    s.writeReg r v = { s with args := s.args.write s.params r v } ∧ (s.writeReg r v).phase = .busy snap)

/-- R94: when the phase is IDLE, a host write of `v` to CMD copies it and every argument register into the snapshot, clears
DONE, ERR and ERRCODE, makes the phase BUSY, and touches nothing else of the block. -/
def Obligations.CmdWriteWhenIdleIsAccepted : Prop :=
  ∀ (s : State) (v : Word), s.phase = .idle → s.nextTurn = .host → s.host.code[s.host.pc]? = some (.wr .cmd v) →
    step s = .next { s with
      status := { done := false, err := false, dropped := s.status.dropped, errcode := .none }
      phase := .busy { cmd := v, args := s.args }
      host := { s.host with pc := s.host.pc + 1 }
      agenda := s.agenda.tail }

/-- R95: when the phase is BUILDING or BUSY, a host write to CMD changes nothing of the block but DROPPED. -/
def Obligations.CmdWriteOtherwiseIsDropped : Prop :=
  ∀ (s : State) (v : Word), s.phase ≠ .idle → s.nextTurn = .host → s.host.code[s.host.pc]? = some (.wr .cmd v) →
    step s = .next { s with
      status := { s.status with dropped := true }
      host := { s.host with pc := s.host.pc + 1 }
      agenda := s.agenda.tail }

/-! ### Host memory accesses and host programs -/

/-- R74: a host read of an existing byte returns the byte, except that a byte of a W or RW region of the command in flight
returns an unspecified value, a free value of the model (log 4). -/
def Obligations.HostReadsSeeOnlySettledBytes : Prop :=
  ∀ (s : State) (a : Nat) (n : ValueName), a < s.params.memSize →
    ((∀ snap i, s.phase = .busy snap → decode snap.cmd = .ok i → ¬ WrittenBy s.params i snap.args a) →
      hostStmt (.memRd a n) s =
        .next { s with host := { s.host with reads := (n, (Memory.read s.mem a).setWidth 64) :: s.host.reads } }) ∧
    (∀ snap i, s.phase = .busy snap → decode snap.cmd = .ok i → WrittenBy s.params i snap.args a →
      hostStmt (.memRd a n) s = .next { s with
        host := { s.host with reads := (n, (Config.freeByte s.fresh).setWidth 64) :: s.host.reads }
        fresh := s.fresh + 1 })

/-- R265: a write by the host or another agent to a byte of a region of the command in flight is a fault of the run; a host
read of a byte of its W and RW regions returns some value; any other access to an existing byte is free: a write stores it
and changes nothing else of the block, a read returns it. -/
def Obligations.WritesIntoBuffersInFlightFault : Prop :=
  ∀ (s : State) (a : Nat) (v : Byte) (n : ValueName), a < s.params.memSize →
    (∀ snap i, s.phase = .busy snap → decode snap.cmd = .ok i → NamedBy s.params i snap.args a →
      hostStmt (.memWr a v) s = .fault .bufferHazard ∧ takeTurn (.agentWrite a v) s = .fault .bufferHazard) ∧
    (∀ snap i, s.phase = .busy snap → decode snap.cmd = .ok i → WrittenBy s.params i snap.args a →
      ∃ x k, hostStmt (.memRd a n) s =
        .next { s with host := { s.host with reads := (n, x) :: s.host.reads }, fresh := k }) ∧
    ((∀ snap i, s.phase = .busy snap → decode snap.cmd = .ok i → ¬ NamedBy s.params i snap.args a) →
      hostStmt (.memWr a v) s = .next { s with mem := Memory.write s.mem a v } ∧
      takeTurn (.agentWrite a v) s = .next { s with mem := Memory.write s.mem a v } ∧
      hostStmt (.memRd a n) s =
        .next { s with host := { s.host with reads := (n, (Memory.read s.mem a).setWidth 64) :: s.host.reads } })

/-- R101: the polling loop of `waitready` and `wait` reads STATUS and goes back to the read while the bit has the value, else
goes past the loop. -/
def Obligations.PollingLoopRepeatsOnTheBit : Prop :=
  ∀ (s : State) (n : ValueName) (bit : Fin 64) (val : Bool), s.host.code[s.host.pc]? = some (.rd .status n) →
    s.host.code[s.host.pc + 1]? = some (.gotoIf (.bit n bit val) s.host.pc) →
    ∃ t u : State, hostStep s = .next t ∧ hostStep t = .next u ∧
      u = { s with host := { s.host with
        reads := (n, s.statusWord) :: s.host.reads
        pc := if s.statusWord.getLsbD bit.val = val then s.host.pc else s.host.pc + 2 } }

/-! ### Reset and build -/

/-- R260: the state after reset. -/
def Obligations.ResetLeavesTheSpecValues : Prop :=
  State.reset.phase = .building ∧ State.reset.statusWord = 0 ∧
  (∀ r : Reg, State.reset.readReg r = if r = .id then 0x000000000108011D else 0) ∧
  (∀ a, Memory.read State.reset.mem a = Memory.unlisted) ∧ State.reset.params.addrW = 64

/-- R260, R262: a reset in any phase gives the registers, STATUS and the phase their reset values; a command in flight is
abandoned, each existing byte of its W and RW regions taking a free value and every other byte staying; and memory is
unchanged when no command was in flight. The model's own: the form of the free value (log 4), that the parameters, the host
and the agenda stay (log 6, DESIGN CHOICE), and that a word in flight which is illegal names no region, so that memory is
unchanged then too (log 7, DEDUCED). -/
def Obligations.ResetAbandonsTheCommandInFlight : Prop :=
  ∀ s : State, Memory.wf s.mem = true →
    ∃ t, takeTurn .reset s = .next t ∧ t.phase = .building ∧ t.status = Status.zero ∧ t.args = ArgRegs.zero ∧
      t.res = 0 ∧ t.wout = 0 ∧ t.params = s.params ∧ t.host = s.host ∧ t.agenda = s.agenda ∧
      Memory.wf t.mem = true ∧
      ((∀ snap, s.phase ≠ .busy snap) → t.mem = s.mem) ∧
      (∀ snap e, s.phase = .busy snap → decode snap.cmd = .error e → t.mem = s.mem) ∧
      (∀ snap i, s.phase = .busy snap → decode snap.cmd = .ok i → ∀ b,
        (¬ WrittenBy s.params i snap.args b → Memory.read t.mem b = Memory.read s.mem b) ∧
        (WrittenBy s.params i snap.args b → b < s.params.memSize →
          ∃ k, s.fresh ≤ k ∧ k < t.fresh ∧ Memory.read t.mem b = Config.freeByte k))

/-- R261: the block's step while BUILDING builds the tables by the algorithm of R39 and makes the phase IDLE, and changes
nothing else; until then a CMD write is dropped and a write of another register does as in any phase. -/
def Obligations.BuildEndsInIdleWithTables : Prop :=
  (∀ s : State, s.phase = .building → s.nextTurn = .block →
    step s = .next { s with tables := s.tables.pseudoBuild, phase := .idle, agenda := s.agenda.tail } ∧
      s.tables.pseudoBuild.Built) ∧
  (∀ (s : State) (r : Reg) (v : Word), s.phase = .building →
    s.writeReg .cmd v = { s with status := { s.status with dropped := true } } ∧
    (r ≠ .cmd → s.writeReg r v = { { s with phase := .idle }.writeReg r v with phase := .building }))

/-! ### The whole machine -/

/-- R43: the phase changes as the spec lists, by the end of the build, an accepted CMD write, a completion and a reset, and
only so; READY and BUSY show it. -/
def Obligations.PhaseChangesOnlyAsListed : Prop :=
  (∀ s t : State, step s = .next t →
    t.phase = s.phase ∨
    (s.phase = .building ∧ s.nextTurn = .block ∧ t.phase = .idle) ∨
    (s.phase = .idle ∧ s.nextTurn = .host ∧ ∃ v, t.phase = .busy { cmd := v, args := s.args } ∧
      (s.host.code[s.host.pc]? = some (.wr .cmd v) ∨
        s.host.code[s.host.pc]? = some (.busWr (s.params.regBase + 0x10) 8 v))) ∨
    ((∃ snap, s.phase = .busy snap) ∧ s.nextTurn = .block ∧ t.phase = .idle ∧ t.status.done = true) ∨
    (s.nextTurn = .reset ∧ t.phase = .building)) ∧
  (∀ s : State, s.phase ≠ .idle → s.nextTurn = .block → ∃ t, step s = .next t ∧ t.phase = .idle) ∧
  (∀ (s : State) (v : Word), s.phase = .idle → s.nextTurn = .host → s.host.code[s.host.pc]? = some (.wr .cmd v) →
    ∃ t, step s = .next t ∧ t.phase = .busy { cmd := v, args := s.args }) ∧
  (∀ s : State, s.nextTurn = .reset → ∃ t, step s = .next t ∧ t.phase = .building) ∧
  (∀ s : State, (s.statusWord.getLsbD 0 = true ↔ s.phase ≠ .building) ∧
    (s.statusWord.getLsbD 1 = true ↔ ∃ snap, s.phase = .busy snap))

/-- R42: no command and no access by an agent writes the tables; only the end of the build and a reset do, and every build
gives the same contents, LOG[0] apart, which no build writes (R40). -/
def Obligations.TablesChangeOnlyByBuildOrReset : Prop :=
  (∀ s t : State, step s = .next t → t.tables ≠ s.tables →
    s.nextTurn = .reset ∨ (s.nextTurn = .block ∧ s.phase = .building ∧ t.phase = .idle)) ∧
  (∀ t u : Tables, (∀ e < 512, t.build.alogAt e = u.build.alogAt e) ∧
    ∀ a : Byte, a ≠ 0 → t.build.logAt a = u.build.logAt a)

/-- R28, R29: between resets, RES changes only in the step in which a scalar command other than DBL completes without error,
and WOUT only in the step in which DBL does. -/
def Obligations.ResultRegistersChangeOnlyByTheirCommands : Prop :=
  ∀ s t : State, step s = .next t → s.nextTurn ≠ .reset →
    (t.res ≠ s.res → CompletesWithoutError s t [.add, .sub, .mul, .div, .log, .alog]) ∧
    (t.wout ≠ s.wout → CompletesWithoutError s t [.dbl])

/-- R268: a command in flight does not stay so: within one step more than the agenda is long it has completed, or been
abandoned by a reset, or the run has stopped. -/
def Obligations.CommandsEndWithinTheAgenda : Prop :=
  ∀ (s : State) (snap : Snapshot), s.phase = .busy snap →
    ∃ k ≤ s.agenda.length + 1,
      (∃ t, Sys2Proof.core.run k s = .next t ∧ t.phase = .idle ∧ t.status.done = true) ∨
      (∃ t, Sys2Proof.core.run k s = .next t ∧ t.phase = .building) ∨
      (∃ f, Sys2Proof.core.run k s = .fault f) ∨ (∃ r, Sys2Proof.core.run k s = .refused r)

/-- The invariant of the machine, kept by every step from every state that has it: memory canonical and inside the space,
reserved address bits 0, tables built once BUILDING is over, ERR and ERRCODE agreeing, and DONE, ERR and ERRCODE 0 while
BUSY. -/
def Obligations.EveryStepKeepsTheInvariant : Prop := ∀ s t : State, s.Inv → step s = .next t → t.Inv

/-- The state after reset has the invariant. -/
def Obligations.ResetHasTheInvariant : Prop := State.reset.Inv

/-! ### The encoding of host programs -/

/-- R99, R101: a read names its value; the name stands for that value until the next read under the same name, whatever is
read under other names; and a goto goes to its target exactly when its condition holds of the named values, and otherwise
does nothing. The form of a condition, and 0 for a name no read has used, are log 9 (DESIGN CHOICE). -/
def Obligations.ConditionsSeeEveryNamedValue : Prop :=
  (∀ (s t : State) (x : HostStmt) (n : ValueName), hostStmt x s = .next t →
    (∀ r, x = .rd r n → valueNamed t.host.reads n = s.readReg r) ∧
    ((∀ r, x ≠ .rd r n) → (∀ a b, x ≠ .busRd a b n) → (∀ a, x ≠ .memRd a n) →
      valueNamed t.host.reads n = valueNamed s.host.reads n)) ∧
  (∀ (s : State) (c : Cond) (target : Nat), hostStmt (.gotoIf c target) s =
    .next { s with host := { s.host with pc := if Cond.holds s.host.reads c then target else s.host.pc } }) ∧
  (∀ (reads : List (ValueName × Word)) (n : ValueName) (k : Fin 64) (val : Bool),
    Cond.holds reads (.bit n k val) = true ↔ (valueNamed reads n).getLsbD k.val = val) ∧
  (∀ (reads : List (ValueName × Word)) (n : ValueName) (hi lo : Fin 64) (v : Nat),
    Cond.holds reads (.field n hi lo v) = true ↔
      ((valueNamed reads n).extractLsb' lo.val (hi.val + 1 - lo.val)).toNat = v)

/-- R99: a program's encoding is its list of bus transactions. Over any run of a program without gotos, the transactions that
the run makes are, in order, those of the statements the host has passed. -/
def Obligations.RunsPutTheListingOnTheBus : Prop :=
  ∀ (k : Nat) (s t : State), (∀ x ∈ s.host.code, ∀ c l, x ≠ .gotoIf c l) → s.host.pc ≤ s.host.code.length →
    Sys2Proof.core.run k s = .next t →
    s.host.pc ≤ t.host.pc ∧ t.host.pc ≤ s.host.code.length ∧
    runTxns k s = listedTxns s.params ((s.host.code.drop s.host.pc).take (t.host.pc - s.host.pc))
end

