-- ==== Sys2Proof/Laws/State.lean ====
section
/-! SUPPORT. One lemma per field for each update of the state, true by rfl, so that no proof unfolds a record update. -/

namespace Sys2Proof.Machine

variable (s : State)

/-! ### `State.complete`: the end of a command (R230) -/

@[simp] theorem State.complete_params (e : ErrCode) : (s.complete e).params = s.params := rfl
@[simp] theorem State.complete_args (e : ErrCode) : (s.complete e).args = s.args := rfl
@[simp] theorem State.complete_res (e : ErrCode) : (s.complete e).res = s.res := rfl
@[simp] theorem State.complete_wout (e : ErrCode) : (s.complete e).wout = s.wout := rfl
@[simp] theorem State.complete_status (e : ErrCode) : (s.complete e).status = s.status.completed e := rfl
@[simp] theorem State.complete_tables (e : ErrCode) : (s.complete e).tables = s.tables := rfl
@[simp] theorem State.complete_phase (e : ErrCode) : (s.complete e).phase = .idle := rfl
@[simp] theorem State.complete_mem (e : ErrCode) : (s.complete e).mem = s.mem := rfl
@[simp] theorem State.complete_host (e : ErrCode) : (s.complete e).host = s.host := rfl
@[simp] theorem State.complete_agenda (e : ErrCode) : (s.complete e).agenda = s.agenda := rfl
@[simp] theorem State.complete_fresh (e : ErrCode) : (s.complete e).fresh = s.fresh := rfl

/-! ### `State.accept`: an accepted CMD write (R94) -/

@[simp] theorem State.accept_params (v : Word) : (s.accept v).params = s.params := rfl
@[simp] theorem State.accept_args (v : Word) : (s.accept v).args = s.args := rfl
@[simp] theorem State.accept_res (v : Word) : (s.accept v).res = s.res := rfl
@[simp] theorem State.accept_wout (v : Word) : (s.accept v).wout = s.wout := rfl
@[simp] theorem State.accept_status (v : Word) : (s.accept v).status = s.status.accepted := rfl
@[simp] theorem State.accept_tables (v : Word) : (s.accept v).tables = s.tables := rfl
@[simp] theorem State.accept_phase (v : Word) : (s.accept v).phase = .busy { cmd := v, args := s.args } := rfl
@[simp] theorem State.accept_mem (v : Word) : (s.accept v).mem = s.mem := rfl
@[simp] theorem State.accept_host (v : Word) : (s.accept v).host = s.host := rfl
@[simp] theorem State.accept_agenda (v : Word) : (s.accept v).agenda = s.agenda := rfl
@[simp] theorem State.accept_fresh (v : Word) : (s.accept v).fresh = s.fresh := rfl

/-! ### `State.drop`: a dropped CMD write (R95) -/

@[simp] theorem State.drop_params : (s.drop).params = s.params := rfl
@[simp] theorem State.drop_args : (s.drop).args = s.args := rfl
@[simp] theorem State.drop_res : (s.drop).res = s.res := rfl
@[simp] theorem State.drop_wout : (s.drop).wout = s.wout := rfl
@[simp] theorem State.drop_status : (s.drop).status = s.status.withDrop := rfl
@[simp] theorem State.drop_tables : (s.drop).tables = s.tables := rfl
@[simp] theorem State.drop_phase : (s.drop).phase = s.phase := rfl
@[simp] theorem State.drop_mem : (s.drop).mem = s.mem := rfl
@[simp] theorem State.drop_host : (s.drop).host = s.host := rfl
@[simp] theorem State.drop_agenda : (s.drop).agenda = s.agenda := rfl
@[simp] theorem State.drop_fresh : (s.drop).fresh = s.fresh := rfl

/-! ### `State.endBuild`: the end of the build (R261) -/

@[simp] theorem State.endBuild_params : (s.endBuild).params = s.params := rfl
@[simp] theorem State.endBuild_args : (s.endBuild).args = s.args := rfl
@[simp] theorem State.endBuild_res : (s.endBuild).res = s.res := rfl
@[simp] theorem State.endBuild_wout : (s.endBuild).wout = s.wout := rfl
@[simp] theorem State.endBuild_status : (s.endBuild).status = s.status := rfl
@[simp] theorem State.endBuild_tables : (s.endBuild).tables = s.tables.build := rfl
@[simp] theorem State.endBuild_phase : (s.endBuild).phase = .idle := rfl
@[simp] theorem State.endBuild_mem : (s.endBuild).mem = s.mem := rfl
@[simp] theorem State.endBuild_host : (s.endBuild).host = s.host := rfl
@[simp] theorem State.endBuild_agenda : (s.endBuild).agenda = s.agenda := rfl
@[simp] theorem State.endBuild_fresh : (s.endBuild).fresh = s.fresh := rfl

/-! ### `State.popTurn`: a turn taken off the agenda -/

@[simp] theorem State.popTurn_params : (s.popTurn).params = s.params := rfl
@[simp] theorem State.popTurn_args : (s.popTurn).args = s.args := rfl
@[simp] theorem State.popTurn_res : (s.popTurn).res = s.res := rfl
@[simp] theorem State.popTurn_wout : (s.popTurn).wout = s.wout := rfl
@[simp] theorem State.popTurn_status : (s.popTurn).status = s.status := rfl
@[simp] theorem State.popTurn_tables : (s.popTurn).tables = s.tables := rfl
@[simp] theorem State.popTurn_phase : (s.popTurn).phase = s.phase := rfl
@[simp] theorem State.popTurn_mem : (s.popTurn).mem = s.mem := rfl
@[simp] theorem State.popTurn_host : (s.popTurn).host = s.host := rfl
@[simp] theorem State.popTurn_agenda : (s.popTurn).agenda = s.agenda.tail := rfl
@[simp] theorem State.popTurn_fresh : (s.popTurn).fresh = s.fresh := rfl

/-! ### `State.advanceHost`: the host past its statement -/

@[simp] theorem State.advanceHost_params : (s.advanceHost).params = s.params := rfl
@[simp] theorem State.advanceHost_args : (s.advanceHost).args = s.args := rfl
@[simp] theorem State.advanceHost_res : (s.advanceHost).res = s.res := rfl
@[simp] theorem State.advanceHost_wout : (s.advanceHost).wout = s.wout := rfl
@[simp] theorem State.advanceHost_status : (s.advanceHost).status = s.status := rfl
@[simp] theorem State.advanceHost_tables : (s.advanceHost).tables = s.tables := rfl
@[simp] theorem State.advanceHost_phase : (s.advanceHost).phase = s.phase := rfl
@[simp] theorem State.advanceHost_mem : (s.advanceHost).mem = s.mem := rfl
@[simp] theorem State.advanceHost_host : (s.advanceHost).host = { s.host with pc := s.host.pc + 1 } := rfl
@[simp] theorem State.advanceHost_agenda : (s.advanceHost).agenda = s.agenda := rfl
@[simp] theorem State.advanceHost_fresh : (s.advanceHost).fresh = s.fresh := rfl

/-! ### `State.hostSees`: a value a host read returned -/

@[simp] theorem State.hostSees_params (n : ValueName) (v : Word) : (s.hostSees n v).params = s.params := rfl
@[simp] theorem State.hostSees_args (n : ValueName) (v : Word) : (s.hostSees n v).args = s.args := rfl
@[simp] theorem State.hostSees_res (n : ValueName) (v : Word) : (s.hostSees n v).res = s.res := rfl
@[simp] theorem State.hostSees_wout (n : ValueName) (v : Word) : (s.hostSees n v).wout = s.wout := rfl
@[simp] theorem State.hostSees_status (n : ValueName) (v : Word) : (s.hostSees n v).status = s.status := rfl
@[simp] theorem State.hostSees_tables (n : ValueName) (v : Word) : (s.hostSees n v).tables = s.tables := rfl
@[simp] theorem State.hostSees_phase (n : ValueName) (v : Word) : (s.hostSees n v).phase = s.phase := rfl
@[simp] theorem State.hostSees_mem (n : ValueName) (v : Word) : (s.hostSees n v).mem = s.mem := rfl
@[simp] theorem State.hostSees_host (n : ValueName) (v : Word) :
    (s.hostSees n v).host = { s.host with reads := (n, v) :: s.host.reads } := rfl
@[simp] theorem State.hostSees_agenda (n : ValueName) (v : Word) : (s.hostSees n v).agenda = s.agenda := rfl
@[simp] theorem State.hostSees_fresh (n : ValueName) (v : Word) : (s.hostSees n v).fresh = s.fresh := rfl

/-! ### STATUS's stored bits -/

variable (t : Status)

@[simp] theorem Status.completed_done (e : ErrCode) : (t.completed e).done = true := rfl
@[simp] theorem Status.completed_err (e : ErrCode) : (t.completed e).err = decide (e ≠ .none) := rfl
@[simp] theorem Status.completed_errcode (e : ErrCode) : (t.completed e).errcode = e := rfl
@[simp] theorem Status.completed_dropped (e : ErrCode) : (t.completed e).dropped = t.dropped := rfl
@[simp] theorem Status.accepted_done : t.accepted.done = false := rfl
@[simp] theorem Status.accepted_err : t.accepted.err = false := rfl
@[simp] theorem Status.accepted_errcode : t.accepted.errcode = .none := rfl
@[simp] theorem Status.accepted_dropped : t.accepted.dropped = t.dropped := rfl
@[simp] theorem Status.withDrop_done : t.withDrop.done = t.done := rfl
@[simp] theorem Status.withDrop_err : t.withDrop.err = t.err := rfl
@[simp] theorem Status.withDrop_errcode : t.withDrop.errcode = t.errcode := rfl
@[simp] theorem Status.withDrop_dropped : t.withDrop.dropped = true := rfl

/-- A STATUS write changes DROPPED alone, and sets nothing (R25). -/
theorem Status.write_fields (v : Word) :
    (t.write v).done = t.done ∧ (t.write v).err = t.err ∧ (t.write v).errcode = t.errcode ∧
      (t.write v).dropped = (t.dropped && !v.getLsbD 4) := by
  unfold Status.write
  split <;> simp_all

/-- What a host write of a register may change: the arguments, or STATUS and the phase through CMD and STATUS. -/
theorem State.writeReg_cases (r : Reg) (v : Word) :
    (s.writeReg r v = { s with args := s.args.write s.params r v }) ∨
      (r = .status ∧ s.writeReg r v = { s with status := s.status.write v }) ∨
      (r = .cmd ∧ s.phase = .idle ∧ s.writeReg r v = s.accept v) ∨
      (r = .cmd ∧ s.phase ≠ .idle ∧ s.writeReg r v = s.drop) := by
  cases r <;> simp [State.writeReg, ArgRegs.write, State.writeCmd]
  cases s.phase <;> simp

/-! ### The host's named values and conditions (R99, R101) -/

variable (reads : List (ValueName × Word))

@[simp] theorem valueNamed_same (n : ValueName) (v : Word) : valueNamed ((n, v) :: reads) n = v := by simp [valueNamed]

/-- A read under another name leaves the value of a name (R99). -/
theorem valueNamed_other {m n : ValueName} (h : m ≠ n) (v : Word) :
    valueNamed ((m, v) :: reads) n = valueNamed reads n := by simp [valueNamed, h]

/-- The condition of R101's loops tests one bit of the named value. -/
theorem Cond.holds_bit (n : ValueName) (k : Fin 64) (val : Bool) :
    Cond.holds reads (.bit n k val) = decide ((valueNamed reads n).getLsbD k.val = val) := by
  have bit : (valueNamed reads n).getLsbD k.val = decide ((valueNamed reads n).toNat / 2 ^ k.val % 2 = 1) := by
    rw [BitVec.getLsbD, Nat.testBit_eq_decide_div_mod_eq]
  simp only [Cond.bit, Cond.holds, bit, Nat.add_sub_cancel_left, Nat.pow_one]
  cases val <;> simp

end Sys2Proof.Machine
end

