-- ==== Sys2Proof/Laws/Memory.lean ====
section
/-! SUPPORT. Loops and memory: the rules of the loops, read after write, that every operation keeps memory's canonical form,
and that two canonical memories with the same bytes are equal. -/

namespace Sys2Proof.Machine

/-! ### Loops -/

/-- The invariant rule of `for i in [0, b)`. -/
theorem forUp_rule {α : Type} {f : Nat → α → α} (I : Nat → α → Prop) {x : α} (b : Nat) (start : I 0 x)
    (round : ∀ k < b, ∀ y, I k y → I (k + 1) (f k y)) : I b (forUp b f x) := by
  induction b with
  | zero => exact start
  | succ k ih => exact round k (by omega) _ (ih fun j hj => round j (by omega))

/-- The invariant rule of `for i in [b-1 downto 0]`; `I k` holds when the next index is `k - 1`. -/
theorem forDown_rule {α : Type} {f : Nat → α → α} (I : Nat → α → Prop) (b : Nat) :
    ∀ {x : α}, I b x → (∀ k < b, ∀ y, I (k + 1) y → I k (f k y)) → I 0 (forDown b f x) := by
  induction b with
  | zero => intro x start _; exact start
  | succ k ih => intro x start round; exact ih (round k (by omega) x start) fun j hj => round j (by omega)

/-- A loop whose body never raises in the states it reaches never raises, and the invariant rule holds of it. -/
theorem forUpRaise_rule {α : Type} {f : Nat → α → Except ErrCode α} (I : Nat → α → Prop) {x : α} (b : Nat) (start : I 0 x)
    (round : ∀ k < b, ∀ y, I k y → ∃ z, f k y = .ok z ∧ I (k + 1) z) : ∃ z, forUpRaise b f x = .ok z ∧ I b z := by
  induction b with
  | zero => exact ⟨x, rfl, start⟩
  | succ k ih =>
    obtain ⟨y, hy, iy⟩ := ih fun j hj => round j (by omega)
    obtain ⟨z, hz, iz⟩ := round k (by omega) y iy
    exact ⟨z, by simp [forUpRaise, hy, hz], iz⟩

/-- A raise of a loop is a raise of one of its rounds. -/
theorem forUpRaise_error {α : Type} {f : Nat → α → Except ErrCode α} {x : α} {b : Nat} {e : ErrCode}
    (h : forUpRaise b f x = .error e) : ∃ k < b, ∃ y, f k y = .error e := by
  induction b with
  | zero => simp [forUpRaise] at h
  | succ k ih =>
    unfold forUpRaise at h
    split at h
    · exact ⟨k, by omega, _, h⟩
    · next e' he =>
      cases h
      obtain ⟨j, hj, y, hy⟩ := ih he
      exact ⟨j, by omega, y, hy⟩

/-! ### Bytes -/

/-- The canonical form from an address holds from every lower one. -/
theorem Memory.wfFrom_mono {m : Memory} {lo lo' : Nat} (h : Memory.wfFrom lo m = true) (le : lo' ≤ lo) :
    Memory.wfFrom lo' m = true := by
  cases m with
  | nil => rfl
  | cons c rest =>
    obtain ⟨a, v⟩ := c
    simp only [Memory.wfFrom, Bool.and_eq_true, decide_eq_true_eq] at h ⊢
    exact ⟨⟨by omega, h.1.2⟩, h.2⟩

/-- A canonical memory from `lo` lists nothing below `lo`. -/
theorem Memory.read_below {m : Memory} : ∀ {lo a : Nat}, Memory.wfFrom lo m = true → a < lo →
    Memory.read m a = Memory.unlisted := by
  induction m with
  | nil => intro lo a _ _; rfl
  | cons c rest ih =>
    obtain ⟨b, v⟩ := c
    intro lo a h lt
    simp only [Memory.wfFrom, Bool.and_eq_true, decide_eq_true_eq] at h
    have hb : a ≠ b := by omega
    simp only [Memory.read, if_neg hb]
    exact ih h.2 (by omega)

/-- A write keeps the canonical form from `lo` when it is not below `lo`. -/
theorem Memory.wfFrom_write {m : Memory} (a : Nat) (v : Byte) : ∀ {lo : Nat}, Memory.wfFrom lo m = true → lo ≤ a →
    Memory.wfFrom lo (Memory.write m a v) = true := by
  induction m with
  | nil =>
    intro lo _ le
    by_cases hv : v = Memory.unlisted <;> simp [Memory.write, Memory.wfFrom, hv, le]
  | cons c rest ih =>
    obtain ⟨b, u⟩ := c
    intro lo h le
    have h0 := h
    simp only [Memory.wfFrom, Bool.and_eq_true, decide_eq_true_eq] at h
    unfold Memory.write
    split
    · next lt =>
      split
      · exact h0
      · next hv => simp [Memory.wfFrom, le, hv, h.1.2, h.2]; omega
    · split
      · next nlt eq =>
        subst eq
        split
        · exact Memory.wfFrom_mono h.2 (by omega)
        · next hv => simp [Memory.wfFrom, le, hv, h.2]
      · next nlt ne =>
        have := ih h.2 (show b + 1 ≤ a by omega)
        simp [Memory.wfFrom, h.1.1, h.1.2, this]

/-- A write keeps the canonical form. -/
theorem Memory.wf_write {m : Memory} (a : Nat) (v : Byte) (h : Memory.wf m = true) :
    Memory.wf (Memory.write m a v) = true := Memory.wfFrom_write a v h (by omega)

/-- Read after write, in a memory canonical from `lo`. -/
theorem Memory.read_write_from {m : Memory} (a : Nat) (v : Byte) (b : Nat) : ∀ {lo : Nat}, Memory.wfFrom lo m = true →
    Memory.read (Memory.write m a v) b = if b = a then v else Memory.read m b := by
  induction m with
  | nil =>
    intro lo _
    by_cases hv : v = Memory.unlisted <;> simp [Memory.write, Memory.read, hv]
  | cons c rest ih =>
    obtain ⟨x, u⟩ := c
    intro lo h
    simp only [Memory.wfFrom, Bool.and_eq_true, decide_eq_true_eq] at h
    unfold Memory.write
    split
    · next lt =>
      split
      · next hv =>
        split
        · next eq =>
          subst eq
          rw [hv, Memory.read, if_neg (by omega)]
          exact Memory.read_below h.2 (by omega)
        · rfl
      · simp [Memory.read]
    · split
      · next nlt eq =>
        subst eq
        split
        · next hv =>
          split
          · next eq => rw [hv, eq]; exact Memory.read_below h.2 (by omega)
          · next ne => simp [Memory.read, ne]
        · by_cases eq : b = a <;> simp [Memory.read, eq]
      · next nlt ne =>
        simp only [Memory.read]
        by_cases eq : b = x
        · simp [eq, show x ≠ a by omega]
        · simp [eq, ih h.2]

/-- Read after write: the byte written, and every other byte as before. -/
theorem Memory.read_write {m : Memory} (h : Memory.wf m = true) (a : Nat) (v : Byte) (b : Nat) :
    Memory.read (Memory.write m a v) b = if b = a then v else Memory.read m b := Memory.read_write_from a v b h

/-- A write inside the space keeps every listed byte inside it. -/
theorem Memory.within_write {m : Memory} {size a : Nat} (v : Byte) (h : Memory.Within size m) (lt : a < size) :
    Memory.Within size (Memory.write m a v) := by
  induction m with
  | nil =>
    intro c hc
    by_cases hv : v = Memory.unlisted <;> simp [Memory.write, hv] at hc
    subst hc; exact lt
  | cons c rest ih =>
    obtain ⟨x, u⟩ := c
    have hr : Memory.Within size rest := fun c hc => h c (by simp [hc])
    have hx : x < size := h (x, u) (by simp)
    intro c hc
    unfold Memory.write at hc
    split at hc
    · split at hc
      · exact h c hc
      · rcases List.mem_cons.1 hc with rfl | hc
        · exact lt
        · exact h c hc
    · split at hc
      · split at hc
        · exact hr c hc
        · rcases List.mem_cons.1 hc with rfl | hc
          · exact lt
          · exact hr c hc
      · rcases List.mem_cons.1 hc with rfl | hc
        · exact hx
        · exact ih hr c hc

/-- Two memories canonical from `lo` that read alike are equal. -/
theorem Memory.ext_from {m : Memory} : ∀ {m' : Memory} {lo : Nat}, Memory.wfFrom lo m = true → Memory.wfFrom lo m' = true →
    (∀ a, Memory.read m a = Memory.read m' a) → m = m' := by
  induction m with
  | nil =>
    intro m' lo _ h' same
    cases m' with
    | nil => rfl
    | cons c rest =>
      obtain ⟨b, v⟩ := c
      simp only [Memory.wfFrom, Bool.and_eq_true, decide_eq_true_eq] at h'
      have := same b
      simp [Memory.read] at this
      exact absurd this.symm h'.1.2
  | cons c rest ih =>
    obtain ⟨b, v⟩ := c
    intro m' lo h h' same
    simp only [Memory.wfFrom, Bool.and_eq_true, decide_eq_true_eq] at h
    cases m' with
    | nil =>
      have := same b
      simp [Memory.read] at this
      exact absurd this h.1.2
    | cons c' rest' =>
      obtain ⟨b', v'⟩ := c'
      simp only [Memory.wfFrom, Bool.and_eq_true, decide_eq_true_eq] at h'
      have eq : b = b' := by
        rcases Nat.lt_trichotomy b b' with lt | eq | lt
        · have := same b
          rw [Memory.read, if_pos rfl, Memory.read, if_neg (by omega), Memory.read_below h'.2 (by omega)] at this
          exact absurd this h.1.2
        · exact eq
        · have := same b'
          rw [Memory.read, if_neg (by omega), Memory.read_below h.2 (by omega), Memory.read, if_pos rfl] at this
          exact absurd this.symm h'.1.2
      subst eq
      have hv : v = v' := by simpa [Memory.read] using same b
      subst hv
      have : rest = rest' := by
        refine ih h.2 h'.2 fun a => ?_
        by_cases lt : a < b + 1
        · rw [Memory.read_below h.2 lt, Memory.read_below h'.2 lt]
        · have := same a
          simpa [Memory.read, show a ≠ b by omega] using this
      rw [this]

/-- Two canonical memories that read alike are equal data. -/
theorem Memory.ext {m m' : Memory} (h : Memory.wf m = true) (h' : Memory.wf m' = true)
    (same : ∀ a, Memory.read m a = Memory.read m' a) : m = m' := Memory.ext_from h h' same

/-! ### Words -/

/-- The number read at `a` is below `256^n`. -/
theorem Memory.readLE_lt (m : Memory) (n : Nat) : ∀ a, Memory.readLE m a n < 256 ^ n := by
  induction n with
  | zero => intro a; simp [Memory.readLE]
  | succ k ih =>
    intro a
    have := ih (a + 1)
    have hb := (Memory.read m a).isLt
    simp only [Memory.readLE, Nat.pow_succ]
    omega

/-- Byte `k` of the number read at `a` is the byte at `a + k` (R62). -/
theorem Memory.readLE_byte (m : Memory) (n : Nat) : ∀ a k, k < n →
    Memory.readLE m a n / 256 ^ k % 256 = (Memory.read m (a + k)).toNat := by
  induction n with
  | zero => intro a k h; omega
  | succ j ih =>
    intro a k h
    have hb := (Memory.read m a).isLt
    cases k with
    | zero => simp only [Memory.readLE, Nat.pow_zero, Nat.div_one, Nat.add_zero]; omega
    | succ k =>
      have := ih (a + 1) k (by omega)
      have e : Memory.readLE m a (j + 1) / 256 ^ (k + 1) = Memory.readLE m (a + 1) j / 256 ^ k := by
        rw [Nat.pow_succ', ← Nat.div_div_eq_div_mul]
        congr 1
        simp only [Memory.readLE]
        omega
      rw [e, this]
      congr 2
      omega

/-- Lane `k` of what MemRead reads at `a` is the byte at `a + k` (R61, R62). -/
theorem laneOf_memRead (m : Memory) (a n k : Nat) (h : k < n) : laneOf k (memRead m a n) = Memory.read m (a + k) := by
  apply BitVec.eq_of_toNat_eq
  have lt := Memory.readLE_lt m n a
  have e : (2 : Nat) ^ (8 * n) = 256 ^ n := by rw [Nat.pow_mul]
  have e' : (2 : Nat) ^ (8 * k) = 256 ^ k := by rw [Nat.pow_mul]
  simp only [laneOf, memRead, BitVec.extractLsb'_toNat, BitVec.toNat_ofNat, Nat.shiftRight_eq_div_pow]
  rw [e, e', Nat.mod_eq_of_lt lt]
  exact Memory.readLE_byte m n a k h

/-- Lanes are taken bit by bit, so XOR is lane-wise (R63). -/
theorem laneOf_xor (k : Nat) (x y : Word) : laneOf k (x ^^^ y) = laneOf k x ^^^ laneOf k y := by
  simp [laneOf, BitVec.extractLsb'_xor]

/-- MemWrite keeps the canonical form. -/
theorem wf_memWrite {m : Memory} (a n : Nat) (v : BitVec (8 * n)) (h : Memory.wf m = true) :
    Memory.wf (memWrite m a n v) = true :=
  forUp_rule (fun _ m => Memory.wf m = true) n h fun k _ _ hm => Memory.wf_write (a + k) (laneOf k v) hm

/-- Read after MemWrite: the byte at `a + k` is lane `k`, every other byte as before (R61). -/
theorem read_memWrite {m : Memory} (a n : Nat) (v : BitVec (8 * n)) (h : Memory.wf m = true) (b : Nat) :
    Memory.read (memWrite m a n v) b = if a ≤ b ∧ b < a + n then laneOf (b - a) v else Memory.read m b := by
  have := forUp_rule (f := fun k m => Memory.write m (a + k) (laneOf k v))
    (fun k m' => Memory.wf m' = true ∧
      Memory.read m' b = if a ≤ b ∧ b < a + k then laneOf (b - a) v else Memory.read m b) (x := m) n
    ⟨h, by simp⟩ (by
      rintro k hk m' ⟨hm, hr⟩
      refine ⟨Memory.wf_write _ _ hm, ?_⟩
      rw [Memory.read_write hm, hr]
      by_cases e : b = a + k
      · subst e
        rw [if_pos rfl, if_pos ⟨by omega, by omega⟩]
        congr 1
        omega
      · rw [if_neg e]
        by_cases c : a ≤ b ∧ b < a + k
        · rw [if_pos c, if_pos ⟨by omega, by omega⟩]
        · rw [if_neg c, if_neg (by omega)])
  exact this.2

/-- MemWrite inside the space keeps every listed byte inside it. -/
theorem within_memWrite {m : Memory} {size : Nat} (a n : Nat) (v : BitVec (8 * n)) (h : Memory.Within size m)
    (le : a + n ≤ size) : Memory.Within size (memWrite m a n v) :=
  forUp_rule (fun _ m => Memory.Within size m) n h fun _ hk _ hm => Memory.within_write _ hm (by omega)

/-- Read after a word is stored in a buffer: byte `j` of word `t` is lane `j mod 8`, every other byte as before (R72). -/
theorem read_setBufWord {m : Memory} (base t : Nat) (v : Word) (h : Memory.wf m = true) (b : Nat) :
    Memory.read (setBufWord base m t v) b =
      if base + 8 * t ≤ b ∧ b < base + 8 * t + 8 then laneOf (b - (base + 8 * t)) v else Memory.read m b :=
  read_memWrite (base + 8 * t) 8 v h b

/-- Storing a word in a buffer keeps the canonical form. -/
theorem wf_setBufWord {m : Memory} (base t : Nat) (v : Word) (h : Memory.wf m = true) :
    Memory.wf (setBufWord base m t v) = true := wf_memWrite _ 8 v h

/-- Lane `k` of word `t` of a buffer is its byte `8t + k` (R72). -/
theorem laneOf_bufWord (base : Nat) (m : Memory) (t k : Nat) (h : k < 8) :
    laneOf k (bufWord base m t) = Memory.read m (base + 8 * t + k) := laneOf_memRead m _ 8 k h

/-- Lane `k` of word `t` of data block `i` is its byte `8t + k` (R71, R72). -/
theorem laneOf_dataWord (a : ArgRegs) (m : Memory) (i t k : Nat) (h : k < 8) :
    laneOf k (dataWord a m i t) = Memory.read m (a.d + i * a.n + 8 * t + k) := laneOf_memRead m _ 8 k h

/-! ### The start memory of a host program (R99) -/

/-- Putting bytes in a space keeps whatever writes inside the space keep. -/
theorem Memory.place_keeps {K : Memory → Prop} {size : Nat} (keep : ∀ m a v, K m → a < size → K (Memory.write m a v))
    (bs : List Byte) : ∀ {m : Memory} (a : Nat), K m → K (Memory.place size m a bs) := by
  induction bs with
  | nil => intro m a h; exact h
  | cons b rest ih =>
    intro m a h
    refine ih (a + 1) ?_
    split
    · next lt => exact keep m a b h lt
    · exact h

/-- The `mem` lines of a program keep whatever writes inside the space keep, wherever they point. -/
theorem startMemory_keeps {K : Memory → Prop} {p : Params} (keep : ∀ m a v, K m → a < p.memSize → K (Memory.write m a v))
    (lines : List SrcLine) : ∀ {m : Memory}, K m → K (startMemory p lines m) := by
  induction lines with
  | nil => intro m h; exact h
  | cons x rest ih =>
    intro m h
    cases x with
    | mem a bs => exact ih (Memory.place_keeps keep bs a h)
    | stmt t => exact ih h
    | pseudo q => exact ih h
    | label l => exact ih h
    | branch c l => exact ih h

/-- The start memory is canonical and inside the space (R60, log 25). -/
theorem startMemory_ok (p : Params) (lines : List SrcLine) {m : Memory}
    (h : Memory.wf m = true ∧ Memory.Within p.memSize m) :
    Memory.wf (startMemory p lines m) = true ∧ Memory.Within p.memSize (startMemory p lines m) :=
  startMemory_keeps (K := fun m => Memory.wf m = true ∧ Memory.Within p.memSize m)
    (fun _ a v h lt => ⟨Memory.wf_write a v h.1, Memory.within_write v h.2 lt⟩) lines h

end Sys2Proof.Machine
end

