-- ==== Sys2Proof/Laws/Tables.lean ====
section
/-! SUPPORT. The powers of 2 in the field, and that the build leaves built tables (R39, R121). -/

namespace Sys2Proof.Machine

/-! ### Powers of 2 -/

theorem xtimes_succ (e : Nat) (v : Byte) : xtimes (e + 1) v = xtime (xtimes e v) := rfl

theorem xpow_succ (e : Nat) : xpow (e + 1) = xtime (xpow e) := rfl

/-- Doublings add up. -/
theorem xtimes_add (d e : Nat) (v : Byte) : xtimes (d + e) v = xtimes d (xtimes e v) := by
  induction d with
  | zero => simp [xtimes]
  | succ k ih => rw [Nat.succ_add, xtimes_succ, ih, xtimes_succ]

/-- Doubling is additive. -/
theorem xtime_xor (u v : Byte) : xtime (u ^^^ v) = xtime u ^^^ xtime v := by
  unfold xtime
  rw [BitVec.shiftLeft_xor_distrib, BitVec.getLsbD_xor]
  cases u.getLsbD 7 <;> cases v.getLsbD 7 <;> simp
  · rw [BitVec.xor_assoc]
  · rw [BitVec.xor_assoc, BitVec.xor_assoc, BitVec.xor_comm (29#8)]
  · rw [BitVec.xor_assoc, ← BitVec.xor_assoc (29#8), BitVec.xor_comm (29#8), BitVec.xor_assoc (v <<< 1), BitVec.xor_self,
      BitVec.xor_zero]

/-- Doubling is injective: only 0 doubles to 0. -/
theorem xtime_eq_zero : ∀ v : Byte, xtime v = 0 → v = 0 := by decide

theorem xtime_injective {u v : Byte} (h : xtime u = xtime v) : u = v := by
  have := xtime_eq_zero (u ^^^ v) (by rw [xtime_xor, h, BitVec.xor_self]; rfl)
  simpa using this

/-- No power of 2 is 0. -/
theorem xpow_ne_zero (e : Nat) : xpow e ≠ 0 := by
  induction e with
  | zero => decide
  | succ k ih => exact fun h => ih (xtime_eq_zero _ h)

/-- None of `n` successive doublings starting at `v` is 1. -/
def noneIsOne (n : Nat) (v : Byte) : Bool :=
  match n with
  | 0 => true
  | k + 1 => decide (v ≠ 1) && noneIsOne k (xtime v)

theorem noneIsOne_spec (n : Nat) : ∀ v, noneIsOne n v = true → ∀ k < n, xtimes k v ≠ 1 := by
  induction n with
  | zero => intro v _ k hk; omega
  | succ j ih =>
    intro v h k hk
    simp only [noneIsOne, Bool.and_eq_true, decide_eq_true_eq] at h
    cases k with
    | zero => exact h.1
    | succ k => rw [xtimes_add k 1]; exact ih _ h.2 k (by omega)

set_option maxRecDepth 4000 in
/-- 2 has order exactly 255 (R121). -/
theorem xpow_order : xpow 255 = 1 ∧ noneIsOne 254 2 = true := by decide

/-- Powers repeat after 255 (R41). -/
theorem xpow_add_255 (e : Nat) : xpow (e + 255) = xpow e := by
  rw [xpow, xtimes_add]
  exact congrArg (xtimes e) xpow_order.1

/-- Powers depend on the exponent modulo 255 (R41). -/
theorem xpow_mod (e : Nat) : xpow e = xpow (e % 255) := by
  induction e using Nat.strongRecOn with
  | ind e ih =>
    by_cases h : e < 255
    · rw [Nat.mod_eq_of_lt h]
    · obtain ⟨k, rfl⟩ : ∃ k, e = k + 255 := ⟨e - 255, by omega⟩
      rw [xpow_add_255, ih k (by omega), Nat.add_mod_right]

/-- A power of an exponent in [1, 254] is not 1. -/
theorem xpow_ne_one {k : Nat} (pos : 0 < k) (lt : k < 255) : xpow k ≠ 1 := by
  obtain ⟨j, rfl⟩ : ∃ j, k = j + 1 := ⟨k - 1, by omega⟩
  have := noneIsOne_spec 254 2 xpow_order.2 j (by omega)
  rw [xpow, xtimes_add j 1]
  exact this

/-- Doubling `e` times is injective. -/
theorem xtimes_injective (e : Nat) {u v : Byte} (h : xtimes e u = xtimes e v) : u = v := by
  induction e with
  | zero => exact h
  | succ k ih => exact ih (xtime_injective h)

/-- The powers of the exponents 0 to 254 are distinct (R121). -/
theorem xpow_injective {i j : Nat} (hi : i < 255) (hj : j < 255) (h : xpow i = xpow j) : i = j := by
  have key : ∀ {i j : Nat}, i < j → j < 255 → xpow i ≠ xpow j := by
    intro i j lt hj h
    have e : xpow j = xtimes i (xpow (j - i)) := by
      rw [xpow, show j = i + (j - i) by omega, xtimes_add]
      simp [xpow]
    rw [e] at h
    exact xpow_ne_one (k := j - i) (by omega) (by omega) (xtimes_injective i h).symm
  rcases Nat.lt_trichotomy i j with lt | eq | lt
  · exact absurd h (key lt hj)
  · exact eq
  · exact absurd h.symm (key lt hi)

/-! ### The build -/

/-- `value` after `e` rounds of the build (R39). -/
def valueAfter (e : Nat) (value : BitVec 9) : BitVec 9 :=
  match e with
  | 0 => value
  | k + 1 => valueAfter k (nextPower value)

/-- The build records `value` after each round. -/
theorem recordPowers_getElem (n : Nat) : ∀ (value : BitVec 9) (e : Nat) (h : e < (recordPowers n value).length),
    (recordPowers n value)[e] = (valueAfter e value).setWidth 8 := by
  induction n with
  | zero => intro value e h; simp [recordPowers] at h
  | succ k ih =>
    intro value e h
    cases e with
    | zero => rfl
    | succ j => simp only [recordPowers, List.getElem_cons_succ, valueAfter]; exact ih _ _ _

/-- A round of the build doubles the byte and leaves bit 8 clear. -/
theorem nextPower_byte : ∀ v : Byte, nextPower (v.setWidth 9) = (xtime v).setWidth 9 := by decide

theorem valueAfter_byte (e : Nat) : ∀ v : Byte, valueAfter e (v.setWidth 9) = (xtimes e v).setWidth 9 := by
  induction e with
  | zero => intro v; rfl
  | succ k ih => intro v; rw [valueAfter, nextPower_byte, ih, xtimes_add k 1]; rfl

/-- The byte recorded for exponent `e` is `2^e`. -/
theorem powers_getElem (e : Nat) (h : e < powers.length) : powers[e] = xpow e := by
  have byte : (valueAfter e ((1 : Byte).setWidth 9)).setWidth 8 = xpow e := by
    rw [valueAfter_byte, BitVec.setWidth_setWidth_of_le _ (by omega), BitVec.setWidth_eq]
    rfl
  exact (recordPowers_getElem 255 1 e h).trans byte

theorem powers_length : powers.length = 255 := recordPowers_length 255 1

/-- The exponent found for `2^e`, `e < 255`, is `e`. -/
theorem exponentIn_eq (l : List Byte) : ∀ (e : Nat) (h : e < l.length), (∀ j (hj : j < e), l[j]'(by omega) ≠ l[e]) →
    exponentIn l l[e] = some e := by
  induction l with
  | nil => intro e h; simp at h
  | cons b rest ih =>
    intro e h distinct
    cases e with
    | zero => simp [exponentIn]
    | succ k =>
      have hb : rest[k]'(by simpa using h) ≠ b := fun eq => distinct 0 (by omega) (by simp [eq])
      simp only [List.getElem_cons_succ, exponentIn, if_neg hb]
      rw [ih k (by simpa using h) fun j hj => by have := distinct (j + 1) (by omega); simpa using this]
      rfl

/-- 0 is no recorded byte, so `LOG[0]` is not written (R40). -/
theorem exponentIn_none (l : List Byte) (a : Byte) (h : ∀ e (h : e < l.length), l[e] ≠ a) : exponentIn l a = none := by
  induction l with
  | nil => rfl
  | cons b rest ih =>
    have h0 := h 0 (by simp)
    simp only [List.getElem_cons_zero] at h0
    simp only [exponentIn, if_neg (Ne.symm h0)]
    rw [ih fun e he => by have := h (e + 1) (by simpa using he); simpa using this]
    rfl

/-- Entry `e` of ALOG after the build is `2^e` (R39, R41). -/
theorem Tables.alogAt_build (t : Tables) {e : Nat} (h : e < 512) : t.build.alogAt e = xpow e := by
  have len := powers_length
  simp only [Tables.alogAt, dif_pos h, Tables.build]
  show ((powers ++ (powers ++ powers.take 2))[e]'(by simp [len]; omega)) = xpow e
  by_cases h1 : e < 255
  · rw [List.getElem_append_left (by omega)]; exact powers_getElem e _
  · rw [List.getElem_append_right (by omega)]
    by_cases h2 : e < 510
    · rw [List.getElem_append_left (by omega), powers_getElem]
      conv_rhs => rw [show e = e - 255 + 255 by omega, xpow_add_255]
      rw [len]
    · rw [List.getElem_append_right (by omega), List.getElem_take, powers_getElem]
      conv_rhs => rw [show e = e - 255 - 255 + 255 + 255 by omega, xpow_add_255, xpow_add_255]
      rw [len]

/-- Entry `a` of LOG after the build (R39). -/
theorem Tables.logAt_build (t : Tables) (a : Byte) : t.build.logAt a = (builtLog a (BitVec.ofNat 8 (t.logAt a))).toNat := by
  have lt : a.toNat % 256 = a.toNat := Nat.mod_eq_of_lt a.isLt
  simp [Tables.logAt, Tables.build, lt]

/-- The build leaves built tables, whatever they held (R39, R42). -/
theorem Tables.build_built (t : Tables) : t.build.Built where
  alog_zero := t.alogAt_build (by omega)
  alog_succ e h := by rw [t.alogAt_build (by omega), t.alogAt_build (by omega), xpow_succ]
  log_alog e h := by
    have len := powers_length
    have found : exponentIn powers (xpow e) = some e := by
      rw [← powers_getElem e (by omega)]
      refine exponentIn_eq powers e (by omega) fun j hj => ?_
      rw [powers_getElem, powers_getElem]
      exact fun eq => by have := xpow_injective (by omega) h eq; omega
    rw [t.alogAt_build (by omega), t.logAt_build, builtLog, found]
    simp only [BitVec.toNat_ofNat]
    omega

/-- In built tables entry `e` of ALOG is `2^e`. -/
theorem Tables.Built.alogAt_eq {t : Tables} (h : t.Built) {e : Nat} (lt : e < 512) : t.alogAt e = xpow e := by
  induction e with
  | zero => exact h.alog_zero
  | succ k ih => rw [h.alog_succ k (by omega), ih (by omega), xpow_succ]

/-- In built tables LOG inverts the powers. -/
theorem Tables.Built.logAt_xpow {t : Tables} (h : t.Built) {e : Nat} (lt : e < 255) : t.logAt (xpow e) = e := by
  have := h.log_alog e lt
  rwa [h.alogAt_eq (by omega)] at this

end Sys2Proof.Machine
end

