-- ==== Sys2Proof/Laws/Commands.lean ====
section
/-! SUPPORT. What the shared operations of the commands can do: running and completing a command, its checks, and the bytes
its effect writes. -/

namespace Sys2Proof.Machine

variable {s t : State} {snap : Snapshot}

/-! ### Running a command -/

/-- With a command in flight, running it is its rule on the snapshot, completed (R97, R230). -/
theorem runCommand_busy (h : s.phase = .busy snap) (body : Snapshot → Except ErrCode State) :
    runCommand s body = match body snap with
      | .ok u => .next (u.complete .none)
      | .error e => .next (s.complete e) := by
  unfold runCommand
  rw [h]
  all_goals rfl

/-- What running a command can answer. -/
theorem runCommand_next {body : Snapshot → Except ErrCode State} (h : runCommand s body = .next t) :
    ∃ snap, s.phase = .busy snap ∧
      ((∃ u, body snap = .ok u ∧ t = u.complete .none) ∨ (∃ e, body snap = .error e ∧ t = s.complete e)) := by
  unfold runCommand at h
  split at h
  · next snap hp =>
    refine ⟨snap, hp, ?_⟩
    split at h
    · next u hu => cases h; exact .inl ⟨u, hu, rfl⟩
    · next e he => cases h; exact .inr ⟨e, he, rfl⟩
  · cases h
  · cases h

/-- A memory command that passes its checks and does not raise completes with its effect on memory alone (R237). -/
theorem memoryCommand_ok {i : Instr} {effect : ArgRegs → Memory → Except ErrCode Memory} {m : Memory}
    (h : s.phase = .busy snap) (pre : precheck s.params i snap.args = .ok ()) (eff : effect snap.args s.mem = .ok m) :
    memoryCommand i s effect = .next ({ s with mem := m }.complete .none) := by
  simp [memoryCommand, runCommand, h, pre, eff]

/-- A memory command that fails a check completes with its code and nothing else (R237, R238). -/
theorem memoryCommand_precheck {i : Instr} {effect : ArgRegs → Memory → Except ErrCode Memory} {e : ErrCode}
    (h : s.phase = .busy snap) (pre : precheck s.params i snap.args = .error e) :
    memoryCommand i s effect = .next (s.complete e) := by
  simp [memoryCommand, runCommand, h, pre]

/-- A memory command that passes its checks and then raises completes with that code and nothing else (R238). -/
theorem memoryCommand_raise {i : Instr} {effect : ArgRegs → Memory → Except ErrCode Memory} {e : ErrCode}
    (h : s.phase = .busy snap) (pre : precheck s.params i snap.args = .ok ()) (eff : effect snap.args s.mem = .error e) :
    memoryCommand i s effect = .next (s.complete e) := by
  simp [memoryCommand, runCommand, h, pre, eff]

/-- What a memory command can answer. -/
theorem memoryCommand_next {i : Instr} {effect : ArgRegs → Memory → Except ErrCode Memory}
    (h : memoryCommand i s effect = .next t) :
    ∃ snap, s.phase = .busy snap ∧
      ((∃ m, precheck s.params i snap.args = .ok () ∧ effect snap.args s.mem = .ok m ∧
          t = { s with mem := m }.complete .none) ∨
        (∃ e, t = s.complete e ∧ (precheck s.params i snap.args = .error e ∨
          (precheck s.params i snap.args = .ok () ∧ effect snap.args s.mem = .error e)))) := by
  obtain ⟨snap, hp, ⟨u, hu, ht⟩ | ⟨e, he, ht⟩⟩ := runCommand_next h
  · refine ⟨snap, hp, .inl ?_⟩
    split at hu
    · cases hu
    · next pre =>
      split at hu
      · next m hm => cases hu; exact ⟨m, pre, hm, ht⟩
      · cases hu
  · refine ⟨snap, hp, .inr ⟨e, ht, ?_⟩⟩
    split at he
    · next pre => cases he; exact .inl pre
    · next pre =>
      split at he
      · cases he
      · next hm => cases he; exact .inr ⟨pre, hm⟩

/-! ### The checks -/

theorem Region.written_iff (x : Region) : x.written = true ↔ x.access ≠ .r := by
  cases h : x.access <;> simp [Region.written, h]

theorem Region.holds_iff (x : Region) (b : Nat) : x.holds b = true ↔ InBuf x.base x.len b := by
  simp [Region.holds, InBuf]

/-- Two regions overlap when they share an address (R66, R68). -/
theorem Region.overlaps_iff (x y : Region) :
    x.overlaps y = true ↔ ∃ b, InBuf x.base x.len b ∧ InBuf y.base y.len b := by
  simp only [Region.overlaps, InBuf, Bool.and_eq_true, decide_eq_true_eq]
  constructor
  · rintro ⟨⟨⟨hx, hy⟩, h1⟩, h2⟩
    exact ⟨max x.base y.base, by omega, by omega⟩
  · rintro ⟨b, hx, hy⟩
    omega

/-- The command asks for a multiple of 8 (R233). -/
theorem wordParallel_iff (i : Instr) : wordParallel i = true ↔ i = .pqw ∨ i = .ponly ∨ i = .qw := by
  cases i <;> simp [wordParallel]

theorem regionsAlias_iff (rs : List Region) :
    regionsAlias rs = true ↔
      ∃ x ∈ rs, ∃ y ∈ rs, x.role ≠ y.role ∧ x.access ≠ .r ∧ ∃ b, InBuf x.base x.len b ∧ InBuf y.base y.len b := by
  simp only [regionsAlias, List.any_eq_true, Bool.and_eq_true, decide_eq_true_eq, Region.overlaps_iff,
    Region.written_iff]
  constructor
  · rintro ⟨x, hx, y, hy, ⟨role, share⟩, acc⟩; exact ⟨x, hx, y, hy, role, acc, share⟩
  · rintro ⟨x, hx, y, hy, role, acc, share⟩; exact ⟨x, hx, y, hy, ⟨role, share⟩, acc⟩

/-- The first check passes (R233). -/
theorem shapeFails_iff (i : Instr) (a : ArgRegs) : (wordParallel i && decide (a.n % 8 ≠ 0)) = true ↔ ¬ ShapeOk i a := by
  simp only [Bool.and_eq_true, decide_eq_true_eq, wordParallel_iff, ShapeOk, Classical.not_imp]

/-- The second check passes (R234). -/
theorem rangeFails_iff (p : Params) (i : Instr) (a : ArgRegs) :
    (regionsOf p i a).any (Region.outOfRange p) = true ↔ ¬ RangeOk p i a := by
  simp only [List.any_eq_true, Region.outOfRange, Bool.and_eq_true, decide_eq_true_eq, RangeOk]
  constructor
  · rintro ⟨x, hx, pos, lt⟩ ok
    have := ok x hx pos
    omega
  · intro h
    by_contra none
    exact h fun x hx pos => by
      by_contra gt
      exact none ⟨x, hx, pos, by omega⟩

/-- The third check passes (R235). -/
theorem aliasFails_iff (p : Params) (i : Instr) (a : ArgRegs) :
    regionsAlias (regionsOf p i a) = true ↔ ¬ AliasOk p i a := by
  rw [regionsAlias_iff]
  constructor
  · rintro ⟨x, hx, y, hy, role, acc, b, hb⟩ ok
    exact ok x hx y hy role acc b hb
  · intro h
    by_contra none
    exact h fun x hx y hy role acc b hb => none ⟨x, hx, y, hy, role, acc, b, hb⟩

/-- A command passes `precheck` exactly when its checks hold (R237). -/
theorem precheck_ok_iff (p : Params) (i : Instr) (a : ArgRegs) : precheck p i a = .ok () ↔ ChecksPass p i a := by
  unfold precheck
  split
  · next h => exact ⟨fun eq => (by cases eq), fun c => absurd c.shape ((shapeFails_iff i a).1 h)⟩
  · next h1 =>
    split
    · next h => exact ⟨fun eq => (by cases eq), fun c => absurd c.range ((rangeFails_iff p i a).1 h)⟩
    · next h2 =>
      split
      · next h => exact ⟨fun eq => (by cases eq), fun c => absurd c.apart ((aliasFails_iff p i a).1 h)⟩
      · next h3 =>
        refine ⟨fun _ => ⟨?_, ?_, ?_⟩, fun _ => rfl⟩
        · by_contra c; exact h1 ((shapeFails_iff i a).2 c)
        · by_contra c; exact h2 ((rangeFails_iff p i a).2 c)
        · by_contra c; exact h3 ((aliasFails_iff p i a).2 c)

/-- `precheck` raises no code but SHAPE, RANGE and ALIAS. -/
theorem precheck_error {p : Params} {i : Instr} {a : ArgRegs} {e : ErrCode} (h : precheck p i a = .error e) :
    e = .shape ∨ e = .range ∨ e = .overlap := by
  unfold precheck at h
  split at h
  · cases h; exact .inl rfl
  · split at h
    · cases h; exact .inr (.inl rfl)
    · split at h
      · cases h; exact .inr (.inr rfl)
      · cases h

/-! ### The bytes an effect writes

Each effect is a sequence of byte writes inside the written buffers of its command, so it keeps whatever those writes
keep: the canonical form, the bounds of the space, the bytes elsewhere. -/

section Keeps
variable {K : Memory → Prop} {W : Nat → Prop} (keep : ∀ m b v, K m → W b → K (Memory.write m b v))
include keep

theorem memWrite_keeps {a n : Nat} {v : BitVec (8 * n)} (inW : ∀ b, InBuf a n b → W b) {m : Memory} (hm : K m) :
    K (memWrite m a n v) :=
  forUp_rule (fun _ m => K m) n hm fun k hk _ h => keep _ _ _ h (inW _ ⟨by omega, by omega⟩)

theorem setBufWord_keeps {base n t : Nat} {v : Word} (lt : t < n / 8) (inW : ∀ b, InBuf base n b → W b) {m : Memory}
    (hm : K m) : K (setBufWord base m t v) :=
  memWrite_keeps keep (fun b hb => inW b ⟨by have := hb.1; omega, by have := hb.2; omega⟩) hm

theorem pqsEffect_keeps (tb : Tables) (a : ArgRegs) (inP : ∀ b, InBuf a.p a.n b → W b) (inQ : ∀ b, InBuf a.q a.n b → W b)
    {m : Memory} (hm : K m) : K (pqsEffect tb a m) :=
  forUp_rule (fun _ m => K m) a.w hm fun _ _ _ h =>
    forUp_rule (fun _ m => K m) a.n h fun j hj _ h =>
      keep _ _ _ (keep _ _ _ h (inP _ ⟨by omega, by omega⟩)) (inQ _ ⟨by omega, by omega⟩)

theorem pqwEffect_keeps (a : ArgRegs) (inP : ∀ b, InBuf a.p a.n b → W b) (inQ : ∀ b, InBuf a.q a.n b → W b)
    {m : Memory} (hm : K m) : K (pqwEffect a m) := by
  have copy : K (pqwCopy a m) := forUp_rule (fun _ m => K m) (a.n / 8) hm fun t ht _ h =>
    setBufWord_keeps keep ht inQ (setBufWord_keeps keep ht inP h)
  unfold pqwEffect
  split
  · exact hm
  · split
    · exact copy
    · exact forDown_rule (fun _ m => K m) (a.w - 1) copy fun i _ _ h =>
        forUp_rule (fun _ m => K m) (a.n / 8) h fun t ht _ h =>
          setBufWord_keeps keep ht inQ (setBufWord_keeps keep ht inP h)

theorem copyLast_keeps (base : Nat) (a : ArgRegs) (inB : ∀ b, InBuf base a.n b → W b) {m : Memory} (hm : K m) :
    K (copyLast base a m) :=
  forUp_rule (fun _ m => K m) (a.n / 8) hm fun _ ht _ h => setBufWord_keeps keep ht inB h

theorem ponlyEffect_keeps (seed : PonlySeed) (a : ArgRegs) (inP : ∀ b, InBuf a.p a.n b → W b) {m : Memory} (hm : K m) :
    K (ponlyEffect seed a m) := by
  have fold : ∀ i m, K m → K (ponlyFold a i m) := fun i m hm =>
    forUp_rule (fun _ m => K m) (a.n / 8) hm fun _ ht _ h => setBufWord_keeps keep ht inP h
  unfold ponlyEffect
  split
  · exact hm
  · cases seed with
    | copy => exact forDown_rule (fun _ m => K m) (a.w - 1) (copyLast_keeps keep _ a inP hm) fun i _ m h => fold i m h
    | accumulate => exact forDown_rule (fun _ m => K m) a.w hm fun i _ m h => fold i m h

theorem qsEffect_keeps (tb : Tables) (a : ArgRegs) (inQ : ∀ b, InBuf a.q a.n b → W b) {m : Memory} (hm : K m) :
    K (qsEffect tb a m) :=
  forUp_rule (fun _ m => K m) a.w hm fun _ _ _ h =>
    forUp_rule (fun _ m => K m) a.n h fun j hj _ h => keep _ _ _ h (inQ _ ⟨by omega, by omega⟩)

theorem qwEffect_keeps (a : ArgRegs) (inQ : ∀ b, InBuf a.q a.n b → W b) {m : Memory} (hm : K m) :
    K (qwEffect a m) := by
  have copy := copyLast_keeps keep a.q a inQ hm
  unfold qwEffect
  split
  · exact hm
  · split
    · exact copy
    · exact forDown_rule (fun _ m => K m) (a.w - 1) copy fun i _ _ h =>
        forUp_rule (fun _ m => K m) (a.n / 8) h fun t ht _ h => setBufWord_keeps keep ht inQ h

theorem rec1Effect_keeps (tb : Tables) (a : ArgRegs) (inO : ∀ b, InBuf a.out1 a.n b → W b) {m m' : Memory} (hm : K m)
    (ok : rec1Effect tb a m = .ok m') : K m' := by
  have key : ∀ (b : Nat) (m' : Memory), b ≤ a.n →
      forUpRaise b (fun j m => rec1Byte tb a (tb.alogAt a.idx1.toNat) j m) m = .ok m' → K m' := by
    intro b
    induction b with
    | zero => intro m' _ h; cases h; exact hm
    | succ k ih =>
      intro m' le h
      unfold forUpRaise at h
      split at h
      · next y hy =>
        have ky := ih y (by omega) hy
        unfold rec1Byte at h
        split at h
        · cases h; exact keep _ _ _ ky (inO _ ⟨by omega, by omega⟩)
        · cases h
      · cases h
  exact key a.n m' (Nat.le_refl _) ok

theorem rec2Effect_keeps (tb : Tables) (a : ArgRegs) (inO1 : ∀ b, InBuf a.out1 a.n b → W b)
    (inO2 : ∀ b, InBuf a.out2 a.n b → W b) {m m' : Memory} (hm : K m) (ok : rec2Effect tb a m = .ok m') : K m' := by
  unfold rec2Effect at ok
  split at ok
  · cases ok
    exact forUp_rule (fun _ m => K m) a.n hm fun j hj _ h =>
      keep _ _ _ (keep _ _ _ h (inO1 _ ⟨by omega, by omega⟩)) (inO2 _ ⟨by omega, by omega⟩)
  · cases ok

end Keeps

/-! ### What a command can do -/

/-- A command that answers a next state was in flight, and either completed normally, having changed only RES, WOUT and
memory, or completed with an error, having changed nothing (R230, R238). -/
theorem exec_cases {i : Instr} (h : exec i s = .next t) :
    ∃ snap, s.phase = .busy snap ∧
      ((∃ r w m, t = { s with res := r, wout := w, mem := m }.complete .none) ∨ ∃ e, t = s.complete e) := by
  cases i <;> simp only [exec, execAdd, execSub, execMul, execDiv, execLog, execAlog, execDbl, execPqs, execPqw, execPonly,
    execQs, execQw, execRec1, execRec2] at h
  case add | sub | mul | alog | dbl =>
    obtain ⟨snap, hp, ⟨u, hu, rfl⟩ | ⟨e, _, rfl⟩⟩ := runCommand_next h
    · cases hu; exact ⟨snap, hp, .inl ⟨_, _, _, rfl⟩⟩
    · exact ⟨snap, hp, .inr ⟨e, rfl⟩⟩
  case div | log =>
    obtain ⟨snap, hp, ⟨u, hu, rfl⟩ | ⟨e, _, rfl⟩⟩ := runCommand_next h
    · split at hu
      · cases hu <;> exact ⟨snap, hp, .inl ⟨_, _, _, rfl⟩⟩
      · cases hu <;> exact ⟨snap, hp, .inl ⟨_, _, _, rfl⟩⟩
    · exact ⟨snap, hp, .inr ⟨e, rfl⟩⟩
  case pqs | pqw | ponly | qs | qw | rec1 | rec2 =>
    obtain ⟨snap, hp, ⟨m, _, _, rfl⟩ | ⟨e, rfl, _⟩⟩ := memoryCommand_next h
    · exact ⟨snap, hp, .inl ⟨_, _, m, rfl⟩⟩
    · exact ⟨snap, hp, .inr ⟨e, rfl⟩⟩

/-! ### The memory commands on their snapshot -/

section OnSnapshot
variable (h : s.phase = .busy snap)
include h

/-- A memory command that fails a check completes with its code and nothing else (R237, R238). -/
theorem exec_precheck {i : Instr} {e : ErrCode} (hi : i ∈ memoryCommands) (pre : precheck s.params i snap.args = .error e) :
    exec i s = .next (s.complete e) := by
  simp only [memoryCommands, List.mem_cons, List.not_mem_nil, or_false] at hi
  rcases hi with rfl | rfl | rfl | rfl | rfl | rfl | rfl <;>
    simp only [exec, execPqs, execPqw, execPonly, execQs, execQw, execRec1, execRec2] <;>
    exact memoryCommand_precheck h pre

/-- PQS with its checks passed (R161). -/
theorem exec_pqs_pass (ok : ChecksPass s.params .pqs snap.args) :
    exec .pqs s = .next ({ s with mem := pqsEffect s.tables snap.args s.mem }.complete .none) := by
  rw [exec, execPqs]; exact memoryCommand_ok h ((precheck_ok_iff _ _ _).2 ok) rfl

/-- PQW with its checks passed (R163). -/
theorem exec_pqw_pass (ok : ChecksPass s.params .pqw snap.args) :
    exec .pqw s = .next ({ s with mem := pqwEffect snap.args s.mem }.complete .none) := by
  rw [exec, execPqw]; exact memoryCommand_ok h ((precheck_ok_iff _ _ _).2 ok) rfl

/-- PONLY with its checks passed (R165). -/
theorem exec_ponly_pass (ok : ChecksPass s.params .ponly snap.args) :
    exec .ponly s = .next ({ s with mem := ponlyEffect s.params.ponlySeed snap.args s.mem }.complete .none) := by
  rw [exec, execPonly]; exact memoryCommand_ok h ((precheck_ok_iff _ _ _).2 ok) rfl

/-- QS with its checks passed (R167). -/
theorem exec_qs_pass (ok : ChecksPass s.params .qs snap.args) :
    exec .qs s = .next ({ s with mem := qsEffect s.tables snap.args s.mem }.complete .none) := by
  rw [exec, execQs]; exact memoryCommand_ok h ((precheck_ok_iff _ _ _).2 ok) rfl

/-- QW with its checks passed (R169). -/
theorem exec_qw_pass (ok : ChecksPass s.params .qw snap.args) :
    exec .qw s = .next ({ s with mem := qwEffect snap.args s.mem }.complete .none) := by
  rw [exec, execQw]; exact memoryCommand_ok h ((precheck_ok_iff _ _ _).2 ok) rfl

/-- REC1 with its checks passed: its effect or its raise (R201). -/
theorem exec_rec1_pass (ok : ChecksPass s.params .rec1 snap.args) :
    exec .rec1 s = match rec1Effect s.tables snap.args s.mem with
      | .ok m => .next ({ s with mem := m }.complete .none)
      | .error e => .next (s.complete e) := by
  rw [exec, execRec1]
  split
  · next eff => exact memoryCommand_ok h ((precheck_ok_iff _ _ _).2 ok) eff
  · next eff => exact memoryCommand_raise h ((precheck_ok_iff _ _ _).2 ok) eff

/-- REC2 with its checks passed: its effect or its raise (R204, R206). -/
theorem exec_rec2_pass (ok : ChecksPass s.params .rec2 snap.args) :
    exec .rec2 s = match rec2Effect s.tables snap.args s.mem with
      | .ok m => .next ({ s with mem := m }.complete .none)
      | .error e => .next (s.complete e) := by
  rw [exec, execRec2]
  split
  · next eff => exact memoryCommand_ok h ((precheck_ok_iff _ _ _).2 ok) eff
  · next eff => exact memoryCommand_raise h ((precheck_ok_iff _ _ _).2 ok) eff

end OnSnapshot

section Written
variable {p : Params} {i : Instr} {a : ArgRegs} {b : Nat}

theorem writtenBy_p (hi : i = .pqs ∨ i = .pqw ∨ i = .ponly) (h : InBuf a.p a.n b) : WrittenBy p i a b := by
  rcases hi with rfl | rfl | rfl
  · exact ⟨⟨.p, a.p, a.n, .rw⟩, by simp [regionsOf], by simp, h⟩
  · exact ⟨⟨.p, a.p, a.n, .w⟩, by simp [regionsOf], by simp, h⟩
  · exact ⟨⟨.p, a.p, a.n, ponlyAccess p⟩, by simp [regionsOf], by unfold ponlyAccess; split <;> simp, h⟩

theorem writtenBy_q (hi : i = .pqs ∨ i = .pqw ∨ i = .qs ∨ i = .qw) (h : InBuf a.q a.n b) : WrittenBy p i a b := by
  rcases hi with rfl | rfl | rfl | rfl
  · exact ⟨⟨.q, a.q, a.n, .rw⟩, by simp [regionsOf], by simp, h⟩
  · exact ⟨⟨.q, a.q, a.n, .w⟩, by simp [regionsOf], by simp, h⟩
  · exact ⟨⟨.q, a.q, a.n, .rw⟩, by simp [regionsOf], by simp, h⟩
  · exact ⟨⟨.q, a.q, a.n, .w⟩, by simp [regionsOf], by simp, h⟩

theorem writtenBy_out1 (hi : i = .rec1 ∨ i = .rec2) (h : InBuf a.out1 a.n b) : WrittenBy p i a b := by
  rcases hi with rfl | rfl <;> exact ⟨⟨.out1, a.out1, a.n, .w⟩, by simp [regionsOf], by simp, h⟩

theorem writtenBy_out2 (h : InBuf a.out2 a.n b) : WrittenBy p .rec2 a b :=
  ⟨⟨.out2, a.out2, a.n, .w⟩, by simp [regionsOf], by simp, h⟩

end Written

/-- A byte of a written region of a command that passes its checks is in the address space (R61). -/
theorem writtenBy_lt {p : Params} {i : Instr} {a : ArgRegs} {b : Nat} (ok : ChecksPass p i a) (h : WrittenBy p i a b) :
    b < p.memSize := by
  obtain ⟨x, hx, _, lo, hi⟩ := h
  have := ok.range x hx (by omega)
  omega

/-- A memory command keeps whatever its effect keeps once its checks pass. -/
theorem memoryCommand_keeps {i : Instr} {K : Memory → Prop} {effect : ArgRegs → Memory → Except ErrCode Memory}
    (h : memoryCommand i s effect = .next t) (hp : s.phase = .busy snap)
    (eff : ChecksPass s.params i snap.args → ∀ m, effect snap.args s.mem = .ok m → K m) (hm : K s.mem) : K t.mem := by
  obtain ⟨snap', hp', ⟨m, pre, ok, rfl⟩ | ⟨e, rfl, _⟩⟩ := memoryCommand_next h
  · obtain rfl : snap = snap' := by rw [hp] at hp'; cases hp'; rfl
    exact eff ((precheck_ok_iff _ _ _).1 pre) m ok
  · exact hm

/-- A command keeps whatever the writes to its W and RW regions keep, given that its checks pass (R75). -/
theorem exec_keeps {i : Instr} {K : Memory → Prop} (h : exec i s = .next t) (hp : s.phase = .busy snap)
    (keep : ChecksPass s.params i snap.args → ∀ m b v, K m → WrittenBy s.params i snap.args b → K (Memory.write m b v))
    (hm : K s.mem) : K t.mem := by
  cases i <;> simp only [exec, execAdd, execSub, execMul, execDiv, execLog, execAlog, execDbl] at h
  case add | sub | mul | alog | dbl =>
    obtain ⟨snap', hp', ⟨u, hu, rfl⟩ | ⟨e, _, rfl⟩⟩ := runCommand_next h
    · cases hu; exact hm
    · exact hm
  case div | log =>
    obtain ⟨snap', hp', ⟨u, hu, rfl⟩ | ⟨e, _, rfl⟩⟩ := runCommand_next h
    · split at hu
      all_goals cases hu
      all_goals exact hm
    · exact hm
  case pqs =>
    exact memoryCommand_keeps h hp (fun ok m e => by
      cases e; exact pqsEffect_keeps (keep ok) _ _ (fun _ => writtenBy_p (by simp)) (fun _ => writtenBy_q (by simp)) hm) hm
  case pqw =>
    exact memoryCommand_keeps h hp (fun ok m e => by
      cases e; exact pqwEffect_keeps (keep ok) _ (fun _ => writtenBy_p (by simp)) (fun _ => writtenBy_q (by simp)) hm) hm
  case ponly =>
    exact memoryCommand_keeps h hp (fun ok m e => by
      cases e; exact ponlyEffect_keeps (keep ok) _ _ (fun _ => writtenBy_p (by simp)) hm) hm
  case qs =>
    exact memoryCommand_keeps h hp (fun ok m e => by
      cases e; exact qsEffect_keeps (keep ok) _ _ (fun _ => writtenBy_q (by simp)) hm) hm
  case qw =>
    exact memoryCommand_keeps h hp (fun ok m e => by
      cases e; exact qwEffect_keeps (keep ok) _ (fun _ => writtenBy_q (by simp)) hm) hm
  case rec1 =>
    exact memoryCommand_keeps h hp
      (fun ok m e => rec1Effect_keeps (keep ok) _ _ (fun _ => writtenBy_out1 (by simp)) hm e) hm
  case rec2 =>
    exact memoryCommand_keeps h hp (fun ok m e =>
      rec2Effect_keeps (keep ok) _ _ (fun _ => writtenBy_out1 (by simp)) (fun _ => writtenBy_out2) hm e) hm

end Sys2Proof.Machine
end

