-- ==== Sys2Proof/Laws/Field.lean ====
section
/-! SUPPORT. The field: the product of polynomials is bilinear, and the table primitives compute it and its inverse (R120 to
R128). -/

namespace Sys2Proof.Machine

/-! ### XOR sums -/

/-- The sum of two families is the sum of their sums. -/
theorem xorSum_xor (b : Nat) (f g : Nat → Byte) : xorSum b (fun i => f i ^^^ g i) = xorSum b f ^^^ xorSum b g := by
  induction b with
  | zero => exact (BitVec.xor_self (x := (0 : Byte))).symm
  | succ k ih =>
    simp only [xorSum, ih]
    rw [BitVec.xor_assoc, BitVec.xor_assoc, ← BitVec.xor_assoc (xorSum k g), BitVec.xor_comm (xorSum k g) (f k),
      BitVec.xor_assoc (f k)]

theorem xorSum_congr {b : Nat} {f g : Nat → Byte} (h : ∀ i < b, f i = g i) : xorSum b f = xorSum b g := by
  induction b with
  | zero => rfl
  | succ k ih => rw [xorSum, xorSum, ih fun i hi => h i (by omega), h k (by omega)]

theorem xorSum_zero (b : Nat) : xorSum b (fun _ => 0) = 0 := by
  induction b with
  | zero => rfl
  | succ k ih => rw [xorSum, ih]; rfl

/-- An additive function goes through a sum. -/
theorem xorSum_map {φ : Byte → Byte} (zero : φ 0 = 0) (add : ∀ u v, φ (u ^^^ v) = φ u ^^^ φ v) (b : Nat) (f : Nat → Byte) :
    φ (xorSum b f) = xorSum b fun i => φ (f i) := by
  induction b with
  | zero => exact zero
  | succ k ih => rw [xorSum, xorSum, add, ih]

/-- A sum differs from the sum without one term by that term. -/
theorem xorSum_without {b k : Nat} (hk : k < b) (f : Nat → Byte) :
    xorSum b f ^^^ xorSum b (fun i => if i = k then 0 else f i) = f k := by
  rw [← xorSum_xor]
  have : ∀ i, f i ^^^ (if i = k then 0 else f i) = if i = k then f k else 0 := fun i => by
    split
    · next e => subst e; simp
    · simp
  rw [xorSum_congr fun i _ => this i]
  induction b with
  | zero => omega
  | succ j ih =>
    rw [xorSum]
    by_cases e : j = k
    · subst e
      rw [xorSum_congr (g := fun _ => 0) (fun i hi => if_neg (by omega)), xorSum_zero]
      simp
    · rw [ih (by omega), if_neg e]
      simp

/-! ### Doubling and the product -/

theorem xtimes_xor (e : Nat) (u v : Byte) : xtimes e (u ^^^ v) = xtimes e u ^^^ xtimes e v := by
  induction e with
  | zero => rfl
  | succ k ih => rw [xtimes_succ, ih, xtime_xor]; rfl

theorem xtimes_zero (e : Nat) : xtimes e 0 = 0 := by
  induction e with
  | zero => rfl
  | succ k ih => rw [xtimes_succ, ih]; rfl

/-- The product is additive in its first factor. -/
theorem fieldMul_xor_left (a b c : Byte) : fieldMul (a ^^^ b) c = fieldMul a c ^^^ fieldMul b c := by
  unfold fieldMul
  rw [← xorSum_xor]
  congr 1
  funext k
  split
  · exact xtimes_xor k a b
  · rfl

/-- The product is additive in its second factor. -/
theorem fieldMul_xor_right (a b c : Byte) : fieldMul a (b ^^^ c) = fieldMul a b ^^^ fieldMul a c := by
  unfold fieldMul
  rw [← xorSum_xor]
  congr 1
  funext k
  rw [BitVec.getLsbD_xor]
  cases b.getLsbD k <;> cases c.getLsbD k <;> simp

theorem fieldMul_zero_right (a : Byte) : fieldMul a 0 = 0 := by
  have := fieldMul_xor_right a 0 0
  simpa using this

theorem fieldMul_zero_left (b : Byte) : fieldMul 0 b = 0 := by
  have := fieldMul_xor_left 0 0 b
  simpa using this

set_option maxRecDepth 4000 in
theorem fieldMul_one : ∀ a : Byte, fieldMul a 1 = a := by decide

/-- Doubling a factor doubles the product. -/
theorem fieldMul_xtime_left (a b : Byte) : fieldMul (xtime a) b = xtime (fieldMul a b) := by
  unfold fieldMul
  rw [xorSum_map (φ := xtime) (by decide) xtime_xor]
  congr 1
  funext k
  split
  · rw [← xtimes_succ, show k + 1 = k + 1 from rfl, xtimes_add k 1]; rfl
  · decide

set_option maxRecDepth 4000 in
theorem fieldMul_one_left : ∀ b : Byte, fieldMul 1 b = b := by decide

/-- Every element but 0 is a power of 2 (R121). -/
theorem exists_xpow {a : Byte} (h : a ≠ 0) : ∃ e < 255, xpow e = a := by
  have inj : Set.InjOn (fun e => (xpow e).toNat) (Finset.range 255 : Finset Nat) := fun i hi j hj eq =>
    xpow_injective (by simpa using hi) (by simpa using hj) (BitVec.eq_of_toNat_eq eq)
  have sub : (Finset.range 255).image (fun e => (xpow e).toNat) ⊆ Finset.Ico 1 256 := fun n hn => by
    obtain ⟨e, _, rfl⟩ := Finset.mem_image.1 hn
    have ne := xpow_ne_zero e
    have := (xpow e).isLt
    rw [Finset.mem_Ico]
    exact ⟨Nat.one_le_iff_ne_zero.2 fun z => ne (BitVec.eq_of_toNat_eq z), this⟩
  have all := Finset.eq_of_subset_of_card_le sub (by rw [Finset.card_image_of_injOn inj]; simp)
  have mem : a.toNat ∈ Finset.Ico 1 256 :=
    Finset.mem_Ico.2 ⟨Nat.one_le_iff_ne_zero.2 fun z => h (BitVec.eq_of_toNat_eq z), a.isLt⟩
  rw [← all] at mem
  obtain ⟨e, he, eq⟩ := Finset.mem_image.1 mem
  exact ⟨e, by simpa using he, BitVec.eq_of_toNat_eq eq⟩

/-- Multiplying a power of 2 is doubling. -/
theorem fieldMul_xpow_left (e : Nat) (b : Byte) : fieldMul (xpow e) b = xtimes e b := by
  induction e with
  | zero => exact fieldMul_one_left b
  | succ k ih => rw [xpow_succ, fieldMul_xtime_left, ih]; rfl

/-- The product of powers adds their exponents (R123). -/
theorem fieldMul_xpow_xpow (e f : Nat) : fieldMul (xpow e) (xpow f) = xpow (e + f) := by
  rw [fieldMul_xpow_left, xpow, xpow, xtimes_add]

/-- The product is commutative (R127). -/
theorem fieldMul_comm (a b : Byte) : fieldMul a b = fieldMul b a := by
  by_cases ha : a = 0
  · rw [ha, fieldMul_zero_left, fieldMul_zero_right]
  by_cases hb : b = 0
  · rw [hb, fieldMul_zero_left, fieldMul_zero_right]
  obtain ⟨e, _, rfl⟩ := exists_xpow ha
  obtain ⟨f, _, rfl⟩ := exists_xpow hb
  rw [fieldMul_xpow_xpow, fieldMul_xpow_xpow, Nat.add_comm]

/-- The product is associative (R127). -/
theorem fieldMul_assoc (a b c : Byte) : fieldMul (fieldMul a b) c = fieldMul a (fieldMul b c) := by
  by_cases ha : a = 0
  · simp only [ha, fieldMul_zero_left]
  by_cases hb : b = 0
  · simp only [hb, fieldMul_zero_left, fieldMul_zero_right]
  by_cases hc : c = 0
  · simp only [hc, fieldMul_zero_right]
  obtain ⟨e, _, rfl⟩ := exists_xpow ha
  obtain ⟨f, _, rfl⟩ := exists_xpow hb
  obtain ⟨g, _, rfl⟩ := exists_xpow hc
  simp only [fieldMul_xpow_xpow, Nat.add_assoc]

/-- Multiplying by a power of 2 is doubling. -/
theorem fieldMul_xpow (a : Byte) (e : Nat) : fieldMul a (xpow e) = xtimes e a := by
  rw [fieldMul_comm, fieldMul_xpow_left]

/-- A product is 0 only when a factor is. -/
theorem fieldMul_ne_zero {a b : Byte} (ha : a ≠ 0) (hb : b ≠ 0) : fieldMul a b ≠ 0 := by
  obtain ⟨e, _, rfl⟩ := exists_xpow ha
  obtain ⟨f, _, rfl⟩ := exists_xpow hb
  rw [fieldMul_xpow_xpow]
  exact xpow_ne_zero _

/-- Products by the same nonzero factor are equal only for equal elements. -/
theorem fieldMul_cancel {a b c : Byte} (hc : c ≠ 0) (h : fieldMul a c = fieldMul b c) : a = b := by
  by_contra ne
  have : a ^^^ b ≠ 0 := fun z => ne (by simpa using z)
  refine fieldMul_ne_zero this hc ?_
  rw [fieldMul_xor_left, h, BitVec.xor_self]
  rfl

/-! ### The primitives over built tables -/

namespace Tables.Built
variable {t : Tables} (h : t.Built)
include h

/-- A nonzero element is `ALOG` of its `LOG`, which is at most 254 (R41, R128). -/
theorem log_spec {a : Byte} (ha : a ≠ 0) : t.logAt a < 255 ∧ xpow (t.logAt a) = a := by
  obtain ⟨e, lt, rfl⟩ := exists_xpow ha
  rw [h.logAt_xpow lt]
  exact ⟨lt, rfl⟩

/-- `gf_mul` is the product (R123, R127). -/
theorem gfMul_eq (a b : Byte) : gfMul t a b = fieldMul a b := by
  unfold gfMul
  split
  · next z =>
    rcases z with rfl | rfl
    · rw [fieldMul_zero_left]
    · rw [fieldMul_zero_right]
  · next nz =>
    rw [not_or] at nz
    obtain ⟨la, ea⟩ := h.log_spec nz.1
    obtain ⟨lb, eb⟩ := h.log_spec nz.2
    rw [h.alogAt_eq (by omega), ← fieldMul_xpow_xpow, ea, eb]

/-- `gf_div` by a nonzero element is the quotient (R124). -/
theorem gfDiv_eq (a : Byte) {b : Byte} (hb : b ≠ 0) : ∃ c, gfDiv t a b = .ok c ∧ fieldMul c b = a := by
  unfold gfDiv
  rw [if_neg hb]
  split
  · next z => exact ⟨0, rfl, by rw [z, fieldMul_zero_left]⟩
  · next ha =>
    obtain ⟨la, ea⟩ := h.log_spec ha
    obtain ⟨lb, eb⟩ := h.log_spec hb
    refine ⟨_, rfl, ?_⟩
    conv_rhs => rw [← ea]
    rw [h.alogAt_eq (by omega), ← xpow_add_255 (t.logAt a)]
    nth_rewrite 2 [← eb]
    rw [fieldMul_xpow_xpow]
    congr 1
    omega

/-- `gf_div` of a product gives the factor back (R127). -/
theorem gfDiv_of_mul (c : Byte) {b : Byte} (hb : b ≠ 0) : gfDiv t (fieldMul c b) b = .ok c := by
  obtain ⟨d, eq, hd⟩ := h.gfDiv_eq (fieldMul c b) hb
  rw [eq, fieldMul_cancel hb hd]

end Tables.Built

end Sys2Proof.Machine
end

