-- ==== Sys2Proof/Laws/PerInstr.lean ====
section
/-! SUPPORT. Per instruction: the encoding of every command is a legal command word without operand bits. -/

namespace Sys2Proof.Laws.Encoding

/-- The command is well formed and its word has an assigned OPCODE in [7:0] and RSVD = 0 in [63:8] (R90, R91). -/
def Statement (i : Instr) : Prop :=
  i.wellFormed = true ∧ commandWordOk (encode i) = true ∧ (encode i).extractLsb' 8 56 = 0

theorem add : Statement .add := by unfold Statement; decide
theorem sub : Statement .sub := by unfold Statement; decide
theorem mul : Statement .mul := by unfold Statement; decide
theorem div : Statement .div := by unfold Statement; decide
theorem log : Statement .log := by unfold Statement; decide
theorem alog : Statement .alog := by unfold Statement; decide
theorem dbl : Statement .dbl := by unfold Statement; decide
theorem pqs : Statement .pqs := by unfold Statement; decide
theorem pqw : Statement .pqw := by unfold Statement; decide
theorem ponly : Statement .ponly := by unfold Statement; decide
theorem qs : Statement .qs := by unfold Statement; decide
theorem qw : Statement .qw := by unfold Statement; decide
theorem rec1 : Statement .rec1 := by unfold Statement; decide
theorem rec2 : Statement .rec2 := by unfold Statement; decide

end Sys2Proof.Laws.Encoding
end

