-- ==== Sys2Proof/Laws/Steps.lean ====
section
/-! SUPPORT. What a step can do, said once: the turns, the host's statements, the reset, and the execute step. -/

namespace Sys2Proof.Machine

variable {s t : State}

/-- A command in flight always completes: exec answers a next state (R230). -/
theorem exec_busy (i : Instr) {snap : Snapshot} (h : s.phase = .busy snap) : ∃ t, exec i s = .next t := by
  have run : ∀ body, ∃ t, runCommand s body = .next t := fun body => by
    rw [runCommand_busy h]
    cases body snap with
    | ok u => exact ⟨_, rfl⟩
    | error e => exact ⟨_, rfl⟩
  cases i
  case add => exact run fun snap => .ok { s with res := gfAdd snap.args.opa snap.args.opb }
  case sub => exact run fun snap => .ok { s with res := gfSub snap.args.opa snap.args.opb }
  case mul => exact run fun snap => .ok { s with res := gfMul s.tables snap.args.opa snap.args.opb }
  case alog => exact run fun snap => .ok { s with res := s.tables.alogAt snap.args.exponent }
  case dbl => exact run fun snap => .ok { s with wout := dbl64 snap.args.win }
  all_goals exact run _

/-- A completed command leaves the phase IDLE and DONE set (R230). -/
theorem exec_idle {i : Instr} (h : exec i s = .next t) : t.phase = .idle ∧ t.status.done = true := by
  obtain ⟨_, _, ⟨r, w, m, rfl⟩ | ⟨e, rfl⟩⟩ := exec_cases h
  · exact ⟨rfl, rfl⟩
  · exact ⟨rfl, rfl⟩

/-- The four things the block's own step can be (R97, R261). -/
theorem blockStep_cases (h : blockStep s = .next t) :
    (s.phase = .building ∧ t = s.endBuild) ∨ (s.phase = .idle ∧ t = s) ∨
      (∃ snap i, s.phase = .busy snap ∧ decode snap.cmd = .ok i ∧ exec i s = .next t) ∨
      (∃ snap e, s.phase = .busy snap ∧ decode snap.cmd = .error e ∧ t = s.complete .illegal) := by
  unfold blockStep at h
  split at h
  · next hp => cases h; exact .inl ⟨hp, rfl⟩
  · next hp => cases h; exact .inr (.inl ⟨hp, rfl⟩)
  · next snap hp =>
    split at h
    · next i hi => exact .inr (.inr (.inl ⟨snap, i, hp, hi, h⟩))
    · next e he => cases h; exact .inr (.inr (.inr ⟨snap, e, hp, he, rfl⟩))

/-- The execute step of a legal word is its command (R97). -/
theorem blockStep_command {snap : Snapshot} {i : Instr} (h : s.phase = .busy snap) (d : decode snap.cmd = .ok i) :
    blockStep s = exec i s := by
  unfold blockStep
  simp only [h, d]

/-- The execute step of an illegal word completes with ERR_ILLEGAL (R232). -/
theorem blockStep_illegal {snap : Snapshot} {e : DecodeError} (h : s.phase = .busy snap) (d : decode snap.cmd = .error e) :
    blockStep s = .next (s.complete .illegal) := by
  unfold blockStep
  simp only [h, d]

/-- The block's own step always answers a next state. -/
theorem blockStep_total (s : State) : ∃ t, blockStep s = .next t := by
  cases hp : s.phase with
  | building => exact ⟨s.endBuild, by unfold blockStep; simp only [hp]⟩
  | idle => exact ⟨s, by unfold blockStep; simp only [hp]⟩
  | busy snap =>
    cases d : decode snap.cmd with
    | ok i => rw [blockStep_command hp d]; exact exec_busy i hp
    | error e => exact ⟨_, blockStep_illegal hp d⟩

/-- A step on the block's turn is the block's own step (R97, R261). -/
theorem step_block (h : s.nextTurn = .block) : step s = blockStep s.popTurn := by
  unfold step takeTurn
  simp only [h]

/-- A step on the host's turn is the host's (R99). -/
theorem step_host (h : s.nextTurn = .host) : step s = hostStep s.popTurn := by
  unfold step takeTurn
  simp only [h]

/-- What a byte written by the host or another agent can do (R265). -/
theorem agentWrite_next {a : Nat} {v : Byte} (h : s.agentWrite a v = .next t) :
    a < s.params.memSize ∧ s.inFlightHolds a = false ∧ t = { s with mem := Memory.write s.mem a v } := by
  unfold State.agentWrite at h
  split at h
  · cases h
  · next lt =>
    split at h
    · cases h
    · next free => cases h; exact ⟨by omega, by simpa using free, rfl⟩

/-- What a host read of memory can do: it changes the host's view and the counter of free values (R74). -/
theorem hostMemRead_next {a : Nat} {n : ValueName} (h : s.hostMemRead a n = .next t) :
    ∃ v k, t = { s.hostSees n v with fresh := k } := by
  unfold State.hostMemRead at h
  split at h
  · cases h
  · split at h
    · cases h; exact ⟨_, _, rfl⟩
    · cases h; exact ⟨_, s.fresh, rfl⟩

/-- What a host statement can do: write a register, write a byte of memory, or change only the host and the counter of free
values. -/
theorem hostStmt_cases {x : HostStmt} (h : hostStmt x s = .next t) :
    (∃ r v, t = s.writeReg r v ∧
      (x = .wr r v ∨ x = .busWr (s.params.regBase + r.offset) 8 v)) ∨
    (∃ a v, a < s.params.memSize ∧ s.inFlightHolds a = false ∧ t = { s with mem := Memory.write s.mem a v }) ∨
    (∃ host k, t = { s with host := host, fresh := k }) := by
  cases x with
  | wr r v => cases h; exact .inl ⟨r, v, rfl, .inl rfl⟩
  | rd r n => cases h; exact .inr (.inr ⟨_, s.fresh, rfl⟩)
  | gotoIf c target =>
    simp only [hostStmt] at h
    cases h
    refine .inr (.inr ?_)
    split
    · exact ⟨_, s.fresh, rfl⟩
    · exact ⟨s.host, s.fresh, rfl⟩
  | busWr addr bytes v =>
    simp only [hostStmt] at h
    split at h
    · next off ho =>
      cases h
      have hoff : off = addr - s.params.regBase ∧ s.params.regBase ≤ addr ∧ bytes = 8 := by
        unfold windowOffset at ho
        split at ho
        · cases ho
        · split at ho
          · cases ho
          · cases ho; exact ⟨rfl, by omega, by omega⟩
      unfold State.writeOffset
      split
      · next r hr =>
        refine .inl ⟨r, v, rfl, .inr ?_⟩
        have : r.offset = off := by
          unfold Reg.ofOffset at hr
          split at hr <;> cases hr <;> rfl
        rw [this, hoff.1, hoff.2.2]
        congr 1
        omega
      · exact .inr (.inr ⟨s.host, s.fresh, rfl⟩)
    · cases h
  | busRd addr bytes n =>
    simp only [hostStmt] at h
    split at h
    · cases h; exact .inr (.inr ⟨_, s.fresh, rfl⟩)
    · cases h
  | memWr a v =>
    obtain ⟨lt, free, rfl⟩ := agentWrite_next h
    exact .inr (.inl ⟨a, v, lt, free, rfl⟩)
  | memRd a n =>
    obtain ⟨v, k, rfl⟩ := hostMemRead_next h
    exact .inr (.inr ⟨_, k, rfl⟩)

/-- What the host's turn can do. -/
theorem hostStep_cases (h : hostStep s = .next t) :
    t = s ∨ ∃ x, s.host.code[s.host.pc]? = some x ∧ hostStmt x s.advanceHost = .next t := by
  unfold hostStep at h
  split at h
  · cases h; exact .inl rfl
  · next x hx => exact .inr ⟨x, hx, h⟩

/-- The turn a step takes is the block's, the host's, another agent's write, or a reset (a bus error answers no state). -/
theorem step_cases (h : step s = .next t) :
    (s.nextTurn = .block ∧ blockStep s.popTurn = .next t) ∨ (s.nextTurn = .host ∧ hostStep s.popTurn = .next t) ∨
      (∃ a v, s.nextTurn = .agentWrite a v ∧ s.popTurn.agentWrite a v = .next t) ∨
      (s.nextTurn = .reset ∧ t = s.popTurn.pulseReset) := by
  unfold step takeTurn at h
  split at h
  · next e => exact .inl ⟨e, h⟩
  · next e => exact .inr (.inl ⟨e, h⟩)
  · next a v e => exact .inr (.inr (.inl ⟨a, v, e, h⟩))
  · next e => cases h; exact .inr (.inr (.inr ⟨e, rfl⟩))
  · cases h

/-! ### The bus transactions of a run (R99) -/

@[simp] theorem runTxns_zero (s : State) : runTxns 0 s = [] := rfl

/-- The first step's transaction, then those of the steps after it. -/
theorem runTxns_succ (k : Nat) (h : step s = .next t) : runTxns (k + 1) s = s.nextTxn.toList ++ runTxns k t := by
  simp only [runTxns, h]

/-- On the host's turn the transaction is that of its statement. -/
theorem nextTxn_host (h : s.nextTurn = .host) :
    s.nextTxn = (s.host.code[s.host.pc]?).bind (stmtTxn s.params) := by
  simp only [State.nextTxn, State.nextStmt, h]

/-- A turn that is not the host's puts nothing on the bus. -/
theorem nextTxn_other (h : s.nextTurn ≠ .host) : s.nextTxn = none := by
  unfold State.nextTxn State.nextStmt
  split
  · next e => exact absurd e h
  all_goals rfl

/-- What a statement leaves of the host: only a read names a value, only a goto moves the host, and the program stays. -/
theorem hostStmt_host {x : HostStmt} (h : hostStmt x s = .next t) :
    t.host.code = s.host.code ∧ t.params = s.params ∧
      ((∀ c l, x ≠ .gotoIf c l) → t.host.pc = s.host.pc) ∧
      (t.host.reads = s.host.reads ∨ ∃ n v, t.host.reads = (n, v) :: s.host.reads ∧
        ((∃ r, x = .rd r n) ∨ (∃ a b, x = .busRd a b n) ∨ ∃ a, x = .memRd a n)) := by
  have wr : ∀ r v, (s.writeReg r v).host = s.host ∧ (s.writeReg r v).params = s.params := fun r v => by
    obtain e | ⟨_, e⟩ | ⟨_, _, e⟩ | ⟨_, _, e⟩ := State.writeReg_cases s r v <;> rw [e] <;> exact ⟨rfl, rfl⟩
  cases x with
  | wr r v => cases h; rw [(wr r v).1, (wr r v).2]; exact ⟨rfl, rfl, fun _ => rfl, .inl rfl⟩
  | rd r n => cases h; exact ⟨rfl, rfl, fun _ => rfl, .inr ⟨n, _, rfl, .inl ⟨r, rfl⟩⟩⟩
  | gotoIf c l =>
    cases h
    split
    · exact ⟨rfl, rfl, fun ne => absurd rfl (ne c l), .inl rfl⟩
    · exact ⟨rfl, rfl, fun _ => rfl, .inl rfl⟩
  | busWr a b v =>
    simp only [hostStmt] at h
    split at h
    · next off _ =>
      cases h
      have w : (s.writeOffset off v).host = s.host ∧ (s.writeOffset off v).params = s.params := by
        unfold State.writeOffset
        split
        · exact wr _ v
        · exact ⟨rfl, rfl⟩
      rw [w.1, w.2]
      exact ⟨rfl, rfl, fun _ => rfl, .inl rfl⟩
    · cases h
  | busRd a b n =>
    simp only [hostStmt] at h
    split at h
    · cases h; exact ⟨rfl, rfl, fun _ => rfl, .inr ⟨n, _, rfl, .inr (.inl ⟨a, b, rfl⟩)⟩⟩
    · cases h
  | memWr a v =>
    obtain ⟨_, _, rfl⟩ := agentWrite_next h
    exact ⟨rfl, rfl, fun _ => rfl, .inl rfl⟩
  | memRd a n =>
    obtain ⟨v, k, rfl⟩ := hostMemRead_next h
    exact ⟨rfl, rfl, fun _ => rfl, .inr ⟨n, v, rfl, .inr (.inr ⟨a, rfl⟩)⟩⟩

/-- What a step of a program without gotos leaves of the host: it stays and nothing is put on the bus, or it passes its next
statement, whose transaction is put there. -/
theorem step_straight (ng : ∀ x ∈ s.host.code, ∀ c l, x ≠ .gotoIf c l) (h : step s = .next t) :
    t.host.code = s.host.code ∧ t.params = s.params ∧
      ((t.host.pc = s.host.pc ∧ s.nextTxn = none) ∨
        ∃ x, s.host.code[s.host.pc]? = some x ∧ t.host.pc = s.host.pc + 1 ∧ s.nextTxn = stmtTxn s.params x) := by
  obtain ⟨e, b⟩ | ⟨e, b⟩ | ⟨a, v, e, b⟩ | ⟨e, b⟩ := step_cases h
  · have none := nextTxn_other (s := s) (by simp [e])
    obtain ⟨_, rfl⟩ | ⟨_, rfl⟩ | ⟨_, _, _, _, b⟩ | ⟨_, _, _, _, rfl⟩ := blockStep_cases b
    · exact ⟨rfl, rfl, .inl ⟨rfl, none⟩⟩
    · exact ⟨rfl, rfl, .inl ⟨rfl, none⟩⟩
    · obtain ⟨_, _, ⟨_, _, _, rfl⟩ | ⟨_, rfl⟩⟩ := exec_cases b <;> exact ⟨rfl, rfl, .inl ⟨rfl, none⟩⟩
    · exact ⟨rfl, rfl, .inl ⟨rfl, none⟩⟩
  · rw [nextTxn_host e]
    rw [step_host e] at h
    cases q : s.host.code[s.host.pc]? with
    | none =>
      simp only [hostStep, State.popTurn, q] at h
      cases h
      exact ⟨rfl, rfl, .inl ⟨rfl, rfl⟩⟩
    | some x =>
      simp only [hostStep, State.popTurn, q] at h
      obtain ⟨code, params, pc, _⟩ := hostStmt_host h
      exact ⟨code, params, .inr ⟨x, rfl, pc (ng x (List.mem_of_getElem? q)), rfl⟩⟩
  · obtain ⟨_, _, rfl⟩ := agentWrite_next b
    exact ⟨rfl, rfl, .inl ⟨rfl, nextTxn_other (by simp [e])⟩⟩
  · subst b; exact ⟨rfl, rfl, .inl ⟨rfl, nextTxn_other (by simp [e])⟩⟩

/-! ### The regions in flight and the reset -/

/-- The regions in flight are those the decoded command names (R69, R265). -/
theorem inFlight_busy {snap : Snapshot} {i : Instr} (h : s.phase = .busy snap) (d : decode snap.cmd = .ok i) :
    s.inFlight = regionsOf s.params i snap.args := by
  unfold State.inFlight
  simp only [h, d]

/-- No region is in flight when no command is. -/
theorem inFlight_not_busy (h : ∀ snap, s.phase ≠ .busy snap) : s.inFlight = [] := by
  unfold State.inFlight
  split
  · rfl
  · rfl
  · next snap hp => exact absurd hp (h snap)

/-- What scribbling over a region can do to memory: writes of free values inside the region and the space, one fresh value
each. -/
theorem scribble_rule (p : Params) (x : Region) (J : Memory × Nat → Prop) {mk : Memory × Nat} (start : J mk)
    (write : ∀ j < x.len, x.base + j < p.memSize → ∀ mk, J mk →
      J (Memory.write mk.1 (x.base + j) (Config.freeByte mk.2), mk.2 + 1)) : J (scribble p x mk) :=
  forUp_rule (fun _ mk => J mk) x.len start fun j hj mk h => by
    split
    · next lt => exact write j hj lt mk h
    · exact h

/-- What scribbling over the written regions of a list can do. -/
theorem scribbleAll_rule (p : Params) (J : Memory × Nat → Prop) (rs : List Region)
    (write : ∀ x ∈ rs, x.access ≠ .r → ∀ j < x.len, x.base + j < p.memSize → ∀ mk, J mk →
      J (Memory.write mk.1 (x.base + j) (Config.freeByte mk.2), mk.2 + 1)) :
    ∀ {mk : Memory × Nat}, J mk → J (scribbleAll p rs mk) := by
  induction rs with
  | nil => intro mk h; exact h
  | cons x rest ih =>
    intro mk h
    refine ih (fun y hy => write y (by simp [hy])) ?_
    split
    · next hw => exact scribble_rule p x J h (write x (by simp) ((Region.written_iff x).1 hw))
    · exact h

end Sys2Proof.Machine
end

