-- ==== Sys2Proof/Tests/Slice0.lean ====
section
/-! SUPPORT. Tests of single steps with the results of 95_test_vectors.md, decoding of words written out from R91, terms that
are not well formed, and for each statement with hypotheses a state and operands that meet them. -/

namespace Sys2Proof.Tests

open Sys2Proof.Machine

set_option maxRecDepth 30000

/-! ### Helpers -/

/-- A machine with the default `ADDR_W` and the COPY seed. -/
def wide : Params := { addrW := 64, regBase := 0x10000, ponlySeed := .copy }

/-- A machine with `ADDR_W` = 16 and the ACCUMULATE seed. -/
def narrow : Params := { addrW := 16, regBase := 0, ponlySeed := .accumulate }

/-- The start state of section 7: the build ended, with arguments and memory. -/
def ready (p : Params) (a : ArgRegs) (m : Memory) : State := { State.reset.endBuild with params := p, args := a, mem := m }

/-- A command of that machine in flight. -/
def flying (p : Params) (i : Instr) (a : ArgRegs) (m : Memory) : State :=
  { ready p a m with phase := .busy { cmd := encode i, args := a } }

/-- What one step leaves, as far as `view` shows it. -/
def seen {α : Type} (view : State → α) (o : Host.Outcome State Fault Refusal) : Option α :=
  match o with
  | .next t => some (view t)
  | .fault _ => none
  | .refused _ => none

/-- RES and STATUS after the command word `w` runs on operands `a` and `b`, RES holding 0x77 before. -/
def scalar (w : Nat) (a b : Byte) : Option (Byte × Word) :=
  seen (fun t => (t.res, t.statusWord))
    (step (State.withFetchWord { ready wide { ArgRegs.zero with opa := a, opb := b } [] with res := 0x77 } 64 w))

/-- WOUT and STATUS after DBL of `x`. -/
def doubled (x : Word) : Option (Word × Word) :=
  seen (fun t => (t.wout, t.statusWord)) (step (State.withFetchWord (ready wide { ArgRegs.zero with win := x } []) 64 0x07))

/-- STATUS, and `n` bytes from each of two addresses, after the command word `w` runs. -/
def onMemory (p : Params) (w : Nat) (a : ArgRegs) (m : Memory) (at1 at2 n : Nat) : Option (Word × List Byte × List Byte) :=
  seen (fun t => (t.statusWord, (List.range n).map (fun j => Memory.read t.mem (at1 + j)),
    (List.range n).map fun j => Memory.read t.mem (at2 + j))) (step (State.withFetchWord (ready p a m) 64 w))

/-- STATUS after the command word `w` runs on zero memory. -/
def statusOf (p : Params) (w : Nat) (a : ArgRegs) : Option Word :=
  seen State.statusWord (step (State.withFetchWord (ready p a []) 64 w))

/-- The buffers used by the tests: stripe at 0x100, P at 0x200, Q at 0x300, list at 0x400, partials at 0x500 and 0x600,
outputs at 0x700 and 0x800. -/
def buffers (w : Byte) (n : BitVec 32) : ArgRegs :=
  { ArgRegs.zero with
    dAddr := 0x100, pAddr := 0x200, qAddr := 0x300, coefAddr := 0x400, ipAddr := 0x500, iqAddr := 0x600
    out1Addr := 0x700, out2Addr := 0x800, width := w, blkSize := n }

/-- The scenario stripe of section 4. -/
def scenario : List Byte := List.replicate 8 1 ++ List.replicate 8 2 ++ List.replicate 8 3

/-- The D4 stripe of section 4. -/
def d4 : List Byte := (List.range 32).map fun k => BitVec.ofNat 8 (16 * (k / 8) + k % 8 + 1)

/-- Memory that holds lists of bytes from given addresses. -/
def holding (l : List (Nat × List Byte)) : Memory := l.foldl (fun m x => Memory.place wide.memSize m x.1 x.2) []

/-! ### Decoding -/

/-- 0b00000011 with 56 zero bits above it is MUL, one per family beside it; RSVD bit 8 set makes an illegal word (R91). -/
theorem test_decode_families :
    (decode 0b0000000000000000000000000000000000000000000000000000000000000011 = .ok .mul ∧
      decode 0b0000000000000000000000000000000000000000000000000000000000010001 = .ok .pqw ∧
      decode 0b0000000000000000000000000000000000000000000000000000000000100001 = .ok .rec2) ∧
    decode 0b0000000000000000000000000000000000000000000000000000000100000011 = .error .reservedBits := by decide

theorem test_decode_field_words :
    [decodeTableWord 64 0x01, decodeTableWord 64 0x02, decodeTableWord 64 0x03, decodeTableWord 64 0x04,
      decodeTableWord 64 0x05, decodeTableWord 64 0x06, decodeTableWord 64 0x07] =
    [some .add, some .sub, some .mul, some .div, some .log, some .alog, some .dbl] := by decide

theorem test_decode_memory_words :
    [decodeTableWord 64 0x10, decodeTableWord 64 0x11, decodeTableWord 64 0x12, decodeTableWord 64 0x13,
      decodeTableWord 64 0x14, decodeTableWord 64 0x20, decodeTableWord 64 0x21, decodeTableWord 64 0x22] =
    [some .pqs, some .pqw, some .ponly, some .qs, some .qw, some .rec1, some .rec2, none] := by decide

/-! ### Terms that are not well formed -/

theorem test_wellFormed_command_words :
    commandWordOk 0x103 = false ∧ commandWordOk 0x08 = false ∧ commandWordOk 0x00 = false ∧ commandWordOk 0x21 = true := by
  decide

theorem test_wellFormed_bus_access :
    (HostStmt.busWr 0x10000 4 0).wellFormed wide = false ∧ (HostStmt.busRd 0x10004 8 0).wellFormed wide = false ∧
      (HostStmt.busRd 0x10100 8 0).wellFormed wide = false ∧ (HostStmt.busRd 0xFFF8 8 0).wellFormed wide = false ∧
      (HostStmt.busRd 0x100F8 8 0).wellFormed wide = true := by decide

theorem test_wellFormed_memory_address :
    (HostStmt.memRd 0x10000 0).wellFormed narrow = false ∧ (HostStmt.memWr 0x10000 1).wellFormed narrow = false ∧
      (HostStmt.memWr 0xFFFF 1).wellFormed narrow = true := by decide

theorem test_wellFormed_program :
    programOk wide [.rd .status 0, .gotoIf .always 3] = false ∧ programOk wide [.rd .status 0, .gotoIf .always 2] = true ∧
      programOk wide [.busRd 0x10001 8 0] = false := by decide

theorem test_sourceOk :
    sourceOk narrow [.mem 0xFFFF [1, 2]] = false ∧ sourceOk narrow [.mem 0xFFFF [1], .mem 0x10000 []] = true ∧
      sourceOk narrow [.branch .always 1, .label 0] = false ∧ sourceOk narrow [.branch .always 1, .label 1] = true ∧
      sourceOk narrow [.stmt (.memRd 0x10000 0)] = false ∧ sourceOk narrow [.branch (.not (.field 0 7 8 1)) 1, .label 1] = false ∧
      sourceOk narrow [.label 1, .pseudo .clrdrop, .label 1] = false := by decide

/-! ### Scalar commands (section 2 and 3 of the vectors) -/

theorem test_add_VF1 : scalar 0x01 0x53 0xCA = some (0x99, 0x0005) := by decide
theorem test_sub_VF2 : scalar 0x02 0x53 0xCA = some (0x99, 0x0005) := by decide
theorem test_mul_VF4 : scalar 0x03 0x53 0xCA = some (0x8F, 0x0005) := by decide
theorem test_mul_VF7 : scalar 0x03 0x8E 0x8E = some (0x47, 0x0005) := by decide
theorem test_div_VF17 : scalar 0x04 0x53 0xCA = some (0x6D, 0x0005) := by decide
theorem test_div_VF23 : scalar 0x04 0x00 0x00 = some (0x77, 0x050D) := by decide
theorem test_log_VF28 : scalar 0x05 0xFF 0x00 = some (0xAF, 0x0005) := by decide
theorem test_log_VF33 : scalar 0x05 0x00 0x01 = some (0x77, 0x050D) := by decide
theorem test_alog_VF40 : scalar 0x06 0xC8 0x00 = some (0x1C, 0x0005) := by decide
theorem test_alog_VF42 : scalar 0x06 0xFF 0x00 = some (0x01, 0x0005) := by decide
theorem test_dbl_VD8 : doubled 0x0123456789ABCDEF = some (0x02468ACE0F4B87C3, 0x0005) := by decide
theorem test_dbl_VD9 : doubled 0xFEDCBA9876543210 = some (0xE1A5692DECA86420, 0x0005) := by decide

/-- V-E3: RSVD not 0. -/
theorem test_illegal_VE3 : scalar 0x103 0x53 0xCA = some (0x77, 0x010D) := by decide

/-- V-S3: entries the source gives. -/
theorem test_tables_VS3 :
    [0, 1, 2, 7, 8, 254, 255, 508, 511].map (Tables.build (Tables.unspecified 0)).alogAt =
      [0x01, 0x02, 0x04, 0x80, 0x1D, 0x8E, 0x01, 0x47, 0x02] := by decide

/-! ### Memory commands (sections 4 and 5) -/

theorem test_pqs_VP2 :
    onMemory wide 0x10 (buffers 3 8)
      (holding [(0x100, scenario), (0x200, List.replicate 8 0xFF), (0x300, List.replicate 8 0x01)]) 0x200 0x300 8 =
    some (0x0005, List.replicate 8 0xFF, List.replicate 8 0x08) := by decide

theorem test_pqs_VP17 :
    onMemory wide 0x10 (buffers 3 3) (holding [(0x100, [0x01, 0x02, 0x03, 0x10, 0x20, 0x30, 0xFF, 0x80, 0x00])])
      0x200 0x300 3 = some (0x0005, [0xEE, 0xA2, 0x33], [0xFA, 0x78, 0x63]) := by decide

theorem test_pqw_VP4 :
    onMemory wide 0x11 (buffers 4 8)
      (holding [(0x100, d4), (0x200, List.replicate 8 0xAA), (0x300, List.replicate 8 0xBB)]) 0x200 0x300 8 =
    some (0x0005, List.replicate 8 0x00, [0x32, 0x23, 0x2C, 0x01, 0x0E, 0x1F, 0x10, 0x45]) := by decide

theorem test_pqw_VP5 :
    onMemory wide 0x11 (buffers 1 8) (holding [(0x100, [0x21, 0x22, 0x23, 0x24, 0x25, 0x26, 0x27, 0x28])]) 0x200 0x300 8 =
    some (0x0005, [0x21, 0x22, 0x23, 0x24, 0x25, 0x26, 0x27, 0x28], [0x21, 0x22, 0x23, 0x24, 0x25, 0x26, 0x27, 0x28]) := by
  decide

theorem test_ponly_VP7_copy :
    onMemory wide 0x12 (buffers 4 8) (holding [(0x100, d4), (0x200, List.replicate 8 0xAA)]) 0x200 0x300 8 =
    some (0x0005, List.replicate 8 0x00, List.replicate 8 0x00) := by decide

theorem test_ponly_VP7_accumulate :
    onMemory narrow 0x12 (buffers 4 8) (holding [(0x100, d4), (0x200, List.replicate 8 0xAA)]) 0x200 0x300 8 =
    some (0x0005, List.replicate 8 0xAA, List.replicate 8 0x00) := by decide

theorem test_qs_VP8 :
    onMemory wide 0x13 (buffers 2 8)
      (holding [(0x100, List.replicate 8 1 ++ List.replicate 8 3), (0x400, [0x00, 0x02])]) 0x300 0x200 8 =
    some (0x0005, List.replicate 8 0x0D, List.replicate 8 0x00) := by decide

theorem test_qs_VP11 :
    onMemory wide 0x13 (buffers 4 8) (holding [(0x100, d4), (0x400, [0x03, 0x02, 0x01, 0x00])]) 0x300 0x200 8 =
    some (0x0005, [0x3F, 0x2E, 0x21, 0x0C, 0x03, 0x12, 0x1D, 0x48], List.replicate 8 0x00) := by decide

theorem test_qw_VP9 :
    onMemory wide 0x14 (buffers 3 8) (holding [(0x100, scenario), (0x300, List.replicate 8 0xCC)]) 0x300 0x200 8 =
    some (0x0005, List.replicate 8 0x09, List.replicate 8 0x00) := by decide

theorem test_qw_VP14 :
    onMemory wide 0x14 (buffers 0 8) (holding [(0x300, List.replicate 8 0xBB)]) 0x300 0x200 8 =
    some (0x0005, List.replicate 8 0xBB, List.replicate 8 0x00) := by decide

theorem test_rec1_VR11 :
    onMemory wide 0x20 { buffers 0 3 with idx1 := 1 }
      (holding [(0x300, [0xFA, 0x78, 0x63]), (0x600, [0xDA, 0x38, 0x03])]) 0x700 0x800 3 =
    some (0x0005, [0x10, 0x20, 0x30], [0x00, 0x00, 0x00]) := by decide

theorem test_rec1_VR3 :
    onMemory wide 0x20 { buffers 0 1 with idx1 := 0xFF } (holding [(0x300, [0x37])]) 0x700 0x800 1 =
    some (0x0005, [0x37], [0x00]) := by decide

theorem test_rec2_VR10 :
    onMemory wide 0x21 { buffers 0 3 with idx1 := 0, idx2 := 2 }
      (holding [(0x200, [0xEE, 0xA2, 0x33]), (0x300, [0xFA, 0x78, 0x63]), (0x500, [0x10, 0x20, 0x30]),
        (0x600, [0x20, 0x40, 0x60])]) 0x700 0x800 3 =
    some (0x0005, [0x01, 0x02, 0x03], [0xFF, 0x80, 0x00]) := by decide

/-- V-R8: the coefficients a and b of (1, 0), and that 255 acts as 0. -/
theorem test_rec2_VR8 :
    rec2Coeffs (Tables.build (Tables.unspecified 0)) 1 0 = .ok (0xF4, 0xF4) ∧
      rec2Coeffs (Tables.build (Tables.unspecified 0)) 255 1 = .ok (0xF5, 0xF4) := by decide

/-! ### Errors and registers (section 6) -/

theorem test_shape_VE4 :
    statusOf wide 0x12 { ArgRegs.zero with dAddr := 0x1000, pAddr := 0x2000, qAddr := 0x2100, blkSize := 12, width := 2 } =
    some 0x020D := by decide

theorem test_range_VE6 :
    statusOf wide 0x10
      { ArgRegs.zero with pAddr := 0xFFFFFFFFFFFFFFFC, qAddr := 0x2100, dAddr := 0x1000, blkSize := 8, width := 2 } =
    some 0x030D := by decide

theorem test_range_VE7 :
    statusOf wide 0x11 { ArgRegs.zero with pAddr := 0xFFFFFFFFFFFFFFF8, qAddr := 0x2000, blkSize := 8 } = some 0x0005 := by
  decide

theorem test_range_VE8 :
    statusOf narrow 0x11 { ArgRegs.zero with dAddr := 0xFFF8, pAddr := 0x1000, qAddr := 0x2000, blkSize := 8, width := 1 } =
      some 0x0005 ∧
    statusOf narrow 0x11 { ArgRegs.zero with dAddr := 0xFFF9, pAddr := 0x1000, qAddr := 0x2000, blkSize := 8, width := 1 } =
      some 0x030D := by decide

theorem test_overlap_VE10 :
    statusOf wide 0x10 { ArgRegs.zero with dAddr := 0x1000, pAddr := 0x2000, qAddr := 0x2004, blkSize := 12, width := 2 } =
    some 0x040D := by decide

theorem test_overlap_VE11 :
    statusOf wide 0x21 { ArgRegs.zero with
      pAddr := 0x1000, ipAddr := 0x1000, qAddr := 0x1000, iqAddr := 0x1000, out1Addr := 0x2000, out2Addr := 0x2008
      blkSize := 8, idx2 := 1 } = some 0x0005 := by decide

theorem test_empty_VE13 :
    statusOf wide 0x10 { ArgRegs.zero with pAddr := 0xFFFFFFFFFFFFFFFF, qAddr := 0xFFFFFFFFFFFFFFFF, width := 5 } =
    some 0x0005 := by decide

theorem test_order_VE15 :
    statusOf wide 0x11
      { ArgRegs.zero with pAddr := 0xFFFFFFFFFFFFFFFC, qAddr := 0x1000, blkSize := 8, width := 1 } = some 0x030D := by decide

theorem test_order_VE16 :
    statusOf wide 0x21 { ArgRegs.zero with out1Addr := 0x1000, out2Addr := 0x1004, blkSize := 8, idx1 := 5, idx2 := 5 } =
    some 0x040D := by decide

theorem test_domain_VE17 : statusOf wide 0x21 { ArgRegs.zero with idx2 := 255 } = some 0x050D := by decide

theorem test_masked_VE9 :
    ((ready narrow ArgRegs.zero []).writeReg .dAddr 0x1FFF8).readReg .dAddr = 0xFFF8 := by decide

/-- V-E19, V-E20: a CMD write during the build is dropped, and a STATUS write clears DROPPED only with bit 4. -/
theorem test_dropped_VE20 :
    (State.reset.writeReg .cmd 0x01).statusWord = 0x0010 ∧
      ((State.reset.writeReg .cmd 0x01).writeReg .status 0xFFFFFFFFFFFFFFEF).statusWord = 0x0010 ∧
      ((State.reset.writeReg .cmd 0x01).writeReg .status 0x10).statusWord = 0x0000 := by decide

/-- V-E22, first part: with MUL in flight the ADD of the host is dropped when the host moves first. -/
theorem test_issue_VE22 :
    seen (fun t => (t.statusWord, t.res))
      (step { flying wide .mul { ArgRegs.zero with opa := 2, opb := 3 } [] with
        agenda := [.host], host := { code := [.wr .cmd 0x01], pc := 0, reads := [] } }) = some (0x0013, 0x00) ∧
    seen (fun t => (t.statusWord, t.res)) (step (flying wide .mul { ArgRegs.zero with opa := 2, opb := 3 } [])) =
      some (0x0005, 0x06) := by decide

/-- The start of L3-1 as statements: labels are positions, and a branch forward skips a statement. -/
theorem test_assemble :
    assemble [.pseudo .waitready, .pseudo (.gf .mul 0x53 0xCA 1), .branch (.bit 0 3 true) 0, .stmt (.rd .res 2), .label 0,
      .pseudo (.cmd .pqw)] =
    [.rd .status 0, .gotoIf (.bit 0 0 false) 0, .wr .opa 0x53, .wr .opb 0xCA, .wr .cmd 0x03, .rd .status 0,
      .gotoIf (.bit 0 1 true) 5, .rd .res 1, .gotoIf (.bit 0 3 true) 10, .rd .res 2, .wr .cmd 0x11] := by decide

/-- After `rd STATUS -> 0 ; rd RES -> 1` a condition on `0[15:8]` sees the STATUS read, not the latest value. -/
theorem test_condition_on_an_earlier_value :
    Cond.holds [(1, 0x77), (0, 0x050D)] (.field 0 15 8 5) = true ∧ Cond.holds [(1, 0x77), (0, 0x050D)] (.bit 0 1 true) = false ∧
      Cond.holds [(1, 0x77), (0, 0x050D)] (.and (.bit 1 1 true) (.not (.same 0 1))) = true := by decide

/-- A `mem` line's bytes past the space are left out (log 25), and a later line's byte stands (log 27). -/
theorem test_mem_line : startMemory narrow [.mem 0xFFFF [1, 2]] [] = [(0xFFFF, 1)] ∧
    startMemory wide [.mem 0xFFFF [1, 2]] [] = [(0xFFFF, 1), (0x10000, 2)] ∧
    startMemory wide [.mem 0x10 [1, 2], .mem 0x11 [3]] [] = [(0x10, 1), (0x11, 3)] := by decide

/-- V-F4 by hand: OPA at 0x18, OPB at 0x20, MUL in CMD at 0x10 (R21, R99). -/
theorem test_listed_transactions :
    listedTxns wide [.wr .opa 0x53, .memWr 0 1, .busWr 0x10020 8 0xCA, .wr .cmd (encode .mul), .rd .res 1] =
      [.write 0x18 0x53, .write 0x20 0xCA, .write 0x10 0x03, .read 0x28] := by decide

/-- One step of a run: the host's read of STATUS is on the bus, the block's own step is not. -/
theorem test_run_transactions :
    runTxns 1 { ready wide ArgRegs.zero [] with host := { code := [.rd .status 0], pc := 0, reads := [] } } = [.read 0x08] ∧
      runTxns 1 (flying wide .add ArgRegs.zero []) = [] := by decide

/-! ### Witnesses: for each statement with hypotheses, a state and operands that meet them, clause by clause

The numbers are those of OBLIGATIONS.json. -/

/-- The tables of `ready` and `flying` are built. -/
theorem built (p : Params) (i : Instr) (a : ArgRegs) (m : Memory) :
    (ready p a m).tables.Built ∧ (flying p i a m).tables.Built := ⟨Tables.build_built _, Tables.build_built _⟩

/-- What every execute statement assumes of its state: a command in flight, built tables, canonical memory, the block to
move. -/
def Executes (s : State) (snap : Snapshot) (i : Instr) : Prop :=
  s.phase = .busy snap ∧ decode snap.cmd = .ok i ∧ s.nextTurn = .block ∧ s.tables.Built ∧ Memory.wf s.mem = true

theorem flying_executes (p : Params) (i : Instr) (a : ArgRegs) (m : Memory) (h : Memory.wf m = true) :
    Executes (flying p i a m) { cmd := encode i, args := a } i :=
  ⟨rfl, by show decode (encode i) = .ok i; cases i <;> decide, rfl, (built p i a m).2, h⟩

/-- The command in flight whose word is `w`, on zero arguments. -/
def flyingWord (w : Word) : State := { ready wide ArgRegs.zero [] with phase := .busy { cmd := w, args := ArgRegs.zero } }

theorem witness_StepRunsTheDecodedCommand :
    Executes (flying wide .mul ArgRegs.zero []) { cmd := encode .mul, args := ArgRegs.zero } .mul :=
  flying_executes wide .mul ArgRegs.zero [] rfl

theorem flyingWord_busy (w : Word) :
    (flyingWord w).phase = .busy { cmd := w, args := ArgRegs.zero } ∧ (flyingWord w).nextTurn = .block := ⟨rfl, rfl⟩

/-- Both ways a word is illegal, RSVD at its lowest and highest bit, OPCODE beside an assigned one. -/
theorem witness_IllegalWordsCompleteWithErrIllegal :
    (∀ w : Word, (flyingWord w).phase = .busy { cmd := w, args := ArgRegs.zero } ∧ (flyingWord w).nextTurn = .block) ∧
      ((0x103 : Word).toNat / 256 ≠ 0 ∧ (0x8000000000000003 : Word).toNat / 256 ≠ 0) ∧
      (0x00 : Word).toNat % 256 ∉ assignedOpcodes ∧ (0xFF : Word).toNat % 256 ∉ assignedOpcodes :=
  ⟨flyingWord_busy, by decide, by decide⟩

/-- A legal and an illegal word in flight. -/
theorem witness_EveryAcceptedCommandCompletes :
    Executes (flying wide .qs ArgRegs.zero []) { cmd := encode .qs, args := ArgRegs.zero } .qs ∧
      (flyingWord 0x103).phase = .busy { cmd := 0x103, args := ArgRegs.zero } ∧ (flyingWord 0x103).nextTurn = .block :=
  ⟨flying_executes wide .qs ArgRegs.zero [] rfl, rfl, rfl⟩

/-- ADD, SUB, MUL, ALOG and DBL in flight over built tables. -/
theorem witness_scalar_commands :
    ∀ i ∈ scalarCommands, ∃ s snap, Executes s snap i :=
  fun i _ => ⟨_, _, flying_executes wide i { ArgRegs.zero with opa := 0xFF, opb := 0x01, win := 0x80 } [] rfl⟩

/-- DIV by the least divisor and by 0. -/
theorem witness_DivGivesTheFieldQuotient :
    (∃ s snap, Executes s snap .div ∧ snap.args.opb ≠ 0) ∧ ∃ s snap, Executes s snap .div ∧ snap.args.opb = 0 :=
  ⟨⟨_, _, flying_executes wide .div { ArgRegs.zero with opb := 1 } [] rfl, by decide⟩,
    ⟨_, _, flying_executes wide .div ArgRegs.zero [] rfl, by decide⟩⟩

/-- LOG of the element with the largest exponent and of 0. -/
theorem witness_LogGivesTheExponent :
    (∃ s snap, Executes s snap .log ∧ snap.args.opa = 0x8E ∧ snap.args.opa ≠ 0) ∧
      ∃ s snap, Executes s snap .log ∧ snap.args.opa = 0 :=
  ⟨⟨_, _, flying_executes wide .log { ArgRegs.zero with opa := 0x8E } [] rfl, rfl, by decide⟩,
    ⟨_, _, flying_executes wide .log ArgRegs.zero [] rfl, rfl⟩⟩

/-- Built tables and nonzero elements with the least and the largest exponent; lanes 0 and 7; entries 0, 254 and 511. -/
theorem witness_field_statements :
    ∃ t : Tables, t.Built ∧ (0x8E : Byte) ≠ 0 ∧ (0x01 : Byte) ≠ 0 ∧ (0 : Nat) < 8 ∧ (7 : Nat) < 8 ∧ (254 : Nat) ≤ 254 ∧
      (511 : Nat) ≤ 511 :=
  ⟨(Tables.unspecified 0).build, Tables.build_built _, by decide, by decide, by omega, by omega, by omega, by omega⟩

/-- Arguments that pass the checks of every memory command. -/
theorem buffers_pass (i : Instr) (w : Byte) (n : BitVec 32)
    (h : (w, n) ∈ [((0 : Byte), (8 : BitVec 32)), (1, 8), (2, 8), (3, 0)]) : ChecksPass wide i (buffers w n) := by
  refine (precheck_ok_iff _ _ _).1 ?_
  simp only [List.mem_cons, List.not_mem_nil, or_false, Prod.mk.injEq] at h
  rcases h with ⟨rfl, rfl⟩ | ⟨rfl, rfl⟩ | ⟨rfl, rfl⟩ | ⟨rfl, rfl⟩ <;> cases i <;> decide

/-- Every memory command in flight with its checks passed, on stripes of width 0, 1 and 2, with its first and last byte. -/
theorem witness_memory_commands :
    ∀ i ∈ memoryCommands, ∀ w ∈ [(0 : Byte), 1, 2], ∃ s snap, Executes s snap i ∧ s.params = wide ∧
      ChecksPass s.params i snap.args ∧ snap.args.w = w.toNat ∧ 0 < snap.args.n ∧ 7 < snap.args.n :=
  fun i _ w hw => by
    have h : (w, (8 : BitVec 32)) ∈ [((0 : Byte), (8 : BitVec 32)), (1, 8), (2, 8), (3, 0)] := by
      revert w hw; decide
    exact ⟨_, _, flying_executes wide i (buffers w 8) [] rfl, rfl, buffers_pass i w 8 h, rfl, by show 0 < 8; omega,
      by show 7 < 8; omega⟩

/-- PONLY under the other seed, its checks passed. -/
theorem witness_PonlyFoldsByTheSeed_accumulate :
    ∃ s snap, Executes s snap .ponly ∧ ChecksPass s.params .ponly snap.args ∧ 1 ≤ snap.args.w ∧
      s.params.ponlySeed = .accumulate :=
  ⟨_, _, flying_executes narrow .ponly (buffers 1 8) [] rfl, (precheck_ok_iff _ _ _).1 (by decide), by decide, rfl⟩

/-- QS with the list 0, 1: entry `i` is `i`. -/
theorem witness_QsUsesTheListedExponents :
    ∃ s snap, Executes s snap .qs ∧ ChecksPass s.params .qs snap.args ∧ snap.args.w = 2 ∧
      ∀ i < snap.args.w, (Memory.read s.mem (snap.args.coef + i)).toNat = i :=
  ⟨_, _, flying_executes wide .qs (buffers 2 8) [(0x401, 1)] (by decide), buffers_pass .qs 2 8 (by decide), rfl, by decide⟩

/-- PQW from zero P and Q buffers over a stripe of ones. -/
theorem witness_ScalarAndWordParityAgree :
    ∃ s snap, Executes s snap .pqw ∧ ChecksPass s.params .pqw snap.args ∧ 1 ≤ snap.args.w ∧
      ∀ j < snap.args.n, Memory.read s.mem (snap.args.p + j) = 0 ∧ Memory.read s.mem (snap.args.q + j) = 0 :=
  ⟨_, _, flying_executes wide .pqw (buffers 1 8) [(0x100, 1), (0x107, 1)] (by decide), buffers_pass .pqw 1 8 (by decide),
    by decide, by decide⟩

/-- REC2 on distinct positions, and on each kind of equal ones. -/
theorem witness_Rec2_positions :
    (∃ s snap, Executes s snap .rec2 ∧ ChecksPass s.params .rec2 snap.args ∧
      snap.args.idx1.toNat % 255 ≠ snap.args.idx2.toNat % 255) ∧
    ∀ ij ∈ [((7 : Byte), (7 : Byte)), (0, 255), (255, 0)], ∃ s snap, Executes s snap .rec2 ∧
      ChecksPass s.params .rec2 snap.args ∧ snap.args.idx1 = ij.1 ∧ snap.args.idx2 = ij.2 :=
  ⟨⟨_, _, flying_executes wide .rec2 { buffers 0 8 with idx1 := 254, idx2 := 255 } [] rfl,
      (precheck_ok_iff _ _ _).1 (by decide), by decide⟩,
    fun ij h => ⟨_, _, flying_executes wide .rec2 { buffers 0 8 with idx1 := ij.1, idx2 := ij.2 } [] rfl,
      (precheck_ok_iff _ _ _).1 (by
        simp only [List.mem_cons, List.not_mem_nil, or_false] at h
        rcases h with rfl | rfl | rfl <;> decide), rfl, rfl⟩⟩

/-- A stripe of two one-byte blocks, 0x53 and 0xCA. -/
def pair (i _j : Nat) : Byte := if i = 0 then 0x53 else 0xCA

/-- The full Q of `pair` is 0x53 ^ 2*0xCA = 0xDA, and without block 1 it is 0x53. -/
theorem witness_SingleLossIsRecovered :
    ∃ s snap, Executes s snap .rec1 ∧ ChecksPass s.params .rec1 snap.args ∧ snap.args.n = 1 ∧ snap.args.idx1.toNat = 1 ∧
      (∀ j < snap.args.n, Memory.read s.mem (snap.args.q + j) = xorSum 2 fun i => fieldMul (pair i j) (xpow i)) ∧
      ∀ j < snap.args.n, Memory.read s.mem (snap.args.iq + j) =
        xorSum 2 fun i => if i = 1 then 0 else fieldMul (pair i j) (xpow i) :=
  ⟨_, _, flying_executes wide .rec1 { buffers 0 1 with idx1 := 1 } [(0x300, 0xDA), (0x600, 0x53)] (by decide),
    (precheck_ok_iff _ _ _).1 (by decide), rfl, rfl, by decide, by decide⟩

/-- Both blocks of `pair` lost, named in falling order: P is 0x99, Q is 0xDA, and both partials are 0. -/
theorem witness_DoubleLossIsRecovered :
    ∃ s snap, Executes s snap .rec2 ∧ ChecksPass s.params .rec2 snap.args ∧ snap.args.n = 1 ∧ snap.args.idx1.toNat = 1 ∧
      snap.args.idx2.toNat = 0 ∧
      (∀ j < snap.args.n, Memory.read s.mem (snap.args.p + j) = xorSum 2 fun i => pair i j) ∧
      (∀ j < snap.args.n, Memory.read s.mem (snap.args.ip + j) = xorSum 2 fun i => if i = 1 ∨ i = 0 then 0 else pair i j) ∧
      (∀ j < snap.args.n, Memory.read s.mem (snap.args.q + j) = xorSum 2 fun i => fieldMul (pair i j) (xpow i)) ∧
      ∀ j < snap.args.n, Memory.read s.mem (snap.args.iq + j) =
        xorSum 2 fun i => if i = 1 ∨ i = 0 then 0 else fieldMul (pair i j) (xpow i) :=
  ⟨_, _, flying_executes wide .rec2 { buffers 0 1 with idx1 := 1, idx2 := 0 } [(0x200, 0x99), (0x300, 0xDA)] (by decide),
    (precheck_ok_iff _ _ _).1 (by decide), rfl, rfl, rfl, by decide, by decide, by decide, by decide⟩

/-- A command that fails the first check, one that fails only the second, one that fails only the third. -/
theorem witness_FailedChecksCompleteInOrder :
    (∃ a, ¬ ShapeOk .qw a) ∧
    (∃ a, ShapeOk .pqs a ∧ ¬ RangeOk wide .pqs a) ∧
    ∃ a, ShapeOk .pqs a ∧ RangeOk wide .pqs a ∧ ¬ AliasOk wide .pqs a := by
  refine ⟨⟨buffers 1 9, ?_⟩, ⟨{ buffers 1 8 with pAddr := 0xFFFFFFFFFFFFFFFC }, ?_, ?_⟩,
    ⟨{ buffers 1 8 with qAddr := 0x207 }, ?_, ?_, ?_⟩⟩
  · exact (shapeFails_iff _ _).1 (by decide)
  · by_contra c; exact absurd ((shapeFails_iff _ _).2 c) (by decide)
  · exact (rangeFails_iff _ _ _).1 (by decide)
  · by_contra c; exact absurd ((shapeFails_iff _ _).2 c) (by decide)
  · by_contra c; exact absurd ((rangeFails_iff _ _ _).2 c) (by decide)
  · exact (aliasFails_iff _ _ _).1 (by decide)

/-- REC1 whose output is its partial Q fails its checks. -/
theorem witness_Rec1_fails : ¬ ChecksPass wide .rec1 { buffers 0 8 with out1Addr := 0x600 } :=
  fun c => absurd ((precheck_ok_iff _ _ _).2 c) (by decide)

/-- DIV by 0 and an illegal word complete with an error. -/
theorem witness_ErrorsArePrecise :
    seen (fun t => decide (t.status.errcode ≠ .none)) (blockStep (flying wide .div ArgRegs.zero [])) = some true ∧
      seen (fun t => decide (t.status.errcode ≠ .none)) (blockStep (flyingWord 0x103)) = some true := by decide

/-- PQS in flight: a byte of its P buffer, a byte it only reads, and a byte it does not name. -/
theorem witness_region_statements :
    WrittenBy wide .pqs (buffers 1 8) 0x207 ∧ (¬ WrittenBy wide .pqs (buffers 1 8) 0x100 ∧
      NamedBy wide .pqs (buffers 1 8) 0x100) ∧ ¬ NamedBy wide .pqs (buffers 1 8) 0x208 := by
  refine ⟨writtenBy_p (by simp) ⟨by decide, by decide⟩, ⟨?_, ⟨⟨.stripe, 0x100, 8, .r⟩, ?_, ?_⟩⟩, ?_⟩
  · rintro ⟨x, hx, acc, lo, hi⟩
    revert x hx acc lo hi
    decide
  · decide
  · exact ⟨by decide, by decide⟩
  · rintro ⟨x, hx, lo, hi⟩
    revert x hx lo hi
    decide

/-- Two canonical memories that differ, at 0x208, only outside what PQS names. -/
theorem witness_CommandsReadOnlyTheirRegions :
    ∃ s snap, ∃ m : Memory, Executes s snap .pqs ∧ Memory.wf m = true ∧ m ≠ s.mem ∧
      ∀ b, NamedBy s.params .pqs snap.args b → Memory.read m b = Memory.read s.mem b := by
  refine ⟨_, _, [(0x208, 1)], flying_executes wide .pqs (buffers 1 8) [] rfl, by decide, by decide, fun b hb => ?_⟩
  have ne : b ≠ 0x208 := fun e => witness_region_statements.2.2 (e ▸ hb)
  show Memory.read [(0x208, 1)] b = Memory.read [] b
  simp [Memory.read, ne]

/-- A register of each width, `ADDR_W` = 0 and 64 among them, and another register. -/
theorem witness_RwRegistersKeepTheirDefinedBits :
    rwBits wide .opa = some 8 ∧ rwBits wide .pAddr = some 64 ∧ rwBits wide .blkSize = some 32 ∧
      rwBits { wide with addrW := 0 } .dAddr = some 0 ∧ Reg.status ≠ .opa := by decide

/-- Argument registers whose reserved bits are 0, and a register write while BUSY. -/
theorem witness_masked_and_busy_writes :
    (buffers 1 8).Masked narrow ∧ (flying narrow .qs (buffers 1 8) []).phase =
      .busy { cmd := encode .qs, args := buffers 1 8 } ∧ rwBits narrow .qAddr = some 16 :=
  ⟨by constructor <;> decide, rfl, rfl⟩

/-- Unmapped offsets at both ends. -/
theorem witness_ReadOnlyAndUnmappedIgnoreWrites : 0xA0 % 8 = 0 ∧ 0xF8 % 8 = 0 ∧ 0xA0 ≤ 0xF8 := by decide

/-- The first and the last register of the window, and accesses of the wrong alignment and the wrong width. -/
theorem witness_OnlyAlignedWordAccessesReachRegisters :
    (∀ addr ∈ [0x10000, 0x100F8], wide.regBase ≤ addr ∧ addr ≤ wide.regBase + 0xF8 ∧ (addr - wide.regBase) % 8 = 0) ∧
    ∀ ab ∈ [(0x10004, 8), (0x100FF, 8), (0x10000, 4)], wide.regBase ≤ ab.1 ∧ ab.1 < wide.regBase + 256 ∧
      ((ab.1 - wide.regBase) % 8 ≠ 0 ∨ ab.2 ≠ 8) := by decide

/-- The host about to write CMD, in each phase. -/
theorem witness_cmd_write_statements :
    (∃ s : State, s.phase = .idle ∧ s.nextTurn = .host ∧ s.host.code[s.host.pc]? = some (.wr .cmd 3)) ∧
    (∃ s : State, s.phase = .building ∧ s.nextTurn = .host ∧ s.host.code[s.host.pc]? = some (.wr .cmd 3)) ∧
    ∃ (s : State) (snap : Snapshot), s.phase = .busy snap ∧ s.nextTurn = .host ∧
      s.host.code[s.host.pc]? = some (.wr .cmd 3) :=
  ⟨⟨{ ready wide ArgRegs.zero [] with host := { code := [.wr .cmd 3], pc := 0, reads := [] } }, rfl, rfl, rfl⟩,
    ⟨{ State.reset with agenda := [.host], host := { code := [.wr .cmd 3], pc := 0, reads := [] } }, rfl, rfl, rfl⟩,
    ⟨{ flying wide .mul ArgRegs.zero [] with
        agenda := [.host], host := { code := [.wr .cmd 3], pc := 0, reads := [] } }, _, rfl, rfl, rfl⟩⟩

/-- PQS in flight over existing bytes: one it writes, one it reads, one it does not name, the last byte of the space. -/
theorem witness_host_memory_statements :
    ∃ s snap, Executes s snap .pqs ∧ s.params = wide ∧ snap.args = buffers 1 8 ∧ 0x207 < s.params.memSize ∧
      0x208 < s.params.memSize ∧ 2 ^ 64 - 1 < s.params.memSize :=
  ⟨_, _, flying_executes wide .pqs (buffers 1 8) [] rfl, rfl, rfl, by decide, by decide, by decide⟩

/-- The polling loop of `wait` at the start of a program. -/
theorem witness_PollingLoopRepeatsOnTheBit :
    ∃ s : State, s.host.code[s.host.pc]? = some (.rd .status 0) ∧
      s.host.code[s.host.pc + 1]? = some (.gotoIf (.bit 0 1 true) s.host.pc) :=
  ⟨{ ready wide ArgRegs.zero [] with host := { code := expand 0 .wait, pc := 0, reads := [] } }, rfl, rfl⟩

/-- A reset with PQS in flight, of a byte it writes, with none, and with an illegal word. -/
theorem witness_ResetAbandonsTheCommandInFlight :
    (∃ s snap, Executes s snap .pqs ∧ WrittenBy s.params .pqs snap.args 0x207 ∧ 0x207 < s.params.memSize) ∧
      (∃ s : State, Memory.wf s.mem = true ∧ ∀ snap, s.phase ≠ .busy snap) ∧
      ∃ (s : State) (snap : Snapshot) (e : DecodeError), Memory.wf s.mem = true ∧ s.phase = .busy snap ∧
        decode snap.cmd = .error e :=
  ⟨⟨_, _, flying_executes wide .pqs (buffers 1 8) [] rfl, witness_region_statements.1, by decide⟩,
    ⟨ready wide ArgRegs.zero [], rfl, fun _ h => by cases h⟩, ⟨flyingWord 0x103, _, _, rfl, rfl, rfl⟩⟩

/-- The build about to end. -/
theorem witness_BuildEndsInIdleWithTables : State.reset.phase = .building ∧ State.reset.nextTurn = .block := ⟨rfl, rfl⟩

/-- Tables of zeros, which the build changes. -/
def zeroTables : State :=
  { State.reset with tables := { alog := Vector.replicate 512 0, log := Vector.replicate 256 0 }, params := wide }

/-- Steps that change the phase or the tables: the end of the build, an accepted CMD write, a completion, a reset. -/
theorem witness_phase_and_table_statements :
    seen (fun t => (decide (t.phase = .idle), t.tables.alogAt 0, zeroTables.tables.alogAt 0)) (step zeroTables) =
      some (true, 1, 0) ∧
    seen (fun t => decide (t.phase = .idle)) (step (flying wide .add ArgRegs.zero [])) = some true ∧
    seen (fun t => decide (t.phase = .building)) (step { ready wide ArgRegs.zero [] with agenda := [.reset] }) = some true ∧
    seen (fun t => decide (t.phase = .idle))
      (step { ready wide ArgRegs.zero [] with host := { code := [.wr .cmd 3], pc := 0, reads := [] } }) = some false := by
  decide

/-- A step that leaves a command in flight: the host moves while MUL is in flight. -/
theorem witness_RegisterReadsHaveNoSideEffect :
    seen (fun t => decide (t.phase = .busy { cmd := encode .mul, args := ArgRegs.zero }))
      (step { flying wide .mul ArgRegs.zero [] with agenda := [.host] }) = some true ∧ rwBits wide .opa = some 8 := by decide

/-- Steps that change RES and WOUT, both on the block's turn. -/
theorem witness_ResultRegistersChangeOnlyByTheirCommands :
    (flying wide .dbl ArgRegs.zero []).nextTurn ≠ .reset ∧
    seen (fun t => t.res) (step (flying wide .add { ArgRegs.zero with opa := 1 } [])) = some 1 ∧
      seen (fun t => t.wout) (step (flying wide .dbl { ArgRegs.zero with win := 1 } [])) = some 2 := by decide

/-- A command in flight with every other agent to move before the block. -/
theorem witness_CommandsEndWithinTheAgenda :
    ∃ (s : State) (snap : Snapshot), s.phase = .busy snap ∧ s.agenda = [.host, .agentWrite 0 1, .host, .reset] :=
  ⟨{ flying wide .qw ArgRegs.zero [] with agenda := [.host, .agentWrite 0 1, .host, .reset] }, _, rfl, rfl⟩

/-- Statements that answer a next state: one that names a value, and one that names none. -/
theorem witness_ConditionsSeeEveryNamedValue :
    seen (fun t => t.host.reads) (hostStmt (.rd .id 3) (ready wide ArgRegs.zero [])) = some [(3, 0x000000000108011D)] ∧
      seen (fun t => t.host.reads) (hostStmt (.wr .opa 1) (ready wide ArgRegs.zero [])) = some [] := by decide

/-- A program without gotos at its start and at its end, and a run of one step of it. -/
theorem witness_RunsPutTheListingOnTheBus :
    ∃ s : State, (∀ x ∈ s.host.code, ∀ c l, x ≠ .gotoIf c l) ∧ s.host.pc ≤ s.host.code.length ∧
      seen (fun t => decide (t.host.pc = t.host.code.length)) (Sys2Proof.core.run 1 s) = some true :=
  ⟨{ ready wide ArgRegs.zero [] with host := { code := [.wr .opa 1], pc := 0, reads := [] } }, by simp, by decide, by decide⟩

/-- The start state of section 7 has the invariant, and takes a step. -/
theorem witness_EveryStepKeepsTheInvariant :
    (ready wide ArgRegs.zero []).Inv ∧ ∃ t, step (ready wide ArgRegs.zero []) = .next t :=
  ⟨{ mem_wf := rfl
     mem_in := fun c hc => by cases hc
     args_masked := by constructor <;> decide
     snap_masked := fun _ h => by cases h
     tables_built := fun _ => (built wide .add ArgRegs.zero []).1
     err_code := rfl
     err_done := fun h => by cases h
     quiet := fun h => absurd rfl h }, ⟨_, rfl⟩⟩

end Sys2Proof.Tests
end

section
/-! The offsets of the registers (R21, R35) and the reserved bits of a command word (R92). -/

namespace Sys2Proof

/-- The register at an offset is the one whose offset it is (R21). -/
theorem Reg.ofOffset_eq_some {off : Nat} {r : Reg} (h : Reg.ofOffset off = some r) : r.offset = off := by
  unfold Reg.ofOffset at h
  split at h <;> cases h <;> rfl

theorem Reg.ofOffset_offset (r : Reg) : Reg.ofOffset r.offset = some r := by cases r <;> rfl

/-- A register's offset is a multiple of 8, at most 0x98 (R21). -/
theorem Reg.offset_range (r : Reg) : r.offset ≤ 0x98 ∧ r.offset % 8 = 0 := by cases r <;> decide

/-- No register stands at 0xA0 or above (R35). -/
theorem Reg.ofOffset_unmapped {off : Nat} (h : 0xA0 ≤ off) : Reg.ofOffset off = none := by
  cases hr : Reg.ofOffset off with
  | none => rfl
  | some r =>
    have := Reg.ofOffset_eq_some hr
    have := r.offset_range
    omega

/-- A word with a reserved bit set is illegal (R92). -/
theorem decode_reserved {c : Word} (h : c.toNat / 256 ≠ 0) : ∃ e, decode c = .error e := by
  have rsvd : c.extractLsb' 8 56 ≠ 0 := fun eq => h <| by
    have field : c.toNat / 256 % 2 ^ 56 = 0 := by
      simpa [Nat.shiftRight_eq_div_pow] using congrArg BitVec.toNat eq
    have := c.isLt
    omega
  exact ⟨.reservedBits, by rw [decode, if_pos rsvd]⟩

end Sys2Proof
end

section
/-! The register window (R21 to R36): what each register reads and keeps, the bits of STATUS, and the accesses that reach a
register. -/

namespace Sys2Proof.Machine

/-! ### Writes of the argument registers (R34) -/

/-- What an address register stores of a written value: the value modulo `2^ADDR_W` (R34). -/
theorem maskAddr_toNat (p : Params) (v : Word) : (maskAddr p v).toNat = v.toNat % 2 ^ p.addrW.val := by
  have lt : v.toNat % 2 ^ p.addrW.val < 2 ^ 64 := Nat.lt_of_le_of_lt (Nat.mod_le _ _) v.isLt
  rw [maskAddr, BitVec.toNat_ofNat, Params.memSize, Nat.mod_eq_of_lt lt]

theorem maskAddr_lt (p : Params) (v : Word) : (maskAddr p v).toNat < p.memSize := by
  rw [maskAddr_toNat]
  exact Nat.mod_lt _ (Nat.two_pow_pos _)

/-! What each argument register holds after a register write: the defined bits of the value if the write is to it, else what
it held (R34). -/

section
variable (p : Params) (a : ArgRegs) (r : Reg) (v : Word)

@[simp] theorem ArgRegs.write_opa : (a.write p r v).opa = if r = .opa then v.setWidth 8 else a.opa := by cases r <;> rfl
@[simp] theorem ArgRegs.write_opb : (a.write p r v).opb = if r = .opb then v.setWidth 8 else a.opb := by cases r <;> rfl
@[simp] theorem ArgRegs.write_win : (a.write p r v).win = if r = .win then v else a.win := by cases r <;> rfl
@[simp] theorem ArgRegs.write_pAddr : (a.write p r v).pAddr = if r = .pAddr then maskAddr p v else a.pAddr := by
  cases r <;> rfl
@[simp] theorem ArgRegs.write_qAddr : (a.write p r v).qAddr = if r = .qAddr then maskAddr p v else a.qAddr := by
  cases r <;> rfl
@[simp] theorem ArgRegs.write_dAddr : (a.write p r v).dAddr = if r = .dAddr then maskAddr p v else a.dAddr := by
  cases r <;> rfl
@[simp] theorem ArgRegs.write_blkSize : (a.write p r v).blkSize = if r = .blkSize then v.setWidth 32 else a.blkSize := by
  cases r <;> rfl
@[simp] theorem ArgRegs.write_width : (a.write p r v).width = if r = .width then v.setWidth 8 else a.width := by
  cases r <;> rfl
@[simp] theorem ArgRegs.write_coefAddr : (a.write p r v).coefAddr = if r = .coefAddr then maskAddr p v else a.coefAddr := by
  cases r <;> rfl
@[simp] theorem ArgRegs.write_ipAddr : (a.write p r v).ipAddr = if r = .ipAddr then maskAddr p v else a.ipAddr := by
  cases r <;> rfl
@[simp] theorem ArgRegs.write_iqAddr : (a.write p r v).iqAddr = if r = .iqAddr then maskAddr p v else a.iqAddr := by
  cases r <;> rfl
@[simp] theorem ArgRegs.write_out1Addr : (a.write p r v).out1Addr = if r = .out1Addr then maskAddr p v else a.out1Addr := by
  cases r <;> rfl
@[simp] theorem ArgRegs.write_out2Addr : (a.write p r v).out2Addr = if r = .out2Addr then maskAddr p v else a.out2Addr := by
  cases r <;> rfl
@[simp] theorem ArgRegs.write_idx1 : (a.write p r v).idx1 = if r = .idx1 then v.setWidth 8 else a.idx1 := by cases r <;> rfl
@[simp] theorem ArgRegs.write_idx2 : (a.write p r v).idx2 = if r = .idx2 then v.setWidth 8 else a.idx2 := by cases r <;> rfl

end

/-- A register write keeps the reserved bits of the address registers 0 (R34). -/
theorem ArgRegs.Masked.write {p : Params} {a : ArgRegs} (h : a.Masked p) (r : Reg) (v : Word) : (a.write p r v).Masked p := by
  have either : ∀ (c : Prop) [Decidable c] (x : Word), x.toNat < p.memSize →
      (if c then maskAddr p v else x).toNat < p.memSize := fun c _ x hx => by
    split
    · exact maskAddr_lt p v
    · exact hx
  constructor <;>
    simp only [ArgRegs.p, ArgRegs.q, ArgRegs.d, ArgRegs.coef, ArgRegs.ip, ArgRegs.iq, ArgRegs.out1, ArgRegs.out2, write_pAddr,
      write_qAddr, write_dAddr, write_coefAddr, write_ipAddr, write_iqAddr, write_out1Addr, write_out2Addr]
  exacts [either _ _ h.p_lt, either _ _ h.q_lt, either _ _ h.d_lt, either _ _ h.coef_lt, either _ _ h.ip_lt,
    either _ _ h.iq_lt, either _ _ h.out1_lt, either _ _ h.out2_lt]

/-- Registers that hold 0 have their reserved bits 0. -/
theorem ArgRegs.Masked.zero (p : Params) : ArgRegs.zero.Masked p := by
  constructor <;> exact Nat.two_pow_pos _

/-! ### Reads and writes of registers (R23 to R36) -/

/-- A write of a RW register is a write of the arguments, in any phase (R34, R36). -/
theorem State.writeReg_rw (s : State) {r : Reg} {k : Nat} (hr : rwBits s.params r = some k) (v : Word) :
    s.writeReg r v = { s with args := s.args.write s.params r v } := by
  obtain e | ⟨rfl, _⟩ | ⟨rfl, _⟩ | ⟨rfl, _⟩ := State.writeReg_cases s r v
  · exact e
  all_goals cases hr

/-- A written RW register reads the defined bits of the value (R34). -/
theorem State.readReg_written (s : State) {r : Reg} {k : Nat} (hr : rwBits s.params r = some k) (v : Word) :
    ((s.writeReg r v).readReg r).toNat = v.toNat % 2 ^ k := by
  rw [s.writeReg_rw hr]
  cases r <;> cases hr <;> simp only [State.readReg, ArgRegs.write, maskAddr_toNat, BitVec.toNat_setWidth]
  case win => exact (Nat.mod_eq_of_lt v.isLt).symm
  all_goals omega

/-- A write of the arguments through register `r` leaves what every other register reads (R34). -/
theorem State.readReg_other (s : State) {r r' : Reg} (ne : r' ≠ r) (v : Word) :
    State.readReg { s with args := s.args.write s.params r v } r' = s.readReg r' := by
  cases r' <;> simp [State.readReg, State.statusWord, State.isBusy, State.ready, ne.symm]

/-- A RW register whose reserved bits are 0 reads below `2^k` (R34). -/
theorem State.readReg_lt (s : State) (h : s.args.Masked s.params) {r : Reg} {k : Nat} (hr : rwBits s.params r = some k) :
    (s.readReg r).toNat < 2 ^ k := by
  cases r <;> cases hr
  case pAddr => exact h.p_lt
  case qAddr => exact h.q_lt
  case dAddr => exact h.d_lt
  case coefAddr => exact h.coef_lt
  case ipAddr => exact h.ip_lt
  case iqAddr => exact h.iq_lt
  case out1Addr => exact h.out1_lt
  case out2Addr => exact h.out2_lt
  case win => exact s.args.win.isLt
  all_goals
    simp only [State.readReg, BitVec.toNat_setWidth]
    exact Nat.lt_of_le_of_lt (Nat.mod_le _ _) (BitVec.isLt _)

/-- A CMD write when IDLE is accepted (R94). -/
theorem State.writeReg_cmd_idle {s : State} (h : s.phase = .idle) (v : Word) : s.writeReg .cmd v = s.accept v := by
  simp [State.writeReg, State.writeCmd, h]

/-- Settles O38: by the equation of a RW write, and what each register reads of it. -/
theorem rwRegistersKeepTheirDefinedBits : Obligations.RwRegistersKeepTheirDefinedBits := by
  refine ⟨fun s r k v hr => ⟨s.readReg_written hr v, fun r' ne => ?_, ?_, fun hm => ⟨s.readReg_lt hm hr, ?_⟩⟩,
    fun s v hp => ?_, fun c => decode_reserved⟩
  · rw [s.writeReg_rw hr, s.readReg_other ne]
  · rw [s.writeReg_rw hr]
  · rw [s.writeReg_rw hr]
    exact hm.write r v
  · rw [State.writeReg_cmd_idle hp, State.accept_phase]

/-! ### The status word (R24, R25) -/

/-- The bits of a flag. -/
theorem getLsbD_flagBit (k : Nat) {j : Nat} (hj : j < 64) (b : Bool) : (flagBit k b).getLsbD j = (decide (j = k) && b) := by
  have place : (!decide (j < k) && (decide (j - k < 64) && decide (j - k = 0))) = decide (j = k) := by
    rw [Bool.eq_iff_iff]
    simp
    omega
  rw [flagBit, BitVec.getLsbD_shiftLeft, BitVec.getLsbD_setWidth, BitVec.getLsbD_ofBool, ← place]
  simp only [hj, decide_true, Bool.true_and, Bool.and_assoc]

/-- Every bit of STATUS (R24). -/
theorem State.getLsbD_statusWord (s : State) {j : Nat} (hj : j < 64) : s.statusWord.getLsbD j =
    (decide (8 ≤ j) && s.status.errcode.code.getLsbD (j - 8) || decide (j = 4) && s.status.dropped ||
      decide (j = 3) && s.status.err || decide (j = 2) && s.status.done || decide (j = 1) && s.isBusy ||
      decide (j = 0) && s.ready) := by
  have code : (s.status.errcode.code.setWidth 64 <<< 8).getLsbD j =
      (decide (8 ≤ j) && s.status.errcode.code.getLsbD (j - 8)) := by
    have le : decide (8 ≤ j) = !decide (j < 8) := by
      rw [← decide_not]
      exact decide_eq_decide.2 Nat.not_lt.symm
    rw [BitVec.getLsbD_shiftLeft, BitVec.getLsbD_setWidth, le]
    simp [hj, show j - 8 < 64 by omega]
  simp only [State.statusWord, BitVec.getLsbD_or, code, getLsbD_flagBit _ hj]

/-- Above the flags STATUS holds ERRCODE from bit 8 on (R24). -/
theorem State.getLsbD_statusWord_high (s : State) {j : Nat} (lo : 5 ≤ j) (hj : j < 64) :
    s.statusWord.getLsbD j = (decide (8 ≤ j) && s.status.errcode.code.getLsbD (j - 8)) := by
  simp [s.getLsbD_statusWord hj, show j ≠ 4 by omega, show j ≠ 3 by omega, show j ≠ 2 by omega, show j ≠ 1 by omega,
    show j ≠ 0 by omega]

/-- STATUS bits [15:8] are the number of the error code (R24, R231). -/
theorem State.statusWord_code (s : State) : s.statusWord.extractLsb' 8 8 = s.status.errcode.code :=
  BitVec.eq_of_getLsbD_eq fun i hi => by
    rw [BitVec.getLsbD_extractLsb', s.getLsbD_statusWord_high (by omega) (by omega)]
    simp [hi]

/-- STATUS bits [7:5] read 0 (R24). -/
theorem State.statusWord_reserved_low (s : State) : s.statusWord.extractLsb' 5 3 = 0 :=
  BitVec.eq_of_getLsbD_eq fun i hi => by
    rw [BitVec.getLsbD_extractLsb', s.getLsbD_statusWord_high (by omega) (by omega)]
    simp [show ¬ 8 ≤ 5 + i by omega]

/-- STATUS bits [63:16] read 0 (R24). -/
theorem State.statusWord_reserved_high (s : State) : s.statusWord.extractLsb' 16 48 = 0 :=
  BitVec.eq_of_getLsbD_eq fun i hi => by
    rw [BitVec.getLsbD_extractLsb', s.getLsbD_statusWord_high (by omega) (by omega)]
    simp [BitVec.getLsbD_of_ge s.status.errcode.code (16 + i - 8) (by omega)]

theorem State.ready_eq (s : State) : s.ready = decide (s.phase ≠ .building) := by
  unfold State.ready
  cases s.phase <;> rfl

theorem State.isBusy_iff (s : State) : s.isBusy = true ↔ ∃ snap, s.phase = .busy snap := by
  unfold State.isBusy
  cases s.phase <;> simp

/-- STATUS.READY (R24, R43). -/
theorem State.statusWord_ready (s : State) : s.statusWord.getLsbD 0 = decide (s.phase ≠ .building) := by
  rw [s.getLsbD_statusWord (by omega), ← s.ready_eq]
  simp

/-- STATUS.BUSY (R24, R43). -/
theorem State.statusWord_busy (s : State) : s.statusWord.getLsbD 1 = true ↔ ∃ snap, s.phase = .busy snap := by
  rw [s.getLsbD_statusWord (by omega), ← s.isBusy_iff]
  simp

/-- Settles O36: field by field. -/
theorem statusWordHasTheSpecFields : Obligations.StatusWordHasTheSpecFields := by
  refine fun s =>
    ⟨s.statusWord_ready, s.statusWord_busy, ?_, ?_, ?_, s.statusWord_reserved_low, ?_, s.statusWord_reserved_high⟩
  · rw [s.getLsbD_statusWord (by omega)]
    simp
  · rw [s.getLsbD_statusWord (by omega)]
    simp
  · rw [s.getLsbD_statusWord (by omega)]
    simp
  · rw [s.statusWord_code]
    cases s.status.errcode <;> rfl

/-- Settles O37: by the two values of bit 4. -/
theorem statusWriteClearsDropped : Obligations.StatusWriteClearsDropped := by
  intro s v
  simp only [State.writeReg, Status.write]
  split <;> rfl

/-! ### Accesses by offset and by bus address (R22, R35) -/

/-- Settles O39: no register stands at an unmapped offset, and the rest is what `readReg` and `writeReg` say. -/
theorem readOnlyAndUnmappedIgnoreWrites : Obligations.ReadOnlyAndUnmappedIgnoreWrites := by
  refine fun s v => ⟨rfl, rfl, rfl, rfl, rfl, fun off lo _ _ => ?_⟩
  simp only [State.readOffset, State.writeOffset, Reg.ofOffset_unmapped lo, and_self]

/-- The accesses that reach the window, and the offset they reach (R22; log 10). -/
theorem windowOffset_ok_iff (p : Params) (addr bytes off : Nat) : windowOffset p addr bytes = .ok off ↔
    (p.regBase ≤ addr ∧ addr ≤ p.regBase + 0xF8 ∧ (addr - p.regBase) % 8 = 0 ∧ bytes = 8) ∧
      off = addr - p.regBase := by
  unfold windowOffset
  split
  · simp; omega
  · split
    · simp; omega
    · simp; omega

/-- In the window, another width or alignment is refused (R22). -/
theorem windowOffset_refused {p : Params} {addr bytes : Nat} (lo : p.regBase ≤ addr) (hi : addr < p.regBase + 256)
    (bad : (addr - p.regBase) % 8 ≠ 0 ∨ bytes ≠ 8) : windowOffset p addr bytes = .error .registerAccess := by
  rw [windowOffset, if_neg (by omega), if_pos (by omega)]

/-- A register's own address reaches its offset (R22, R99). -/
theorem windowOffset_reg (p : Params) (r : Reg) : windowOffset p (p.regBase + r.offset) 8 = .ok r.offset := by
  have := r.offset_range
  exact (windowOffset_ok_iff _ _ _ _).2 ⟨by omega, by omega⟩

/-- Settles O40: by which accesses `windowOffset` answers. -/
theorem onlyAlignedWordAccessesReachRegisters : Obligations.OnlyAlignedWordAccessesReachRegisters := by
  refine fun s addr bytes v n => ⟨fun lo hi al by8 => ?_, fun lo hi bad => ?_, fun t ht => ?_, fun r => ?_⟩
  · simp only [hostStmt, (windowOffset_ok_iff s.params addr bytes _).2 ⟨⟨lo, hi, al, by8⟩, rfl⟩, and_self]
  · simp only [hostStmt, windowOffset_refused lo hi bad, and_self]
  · cases ho : windowOffset s.params addr bytes with
    | ok off => exact ((windowOffset_ok_iff _ _ _ _).1 ho).1
    | error e => simp [hostStmt, ho] at ht
  · simp only [hostStmt, windowOffset_reg, State.readOffset, State.writeOffset, Reg.ofOffset_offset, and_self]

end Sys2Proof.Machine
end

section
/-! The invariant of the machine (O54): each operation a step is made of keeps it, so every step does. -/

namespace Sys2Proof.Machine

variable {s t : State}

/-! ### The operations a step is made of -/

/-- The invariant says nothing of RES, WOUT, the host, the agenda and the counter of free values. -/
theorem State.Inv.of_rest (h : s.Inv) (r : Byte) (w : Word) (host : Driver) (agenda : List Turn) (fresh : Nat) :
    State.Inv { s with res := r, wout := w, host := host, agenda := agenda, fresh := fresh } :=
  ⟨h.mem_wf, h.mem_in, h.args_masked, h.snap_masked, h.tables_built, h.err_code, h.err_done, h.quiet⟩

/-- Any canonical memory inside the space will do. -/
theorem State.Inv.with_mem (h : s.Inv) {m : Memory} (wf : Memory.wf m = true) (within : Memory.Within s.params.memSize m) :
    State.Inv { s with mem := m } :=
  ⟨wf, within, h.args_masked, h.snap_masked, h.tables_built, h.err_code, h.err_done, h.quiet⟩

/-- A write of an existing byte keeps the invariant (R60, R61). -/
theorem State.Inv.write_mem (h : s.Inv) {a : Nat} (lt : a < s.params.memSize) (v : Byte) :
    State.Inv { s with mem := Memory.write s.mem a v } :=
  h.with_mem (Memory.wf_write a v h.mem_wf) (Memory.within_write v h.mem_in lt)

/-- A completion ends in IDLE with ERR saying that the code is not 0, so it keeps the invariant once the build has ended
(R230). -/
theorem State.Inv.complete (h : s.Inv) (hp : s.phase ≠ .building) (e : ErrCode) : (s.complete e).Inv where
  mem_wf := h.mem_wf
  mem_in := h.mem_in
  args_masked := h.args_masked
  snap_masked := fun _ eq => nomatch eq
  tables_built := fun _ => h.tables_built hp
  err_code := rfl
  err_done := fun _ => rfl
  quiet := fun ne => absurd rfl ne

/-- The build leaves built tables, whatever they held (R261). -/
theorem State.Inv.endBuild (h : s.Inv) : s.endBuild.Inv where
  mem_wf := h.mem_wf
  mem_in := h.mem_in
  args_masked := h.args_masked
  snap_masked := fun _ eq => nomatch eq
  tables_built := fun _ => s.tables.build_built
  err_code := h.err_code
  err_done := h.err_done
  quiet := fun ne => absurd rfl ne

/-- An accept copies masked registers into the snapshot and clears DONE, ERR and ERRCODE (R94). -/
theorem State.Inv.accept (h : s.Inv) (hp : s.phase = .idle) (v : Word) : (s.accept v).Inv where
  mem_wf := h.mem_wf
  mem_in := h.mem_in
  args_masked := h.args_masked
  snap_masked := fun _ eq => by cases eq; exact h.args_masked
  tables_built := fun _ => h.tables_built (by simp [hp])
  err_code := rfl
  err_done := fun err => nomatch err
  quiet := fun _ => ⟨rfl, rfl, rfl⟩

/-- A change of STATUS that leaves DONE, ERR and ERRCODE keeps the invariant (R25, R95). -/
theorem State.Inv.with_status (h : s.Inv) {u : Status} (done : u.done = s.status.done) (err : u.err = s.status.err)
    (code : u.errcode = s.status.errcode) : State.Inv { s with status := u } where
  mem_wf := h.mem_wf
  mem_in := h.mem_in
  args_masked := h.args_masked
  snap_masked := h.snap_masked
  tables_built := h.tables_built
  err_code := by simpa only [err, code] using h.err_code
  err_done := by simpa only [err, done] using h.err_done
  quiet := by simpa only [done, err, code] using h.quiet

/-- A host write of a register keeps the invariant, whatever the register and the phase (R34, R36, R94, R95). -/
theorem State.Inv.writeReg (h : s.Inv) (r : Reg) (v : Word) : (s.writeReg r v).Inv := by
  obtain e | ⟨_, e⟩ | ⟨_, hp, e⟩ | ⟨_, _, e⟩ := State.writeReg_cases s r v <;> rw [e]
  · exact ⟨h.mem_wf, h.mem_in, h.args_masked.write r v, h.snap_masked, h.tables_built, h.err_code, h.err_done, h.quiet⟩
  · obtain ⟨done, err, code, _⟩ := Status.write_fields s.status v
    exact h.with_status done err code
  · exact h.accept hp v
  · exact h.with_status rfl rfl rfl

/-- A command writes only existing bytes, through `Memory.write`, and completes (R61, R230). -/
theorem State.Inv.exec (h : s.Inv) {i : Instr} (he : exec i s = .next t) : t.Inv := by
  obtain ⟨snap, hp, shape⟩ := exec_cases he
  have busy : s.phase ≠ .building := by simp [hp]
  have mem : Memory.wf t.mem = true ∧ Memory.Within s.params.memSize t.mem :=
    exec_keeps (K := fun m => Memory.wf m = true ∧ Memory.Within s.params.memSize m) he hp
      (fun ok m b v hm hb => ⟨Memory.wf_write b v hm.1, Memory.within_write v hm.2 (writtenBy_lt ok hb)⟩)
      ⟨h.mem_wf, h.mem_in⟩
  obtain ⟨r, w, m, rfl⟩ | ⟨e, rfl⟩ := shape
  · exact ((h.with_mem mem.1 mem.2).of_rest r w s.host s.agenda s.fresh).complete busy .none
  · exact h.complete busy e

/-- The block's own step keeps the invariant, in every phase (R97, R261). -/
theorem State.Inv.blockStep (h : s.Inv) (hb : blockStep s = .next t) : t.Inv := by
  obtain ⟨_, rfl⟩ | ⟨_, rfl⟩ | ⟨_, i, _, _, he⟩ | ⟨_, _, hp, _, rfl⟩ := blockStep_cases hb
  · exact h.endBuild
  · exact h
  · exact h.exec he
  · exact h.complete (by simp [hp]) .illegal

/-- The host's step keeps the invariant (R99). -/
theorem State.Inv.hostStep (h : s.Inv) (hh : hostStep s = .next t) : t.Inv := by
  obtain rfl | ⟨x, _, hx⟩ := hostStep_cases hh
  · exact h
  · have adv : s.advanceHost.Inv := h.of_rest s.res s.wout _ s.agenda s.fresh
    obtain ⟨r, v, rfl, _⟩ | ⟨a, v, lt, _, rfl⟩ | ⟨host, k, rfl⟩ := hostStmt_cases hx
    · exact adv.writeReg r v
    · exact adv.write_mem lt v
    · exact adv.of_rest _ _ host _ k

/-- A reset writes only existing bytes of an abandoned command's buffers, and gives the rest its reset values (R260,
R262). -/
theorem State.Inv.pulseReset (h : s.Inv) : s.pulseReset.Inv := by
  have mem : Memory.wf s.pulseReset.mem = true ∧ Memory.Within s.params.memSize s.pulseReset.mem :=
    scribbleAll_rule s.params (fun mk => Memory.wf mk.1 = true ∧ Memory.Within s.params.memSize mk.1) s.inFlight
      (fun _ _ _ _ _ lt _ hm => ⟨Memory.wf_write _ _ hm.1, Memory.within_write _ hm.2 lt⟩)
      (mk := (s.mem, s.fresh)) ⟨h.mem_wf, h.mem_in⟩
  exact
    { mem_wf := mem.1
      mem_in := mem.2
      args_masked := ArgRegs.Masked.zero _
      snap_masked := fun _ eq => nomatch eq
      tables_built := fun ne => absurd rfl ne
      err_code := rfl
      err_done := fun err => nomatch err
      quiet := fun _ => ⟨rfl, rfl, rfl⟩ }

/-- Settles O54: whoever's turn it is, the turn keeps the invariant. -/
theorem everyStepKeepsTheInvariant : Obligations.EveryStepKeepsTheInvariant := by
  intro s t h hs
  have pop : s.popTurn.Inv := h.of_rest s.res s.wout s.host _ s.fresh
  obtain ⟨_, hb⟩ | ⟨_, hh⟩ | ⟨a, v, _, hw⟩ | ⟨_, rfl⟩ := step_cases hs
  · exact pop.blockStep hb
  · exact pop.hostStep hh
  · obtain ⟨lt, _, rfl⟩ := agentWrite_next hw
    exact pop.write_mem lt v
  · exact pop.pulseReset

end Sys2Proof.Machine
end

section
/-! The field tables (R38 to R42): what the build leaves in every entry, and that it is what R39's loops leave. -/

namespace Sys2Proof.Machine

/-! ### Entries -/

/-- Tables are their entries. -/
theorem Tables.ext_at {t u : Tables} (alog : ∀ e < 512, t.alogAt e = u.alogAt e)
    (log : ∀ a, t.logAt a = u.logAt a) : t = u := by
  obtain ⟨ta, tl⟩ := t
  obtain ⟨ua, ul⟩ := u
  congr
  · exact Vector.ext fun e he => by simpa only [Tables.alogAt, dif_pos he] using alog e he
  · refine Vector.ext fun a ha => BitVec.eq_of_toNat_eq ?_
    have := log (BitVec.ofNat 8 a)
    simpa only [Tables.logAt, BitVec.toNat_ofNat, Nat.mod_eq_of_lt ha] using this

/-- After the build LOG of a power is its exponent, for the exponents the first loop records (R39, R41). -/
theorem Tables.logAt_build_xpow (t : Tables) {e : Nat} (h : e < 255) : t.build.logAt (xpow e) = e :=
  t.build_built.logAt_xpow h

/-- The build leaves `LOG[0]` (R40). -/
theorem Tables.logAt_build_zero (t : Tables) : t.build.logAt 0 = t.logAt 0 := by
  have unwritten : exponentIn powers 0 = none := exponentIn_none powers 0 fun e he => by
    rw [powers_getElem]
    exact xpow_ne_zero e
  rw [Tables.logAt_build, builtLog, unwritten]
  exact Nat.mod_eq_of_lt (t.log[(0 : Byte).toNat]'_).isLt

/-! ### The loops of R39 -/

/-- `antilog[e] = value; log[value] = e`, the writes of the first loop (R39). -/
def Tables.record (t : Tables) (e : Nat) (byte : Byte) : Tables :=
  { alog := t.alog.setIfInBounds e byte, log := t.log.setIfInBounds byte.toNat (BitVec.ofNat 8 e) }

/-- `antilog[e] = antilog[e - 255]`, the write of the second loop (R39). -/
def Tables.copyBack (t : Tables) (e : Nat) : Tables := { t with alog := t.alog.setIfInBounds e (t.alogAt (e - 255)) }

/-- The first loop, with its `value` (R39). -/
def Tables.recordLoop (t : Tables) : Tables × BitVec 9 :=
  forUp 255 (fun e tv => (tv.1.record e (tv.2.setWidth 8), nextPower tv.2)) (t, 1)

/-- The second loop (R39). -/
def Tables.copyLoop (t : Tables) : Tables := forUp 257 (fun k t => t.copyBack (255 + k)) t

/-- R39's pseudocode is its two loops. -/
theorem Tables.pseudoBuild_eq (t : Tables) : t.pseudoBuild = t.recordLoop.1.copyLoop := rfl

theorem Tables.alogAt_set (t : Tables) {e : Nat} (he : e < 512) (byte : Byte) (log : Vector Byte 256) (i : Nat) :
    Tables.alogAt ⟨t.alog.setIfInBounds e byte, log⟩ i = if i = e then byte else t.alogAt i := by
  unfold Tables.alogAt
  split
  · next hi =>
    simp only [Vector.getElem_setIfInBounds, eq_comm]
  · next hi => rw [if_neg (by omega)]

theorem Tables.alogAt_record (t : Tables) {e : Nat} (he : e < 512) (byte : Byte) (i : Nat) :
    (t.record e byte).alogAt i = if i = e then byte else t.alogAt i := t.alogAt_set he byte _ i

theorem Tables.alogAt_copyBack (t : Tables) {e : Nat} (he : e < 512) (i : Nat) :
    (t.copyBack e).alogAt i = if i = e then t.alogAt (e - 255) else t.alogAt i := t.alogAt_set he _ _ i

theorem Tables.logAt_record (t : Tables) {e : Nat} (he : e < 256) (byte a : Byte) :
    (t.record e byte).logAt a = if a = byte then e else t.logAt a := by
  have same : byte.toNat = a.toNat ↔ a = byte := by rw [BitVec.toNat_inj, eq_comm]
  simp only [Tables.logAt, Tables.record, Vector.getElem_setIfInBounds, same]
  split
  · exact Nat.mod_eq_of_lt he
  · rfl

@[simp] theorem Tables.logAt_copyBack (t : Tables) (e : Nat) (a : Byte) : (t.copyBack e).logAt a = t.logAt a := rfl

/-- Before the first loop's round `e`: `value` is `2^e`, ALOG holds the powers below `e`, LOG their exponents, and LOG of a
byte that is none of them is as before the build (R39). -/
structure Tables.RecordedTo (before : Tables) (e : Nat) (tv : Tables × BitVec 9) : Prop where
  value : tv.2 = (xpow e).setWidth 9
  alog : ∀ i < e, tv.1.alogAt i = xpow i
  log : ∀ i < e, tv.1.logAt (xpow i) = i
  rest : ∀ a, (∀ i < e, xpow i ≠ a) → tv.1.logAt a = before.logAt a

/-- A round of the first loop records the next power; the powers before it are other bytes, so their entries stay. -/
theorem Tables.RecordedTo.round {before : Tables} {e : Nat} {tv : Tables × BitVec 9} (h : before.RecordedTo e tv)
    (he : e < 255) :
    before.RecordedTo (e + 1) (tv.1.record e (tv.2.setWidth 8), nextPower tv.2) := by
  have byte : tv.2.setWidth 8 = xpow e := by
    rw [h.value, BitVec.setWidth_setWidth_of_le _ (by omega), BitVec.setWidth_eq]
  rw [byte]
  refine ⟨?_, fun i hi => ?_, fun i hi => ?_, fun a new => ?_⟩
  · show nextPower tv.2 = _
    rw [h.value, nextPower_byte, xpow_succ]
  · rw [Tables.alogAt_record _ (by omega)]
    split
    · next eq => rw [eq]
    · exact h.alog i (by omega)
  · rw [Tables.logAt_record _ (by omega)]
    split
    · next eq => exact (xpow_injective (by omega) he eq).symm
    · next ne => exact h.log i (by by_contra; exact ne (congrArg xpow (by omega)))
  · rw [Tables.logAt_record _ (by omega), if_neg (new e (by omega)).symm]
    exact h.rest a fun i hi => new i (by omega)

/-- What the first loop leaves: the powers of all 255 exponents recorded. -/
theorem Tables.recordLoop_recorded (t : Tables) : t.RecordedTo 255 t.recordLoop :=
  forUp_rule t.RecordedTo 255
    ⟨rfl, fun i hi => absurd hi (by omega), fun i hi => absurd hi (by omega), fun _ _ => rfl⟩
    fun _ he _ h => h.round he

/-- The second loop extends the powers to all of ALOG and leaves LOG. -/
theorem Tables.copyLoop_entries {t : Tables} (alog : ∀ i < 255, t.alogAt i = xpow i) :
    (∀ i < 512, t.copyLoop.alogAt i = xpow i) ∧ ∀ a, t.copyLoop.logAt a = t.logAt a := by
  refine forUp_rule (fun k (u : Tables) => (∀ i < 255 + k, u.alogAt i = xpow i) ∧ ∀ a, u.logAt a = t.logAt a) 257
    ⟨alog, fun _ => rfl⟩ fun k hk u ⟨ua, ul⟩ => ⟨fun i hi => ?_, ul⟩
  rw [Tables.alogAt_copyBack _ (by omega)]
  split
  · next eq => rw [ua _ (by omega), eq, ← xpow_add_255, Nat.sub_add_cancel (by omega)]
  · exact ua i (by omega)

/-! ### The statements -/

/-- Settles O16: entry `e` of ALOG is `2^e`, LOG inverts the powers of the exponents up to 254, and these are all the nonzero
elements. -/
theorem builtTablesInvertEachOther : Obligations.BuiltTablesInvertEachOther := by
  refine fun t => ⟨fun a ha => ?_, fun e he => ?_, fun e he => ?_, fun e he => ⟨?_, ?_⟩⟩
  · obtain ⟨e, he, rfl⟩ := exists_xpow ha
    rw [t.logAt_build_xpow he, t.alogAt_build (by omega)]
  · rw [t.alogAt_build (by omega), t.logAt_build_xpow (by omega)]
  · rw [t.alogAt_build (by omega), t.alogAt_build (by omega), xpow_add_255]
  · rw [t.alogAt_build (by omega), t.alogAt_build (by omega), ← xpow_mod]
  · rw [t.alogAt_build (by omega)]
    exact xpow_ne_zero e

/-- Settles O17: both leave the powers in ALOG, the exponents in LOG, and LOG[0] as it was. -/
theorem buildIsThePseudocode : Obligations.BuildIsThePseudocode := by
  intro t
  have first := t.recordLoop_recorded
  obtain ⟨alog, log⟩ := Tables.copyLoop_entries first.alog
  rw [t.pseudoBuild_eq]
  refine Tables.ext_at (fun e he => ?_) fun a => ?_
  · rw [t.alogAt_build he, alog e he]
  · rw [log]
    by_cases ha : a = 0
    · rw [ha, t.logAt_build_zero, first.rest 0 fun i _ => xpow_ne_zero i]
    · obtain ⟨e, he, rfl⟩ := exists_xpow ha
      rw [t.logAt_build_xpow he, first.log e he]

end Sys2Proof.Machine
end

section
/-! What commands and steps leave unchanged: operands come only from the snapshot (O35), and the phase, the tables and the
result registers change only in the steps the spec lists (O50 to O52). -/

namespace Sys2Proof.Machine

variable {s t : State}

/-! ### Commands and the argument registers (R44) -/

section OtherArgs
variable {snap : Snapshot} (a : ArgRegs) (hp : s.phase = .busy snap)
include hp

/-- A rule that does the same beside other argument registers completes the same. -/
theorem runCommand_args {body body' : Snapshot → Except ErrCode State} (h : runCommand s body = .next t)
    (same : body' snap = (body snap).map fun u => { u with args := a }) :
    runCommand { s with args := a } body' = .next { t with args := a } := by
  rw [runCommand_busy hp] at h
  rw [runCommand_busy (s := { s with args := a }) hp, same]
  cases hb : body snap with
  | ok u => rw [hb] at h; cases h; rfl
  | error e => rw [hb] at h; cases h; rfl

/-- A memory command takes its operands from the snapshot (R93). -/
theorem memoryCommand_args {i : Instr} {effect : ArgRegs → Memory → Except ErrCode Memory}
    (h : memoryCommand i s effect = .next t) :
    memoryCommand i { s with args := a } effect = .next { t with args := a } := by
  refine runCommand_args a hp h ?_
  cases precheck s.params i snap.args with
  | error e => rfl
  | ok u => cases effect snap.args s.mem <;> rfl

/-- Every command takes its operands from the snapshot: with other argument registers it does the same and leaves them
(R44, R93). -/
theorem exec_args {i : Instr} (h : exec i s = .next t) : exec i { s with args := a } = .next { t with args := a } := by
  cases i <;> simp only [exec, execAdd, execSub, execMul, execDiv, execLog, execAlog, execDbl, execPqs, execPqw, execPonly,
    execQs, execQw, execRec1, execRec2] at h ⊢
  case add | sub | mul | alog | dbl => exact runCommand_args a hp h rfl
  case div =>
    refine runCommand_args a hp h ?_
    cases gfDiv s.tables snap.args.opa snap.args.opb <;> rfl
  case log =>
    refine runCommand_args a hp h ?_
    by_cases zero : snap.args.opa = 0
    · simp only [if_pos zero]; rfl
    · simp only [if_neg zero]; rfl
  case pqs | pqw | ponly | qs | qw | rec1 | rec2 => exact memoryCommand_args a hp h

end OtherArgs

/-- A command leaves the argument registers and the tables. -/
theorem exec_leaves {i : Instr} (h : exec i s = .next t) : t.args = s.args ∧ t.tables = s.tables := by
  obtain ⟨_, _, ⟨_, _, _, rfl⟩ | ⟨_, rfl⟩⟩ := exec_cases h <;> exact ⟨rfl, rfl⟩

/-- Only an accepted CMD write changes the phase (R36, R94). -/
theorem State.writeReg_phase (s : State) (r : Reg) (v : Word) :
    (s.writeReg r v).phase = s.phase ∨ (r = .cmd ∧ s.phase = .idle ∧ s.writeReg r v = s.accept v) := by
  obtain e | ⟨_, e⟩ | accepted | ⟨_, _, e⟩ := State.writeReg_cases s r v
  · exact .inl (by rw [e])
  · exact .inl (by rw [e])
  · exact .inr accepted
  · exact .inl (by rw [e, State.drop_phase])

/-- A register write leaves the tables, RES and WOUT (R36, R42). -/
theorem State.writeReg_leaves (s : State) (r : Reg) (v : Word) :
    (s.writeReg r v).tables = s.tables ∧ (s.writeReg r v).res = s.res ∧ (s.writeReg r v).wout = s.wout := by
  obtain e | ⟨_, e⟩ | ⟨_, _, e⟩ | ⟨_, _, e⟩ := State.writeReg_cases s r v <;> rw [e] <;> exact ⟨rfl, rfl, rfl⟩

/-- Settles O35: a command runs on its snapshot whatever the argument registers hold, and completes. -/
theorem commandsReadOnlyTheSnapshot : Obligations.CommandsReadOnlyTheSnapshot := by
  refine ⟨fun s v hp => ?_, fun s snap i a hp => ?_, fun s r v other => ?_⟩
  · rw [State.writeReg_cmd_idle hp, State.accept_phase]
  · obtain ⟨t, ht⟩ := exec_busy i hp
    exact ⟨t, ht, (exec_idle ht).1, (exec_leaves ht).1, exec_args a hp ht⟩
  · obtain same | ⟨cmd, idle, _⟩ := s.writeReg_phase r v
    · exact same
    · exact (other.elim (· idle) (· cmd)).elim

/-! ### The phase (R43) -/

/-- On the block's turn the phase ends in IDLE, unless it is IDLE and stays; a command completes (R97, R230, R261). -/
theorem blockStep_phase (h : blockStep s = .next t) :
    t.phase = .idle ∧ ((∃ snap, s.phase = .busy snap) → t.status.done = true) := by
  obtain ⟨hp, rfl⟩ | ⟨hp, rfl⟩ | ⟨_, _, _, _, he⟩ | ⟨_, _, _, _, rfl⟩ := blockStep_cases h
  · exact ⟨rfl, fun ⟨_, busy⟩ => by simp [hp] at busy⟩
  · exact ⟨hp, fun ⟨_, busy⟩ => by simp [hp] at busy⟩
  · exact ⟨(exec_idle he).1, fun _ => (exec_idle he).2⟩
  · exact ⟨rfl, fun _ => rfl⟩

/-- The host's step is its next statement, the position moved past it (R99). -/
theorem hostStep_statement {x : HostStmt} (hx : s.host.code[s.host.pc]? = some x) :
    hostStep s = hostStmt x s.advanceHost := by
  simp only [hostStep, hx]

/-- On the host's turn the phase stays, or a statement that writes CMD is accepted (R94, R99). -/
theorem hostStep_phase (h : hostStep s = .next t) : t.phase = s.phase ∨
    (s.phase = .idle ∧ ∃ v, t.phase = .busy { cmd := v, args := s.args } ∧
      (s.host.code[s.host.pc]? = some (.wr .cmd v) ∨
        s.host.code[s.host.pc]? = some (.busWr (s.params.regBase + 0x10) 8 v))) := by
  obtain rfl | ⟨x, hx, hs⟩ := hostStep_cases h
  · exact .inl rfl
  · obtain ⟨r, v, rfl, hr⟩ | ⟨_, _, _, _, rfl⟩ | ⟨_, _, rfl⟩ := hostStmt_cases hs
    · obtain same | ⟨rfl, idle, e⟩ := s.advanceHost.writeReg_phase r v
      · exact .inl same
      · refine .inr ⟨idle, v, by rw [e]; rfl, ?_⟩
        obtain rfl | rfl := hr
        · exact .inl hx
        · exact .inr hx
    · exact .inl rfl
    · exact .inl rfl

/-- A step on the reset's turn is the reset (R260). -/
theorem step_reset (h : s.nextTurn = .reset) : step s = .next s.popTurn.pulseReset := by
  simp only [step, takeTurn, h]

/-- Settles O50: by whose turn it is. -/
theorem phaseChangesOnlyAsListed : Obligations.PhaseChangesOnlyAsListed := by
  refine ⟨fun s t hs => ?_, fun s _ turn => ?_, fun s v idle turn hx => ?_, fun s turn => ?_,
    fun s => ⟨by rw [s.statusWord_ready, decide_eq_true_iff], s.statusWord_busy⟩⟩
  · obtain ⟨turn, hb⟩ | ⟨turn, hh⟩ | ⟨a, v, _, hw⟩ | ⟨turn, rfl⟩ := step_cases hs
    · obtain ⟨idle, done⟩ := blockStep_phase hb
      cases hp : s.phase with
      | building => exact .inr (.inl ⟨rfl, turn, idle⟩)
      | idle => exact .inl idle
      | busy snap => exact .inr (.inr (.inr (.inl ⟨⟨snap, rfl⟩, turn, idle, done ⟨snap, hp⟩⟩)))
    · obtain same | ⟨idle, accepted⟩ := hostStep_phase hh
      · exact .inl same
      · exact .inr (.inr (.inl ⟨idle, turn, accepted⟩))
    · obtain ⟨_, _, rfl⟩ := agentWrite_next hw
      exact .inl rfl
    · exact .inr (.inr (.inr (.inr ⟨turn, rfl⟩)))
  · obtain ⟨t, hb⟩ := blockStep_total s.popTurn
    exact ⟨t, (step_block turn).trans hb, (blockStep_phase hb).1⟩
  · refine ⟨s.popTurn.advanceHost.accept v, ?_, rfl⟩
    rw [step_host turn, hostStep_statement (s := s.popTurn) hx, hostStmt,
      State.writeReg_cmd_idle (s := s.popTurn.advanceHost) idle]
  · exact ⟨s.popTurn.pulseReset, step_reset turn, rfl⟩

/-! ### The tables (R42), and what the other agents' turns leave -/

/-- The host's turn leaves the tables, RES and WOUT (R42). -/
theorem hostStep_leaves (h : hostStep s = .next t) : t.tables = s.tables ∧ t.res = s.res ∧ t.wout = s.wout := by
  obtain rfl | ⟨x, _, hs⟩ := hostStep_cases h
  · exact ⟨rfl, rfl, rfl⟩
  · obtain ⟨r, v, rfl, _⟩ | ⟨_, _, _, _, rfl⟩ | ⟨_, _, rfl⟩ := hostStmt_cases hs
    · exact s.advanceHost.writeReg_leaves r v
    · exact ⟨rfl, rfl, rfl⟩
    · exact ⟨rfl, rfl, rfl⟩

/-- A step that is no reset and not the block's leaves the tables, RES and WOUT. -/
theorem step_leaves (h : step s = .next t) (block : s.nextTurn ≠ .block) (reset : s.nextTurn ≠ .reset) :
    t.tables = s.tables ∧ t.res = s.res ∧ t.wout = s.wout := by
  obtain ⟨turn, _⟩ | ⟨_, hh⟩ | ⟨_, _, _, hw⟩ | ⟨turn, _⟩ := step_cases h
  · exact absurd turn block
  · exact hostStep_leaves (s := s.popTurn) hh
  · obtain ⟨_, _, rfl⟩ := agentWrite_next hw
    exact ⟨rfl, rfl, rfl⟩
  · exact absurd turn reset

/-- Settles O51: no turn but a reset and the block's changes the tables, and of the block's steps only the end of the build. -/
theorem tablesChangeOnlyByBuildOrReset : Obligations.TablesChangeOnlyByBuildOrReset := by
  refine ⟨fun s t hs changed => ?_, fun t u => ⟨fun e he => ?_, fun a ha => ?_⟩⟩
  · by_cases reset : s.nextTurn = .reset
    · exact .inl reset
    · by_cases turn : s.nextTurn = .block
      · rw [step_block turn] at hs
        obtain ⟨hp, rfl⟩ | ⟨_, rfl⟩ | ⟨_, _, _, _, he⟩ | ⟨_, _, _, _, rfl⟩ := blockStep_cases hs
        · exact .inr ⟨turn, hp, rfl⟩
        · exact absurd rfl changed
        · exact absurd (exec_leaves he).2 changed
        · exact absurd rfl changed
      · exact absurd (step_leaves hs turn reset).1 changed
  · rw [t.alogAt_build he, u.alogAt_build he]
  · obtain ⟨e, he, rfl⟩ := exists_xpow ha
    rw [t.logAt_build_xpow he, u.logAt_build_xpow he]

/-! ### The result registers (R28, R29) -/

/-- A command leaves RES unless it is a scalar command other than DBL that completes without error, and WOUT unless it is
DBL that does (R28, R29, R137). -/
theorem exec_results {i : Instr} (h : exec i s = .next t) :
    (t.res = s.res ∨ (i ∈ [.add, .sub, .mul, .div, .log, .alog] ∧ t.status.errcode = .none)) ∧
      (t.wout = s.wout ∨ (i ∈ [.dbl] ∧ t.status.errcode = .none)) := by
  cases i <;> simp only [exec, execAdd, execSub, execMul, execDiv, execLog, execAlog, execDbl, execPqs, execPqw, execPonly,
    execQs, execQw, execRec1, execRec2] at h
  case add | sub | mul | alog =>
    obtain ⟨_, _, ⟨u, hu, rfl⟩ | ⟨_, _, rfl⟩⟩ := runCommand_next h
    · cases hu; exact ⟨.inr ⟨by simp, rfl⟩, .inl rfl⟩
    · exact ⟨.inl rfl, .inl rfl⟩
  case dbl =>
    obtain ⟨_, _, ⟨u, hu, rfl⟩ | ⟨_, _, rfl⟩⟩ := runCommand_next h
    · cases hu; exact ⟨.inl rfl, .inr ⟨by simp, rfl⟩⟩
    · exact ⟨.inl rfl, .inl rfl⟩
  case div | log =>
    obtain ⟨_, _, ⟨u, hu, rfl⟩ | ⟨_, _, rfl⟩⟩ := runCommand_next h
    · split at hu <;> cases hu
      exact ⟨.inr ⟨by simp, rfl⟩, .inl rfl⟩
    · exact ⟨.inl rfl, .inl rfl⟩
  case pqs | pqw | ponly | qs | qw | rec1 | rec2 =>
    obtain ⟨_, _, ⟨_, _, _, rfl⟩ | ⟨_, rfl, _⟩⟩ := memoryCommand_next h
    · exact ⟨.inl rfl, .inl rfl⟩
    · exact ⟨.inl rfl, .inl rfl⟩

/-- A block's step that changes a result register executes a command (R28, R29). -/
theorem blockStep_results (h : blockStep s = .next t) : (t.res = s.res ∧ t.wout = s.wout) ∨
    ∃ snap i, s.phase = .busy snap ∧ decode snap.cmd = .ok i ∧ exec i s = .next t := by
  obtain ⟨_, rfl⟩ | ⟨_, rfl⟩ | command | ⟨_, _, _, _, rfl⟩ := blockStep_cases h
  · exact .inl ⟨rfl, rfl⟩
  · exact .inl ⟨rfl, rfl⟩
  · exact .inr command
  · exact .inl ⟨rfl, rfl⟩

/-- Settles O52: only the block's turn changes them, and only by a command. -/
theorem resultRegistersChangeOnlyByTheirCommands : Obligations.ResultRegistersChangeOnlyByTheirCommands := by
  intro s t hs reset
  by_cases turn : s.nextTurn = .block
  · rw [step_block turn] at hs
    obtain ⟨res, wout⟩ | ⟨snap, i, hp, hd, he⟩ := blockStep_results hs
    · exact ⟨absurd res, absurd wout⟩
    · have completes : ∀ is, i ∈ is ∧ t.status.errcode = .none → CompletesWithoutError s t is := fun is h =>
        ⟨turn, ⟨snap, hp, i, h.1, hd⟩, (exec_idle he).1, (exec_idle he).2, h.2⟩
      obtain ⟨res, wout⟩ := exec_results he
      exact ⟨fun ne => completes _ (res.resolve_left ne), fun ne => completes _ (wout.resolve_left ne)⟩
  · obtain ⟨_, res, wout⟩ := step_leaves hs turn reset
    exact ⟨absurd res, absurd wout⟩

end Sys2Proof.Machine
end

section
/-! What a command writes and reads of memory (R74, R75): it writes no byte outside its W and RW regions (O33), what it leaves
depends on no byte outside its regions (O34), and a host read sees the bytes no command in flight is writing (O44). -/

namespace Sys2Proof.Machine

variable {s : State} {p : Params} {i : Instr} {a : ArgRegs}

/-! ### Host reads of memory (R74) -/

/-- A region is in flight when the command in flight is legal and names it (R69). -/
theorem mem_inFlight_iff {x : Region} : x ∈ s.inFlight ↔
    ∃ snap i, s.phase = .busy snap ∧ decode snap.cmd = .ok i ∧ x ∈ regionsOf s.params i snap.args := by
  constructor
  · intro h
    unfold State.inFlight at h
    split at h
    · cases h
    · cases h
    · next snap hp =>
      split at h
      · next i hd => exact ⟨snap, i, hp, hd, h⟩
      · cases h
  · rintro ⟨snap, i, hp, hd, h⟩
    rwa [inFlight_busy hp hd]

/-- The bytes a host read gets a free value for are those the command in flight writes (R74). -/
theorem inFlightWrites_iff {b : Nat} : s.inFlightWrites b = true ↔
    ∃ snap i, s.phase = .busy snap ∧ decode snap.cmd = .ok i ∧ WrittenBy s.params i snap.args b := by
  simp only [State.inFlightWrites, List.any_eq_true, Bool.and_eq_true, Region.written_iff, Region.holds_iff,
    mem_inFlight_iff]
  constructor
  · rintro ⟨x, ⟨snap, i, hp, hd, hx⟩, hb⟩
    exact ⟨snap, i, hp, hd, x, hx, hb⟩
  · rintro ⟨snap, i, hp, hd, x, hx, hb⟩
    exact ⟨x, ⟨snap, i, hp, hd, hx⟩, hb⟩

/-- A host read of an existing byte returns it, or a free value while a command in flight writes it (R74). -/
theorem hostStmt_memRd {b : Nat} (n : ValueName) (lt : b < s.params.memSize) :
    hostStmt (.memRd b n) s =
      if s.inFlightWrites b then .next { s.hostSees n ((Config.freeByte s.fresh).setWidth 64) with fresh := s.fresh + 1 }
      else .next (s.hostSees n ((Memory.read s.mem b).setWidth 64)) := by
  rw [hostStmt, State.hostMemRead, if_neg (Nat.not_le.2 lt)]

/-- Settles O44: by whether the command in flight writes the byte. -/
theorem hostReadsSeeOnlySettledBytes : Obligations.HostReadsSeeOnlySettledBytes := by
  refine fun s b n lt => ⟨fun settled => ?_, fun snap i hp hd written => ?_⟩
  · have free : ¬ s.inFlightWrites b = true := fun h =>
      have ⟨snap, i, hp, hd, written⟩ := inFlightWrites_iff.1 h
      settled snap i hp hd written
    rw [hostStmt_memRd n lt, if_neg free, State.hostSees]
  · rw [hostStmt_memRd n lt, if_pos (inFlightWrites_iff.2 ⟨snap, i, hp, hd, written⟩), State.hostSees]

/-! ### The bytes a command writes (R75) -/

/-- Settles O33: every write of a command is a byte write to its W and RW regions (`exec_keeps`), and a command ends by
`complete`, having changed only RES, WOUT and memory (`exec_cases`). -/
theorem commandsWriteOnlyTheirRegions : Obligations.CommandsWriteOnlyTheirRegions := by
  intro s t snap i hp wf h
  have wf' : Memory.wf t.mem = true :=
    exec_keeps (K := fun m => Memory.wf m = true) h hp (fun _ _ b v hm _ => Memory.wf_write b v hm) wf
  refine ⟨wf', fun b unwritten => ?_, ?_⟩
  · have same : Memory.wf t.mem = true ∧ Memory.read t.mem b = Memory.read s.mem b :=
      exec_keeps (K := fun m => Memory.wf m = true ∧ Memory.read m b = Memory.read s.mem b) h hp
        (fun _ m c v hm written => by
          have other : b ≠ c := fun eq => unwritten (eq ▸ written)
          exact ⟨Memory.wf_write c v hm.1, by rw [Memory.read_write hm.1, if_neg other, hm.2]⟩)
        ⟨wf, rfl⟩
    exact same.2
  · obtain ⟨_, _, ⟨_, _, _, rfl⟩ | ⟨_, rfl⟩⟩ := exec_cases h <;> rfl

/-! ### Memories that agree on some bytes

Two runs from memories that agree on a set `N` of bytes keep the memories in agreement as long as each value they write is
computed from bytes of `N`. -/

/-- Two canonical memories that hold the same in every byte of `N`. -/
structure AgreeOn (N : Nat → Prop) (m m' : Memory) : Prop where
  wf : Memory.wf m = true
  wf' : Memory.wf m' = true
  byte : ∀ {b}, N b → Memory.read m' b = Memory.read m b

/-- Two computations that both give a value, the values related by `R`, or both raise the same code. -/
inductive EndAlike {α : Type} (R : α → α → Prop) : Except ErrCode α → Except ErrCode α → Prop where
  | ok {x x' : α} (h : R x x') : EndAlike R (.ok x) (.ok x')
  | error (e : ErrCode) : EndAlike R (.error e) (.error e)

section Loops
variable {α : Type} (R : α → α → Prop)

/-- Related starts and rounds that keep the relation leave `for i in [0, b)` related. -/
theorem forUp_related {f f' : Nat → α → α} (b : Nat) {x x' : α} (start : R x x')
    (round : ∀ k < b, ∀ y y', R y y' → R (f k y) (f' k y')) : R (forUp b f x) (forUp b f' x') := by
  induction b with
  | zero => exact start
  | succ k ih => exact round k (by omega) _ _ (ih fun j hj => round j (by omega))

/-- Related starts and rounds that keep the relation leave `for i in [b-1 downto 0]` related. -/
theorem forDown_related {f f' : Nat → α → α} (b : Nat) : ∀ {x x' : α}, R x x' →
    (∀ k < b, ∀ y y', R y y' → R (f k y) (f' k y')) → R (forDown b f x) (forDown b f' x') := by
  induction b with
  | zero => intro x x' start _; exact start
  | succ k ih => intro x x' start round; exact ih (round k (by omega) _ _ start) fun j hj => round j (by omega)

/-- Related starts and rounds that end alike make a loop that may raise end alike. -/
theorem forUpRaise_related {f f' : Nat → α → Except ErrCode α} (b : Nat) {x x' : α} (start : R x x')
    (round : ∀ k < b, ∀ y y', R y y' → EndAlike R (f k y) (f' k y')) :
    EndAlike R (forUpRaise b f x) (forUpRaise b f' x') := by
  induction b with
  | zero => exact .ok start
  | succ k ih =>
    have before := ih fun j hj => round j (by omega)
    unfold forUpRaise
    generalize forUpRaise k f x = o, forUpRaise k f' x' = o' at before
    cases before with
    | ok h => exact round k (by omega) _ _ h
    | error e => exact .error e

end Loops

section Agree
variable {N : Nat → Prop} {m m' : Memory} (h : AgreeOn N m m')
include h

/-- The same byte written to both, inside `N` or not. -/
theorem AgreeOn.write (c : Nat) {v v' : Byte} (same : v' = v) : AgreeOn N (Memory.write m c v) (Memory.write m' c v') where
  wf := Memory.wf_write c v h.wf
  wf' := Memory.wf_write c v' h.wf'
  byte hb := by rw [Memory.read_write h.wf, Memory.read_write h.wf', same, h.byte hb]

/-- The same word stored in both. -/
theorem AgreeOn.setBufWord (base k : Nat) {v v' : Word} (same : v' = v) :
    AgreeOn N (setBufWord base m k v) (setBufWord base m' k v') where
  wf := wf_setBufWord base k v h.wf
  wf' := wf_setBufWord base k v' h.wf'
  byte hb := by rw [read_setBufWord _ _ _ h.wf, read_setBufWord _ _ _ h.wf', same, h.byte hb]

/-- MemRead of bytes of `N` gives the same from both (R61). -/
theorem AgreeOn.memRead (n : Nat) : ∀ {c : Nat}, (∀ b, InBuf c n b → N b) → memRead m' c n = memRead m c n := by
  have number : ∀ c, (∀ b, InBuf c n b → N b) → Memory.readLE m' c n = Memory.readLE m c n := by
    induction n with
    | zero => intro c _; rfl
    | succ k ih =>
      intro c inN
      have rest : ∀ b, InBuf (c + 1) k b → N b := fun b ⟨lo, hi⟩ => inN b ⟨by omega, by omega⟩
      rw [Memory.readLE, Memory.readLE, h.byte (inN c ⟨by omega, by omega⟩), ih _ rest]
  exact fun {c} inN => congrArg (BitVec.ofNat (8 * n)) (number c inN)

/-- A whole word of a buffer in `N` is the same in both (R72). -/
theorem AgreeOn.bufWord {base n k : Nat} (inN : ∀ b, InBuf base n b → N b) (lt : k < n / 8) :
    bufWord base m' k = bufWord base m k :=
  h.memRead 8 fun b ⟨lo, hi⟩ => inN b ⟨by omega, by omega⟩

end Agree

/-! ### The effects on memories that agree on the regions read -/

/-- A byte of a data block is a byte of the stripe (R71). -/
theorem inBuf_stripe {k b : Nat} (hk : k < a.w) (h : InBuf (a.d + k * a.n) a.n b) : InBuf a.d (a.w * a.n) b := by
  have blocks : (k + 1) * a.n ≤ a.w * a.n := Nat.mul_le_mul_right _ hk
  rw [Nat.succ_mul] at blocks
  obtain ⟨lo, hi⟩ := h
  exact ⟨by omega, by omega⟩

section Effects
variable {N : Nat → Prop}

section Stripe
variable (inD : ∀ b, InBuf a.d (a.w * a.n) b → N b)
include inD

/-- A byte of a data block is the same in both (R71). -/
theorem AgreeOn.dataByte {m m' : Memory} (h : AgreeOn N m m') {k j : Nat} (hk : k < a.w) (hj : j < a.n) :
    Memory.read m' (a.dataAddr k j) = Memory.read m (a.dataAddr k j) :=
  h.byte (inD _ (inBuf_stripe hk ⟨Nat.le_add_right _ _, Nat.add_lt_add_left hj _⟩))

/-- A whole word of a data block is the same in both (R71, R72). -/
theorem AgreeOn.dataWord {m m' : Memory} (h : AgreeOn N m m') {k t : Nat} (hk : k < a.w) (ht : t < a.n / 8) :
    dataWord a m' k t = dataWord a m k t :=
  h.bufWord (fun b hb => inD b (inBuf_stripe hk hb)) ht

theorem pqsEffect_agree (tb : Tables) (inP : ∀ b, InBuf a.p a.n b → N b) (inQ : ∀ b, InBuf a.q a.n b → N b)
    {m m' : Memory} (h : AgreeOn N m m') : AgreeOn N (pqsEffect tb a m) (pqsEffect tb a m') :=
  forUp_related (AgreeOn N) a.w h fun k hk _ _ h =>
    forUp_related (AgreeOn N) a.n h fun j hj m m' h => by
      have d := h.dataByte inD hk hj
      have p := h.byte (inP (a.p + j) ⟨by omega, by omega⟩)
      have afterP := h.write (a.p + j) (congrArg₂ gfAdd p d)
      have q := afterP.byte (inQ (a.q + j) ⟨by omega, by omega⟩)
      exact afterP.write (a.q + j) (congrArg₂ gfAdd q (congrArg (gfMul tb · (tb.alogAt k)) d))

theorem pqwEffect_agree (inP : ∀ b, InBuf a.p a.n b → N b) (inQ : ∀ b, InBuf a.q a.n b → N b)
    {m m' : Memory} (h : AgreeOn N m m') : AgreeOn N (pqwEffect a m) (pqwEffect a m') := by
  unfold pqwEffect
  split
  · exact h
  · next pos =>
    have copy : AgreeOn N (pqwCopy a m) (pqwCopy a m') :=
      forUp_related (AgreeOn N) (a.n / 8) h fun t ht m m' h => by
        have d := h.dataWord inD (show a.w - 1 < a.w by omega) ht
        exact (h.setBufWord a.p t d).setBufWord a.q t d
    split
    · exact copy
    · exact forDown_related (AgreeOn N) (a.w - 1) copy fun k hk _ _ h =>
        forUp_related (AgreeOn N) (a.n / 8) h fun t ht m m' h => by
          have d := h.dataWord inD (show k < a.w by omega) ht
          have afterP := h.setBufWord a.p t (congrArg₂ (· ^^^ ·) (h.bufWord inP ht) d)
          exact afterP.setBufWord a.q t (congrArg₂ (dbl64 · ^^^ ·) (afterP.bufWord inQ ht) d)

theorem copyLast_agree (base : Nat) (pos : a.w ≠ 0) {m m' : Memory} (h : AgreeOn N m m') :
    AgreeOn N (copyLast base a m) (copyLast base a m') :=
  forUp_related (AgreeOn N) (a.n / 8) h fun t ht _ _ h =>
    h.setBufWord base t (h.dataWord inD (show a.w - 1 < a.w by omega) ht)

theorem ponlyEffect_agree (seed : PonlySeed) (inP : ∀ b, InBuf a.p a.n b → N b) {m m' : Memory} (h : AgreeOn N m m') :
    AgreeOn N (ponlyEffect seed a m) (ponlyEffect seed a m') := by
  have fold : ∀ k < a.w, ∀ m m', AgreeOn N m m' → AgreeOn N (ponlyFold a k m) (ponlyFold a k m') := fun k hk _ _ h =>
    forUp_related (AgreeOn N) (a.n / 8) h fun t ht _ _ h =>
      h.setBufWord a.p t (congrArg₂ (· ^^^ ·) (h.bufWord inP ht) (h.dataWord inD hk ht))
  unfold ponlyEffect
  split
  · exact h
  · next pos =>
    cases seed with
    | copy =>
      exact forDown_related (AgreeOn N) (a.w - 1) (copyLast_agree inD a.p pos h) fun k hk => fold k (by omega)
    | accumulate => exact forDown_related (AgreeOn N) a.w h fold

theorem qsEffect_agree (tb : Tables) (inC : ∀ b, InBuf a.coef a.w b → N b) (inQ : ∀ b, InBuf a.q a.n b → N b)
    {m m' : Memory} (h : AgreeOn N m m') : AgreeOn N (qsEffect tb a m) (qsEffect tb a m') :=
  forUp_related (AgreeOn N) a.w h fun k hk m m' h => by
    have coef := h.byte (inC (a.coef + k) ⟨by omega, by omega⟩)
    simp only [coef]
    exact forUp_related (AgreeOn N) a.n h fun j hj m m' h => by
      have q := h.byte (inQ (a.q + j) ⟨by omega, by omega⟩)
      exact h.write (a.q + j) (congrArg₂ gfAdd q (congrArg (gfMul tb · _) (h.dataByte inD hk hj)))

theorem qwEffect_agree (inQ : ∀ b, InBuf a.q a.n b → N b) {m m' : Memory} (h : AgreeOn N m m') :
    AgreeOn N (qwEffect a m) (qwEffect a m') := by
  unfold qwEffect
  split
  · exact h
  · next pos =>
    split
    · exact copyLast_agree inD a.q pos h
    · exact forDown_related (AgreeOn N) (a.w - 1) (copyLast_agree inD a.q pos h) fun k hk _ _ h =>
        forUp_related (AgreeOn N) (a.n / 8) h fun t ht _ _ h =>
          h.setBufWord a.q t
            (congrArg₂ (dbl64 · ^^^ ·) (h.bufWord inQ ht) (h.dataWord inD (show k < a.w by omega) ht))

end Stripe

theorem rec1Effect_agree (tb : Tables) (inQ : ∀ b, InBuf a.q a.n b → N b) (inIQ : ∀ b, InBuf a.iq a.n b → N b)
    {m m' : Memory} (h : AgreeOn N m m') : EndAlike (AgreeOn N) (rec1Effect tb a m) (rec1Effect tb a m') :=
  forUpRaise_related (AgreeOn N) a.n h fun j hj m m' h => by
    have q := h.byte (inQ (a.q + j) ⟨by omega, by omega⟩)
    have iq := h.byte (inIQ (a.iq + j) ⟨by omega, by omega⟩)
    rw [rec1Byte, rec1Byte, q, iq]
    split
    · exact .ok (h.write (a.out1 + j) rfl)
    · exact .error _

theorem rec2Effect_agree (tb : Tables) (inP : ∀ b, InBuf a.p a.n b → N b) (inIP : ∀ b, InBuf a.ip a.n b → N b)
    (inQ : ∀ b, InBuf a.q a.n b → N b) (inIQ : ∀ b, InBuf a.iq a.n b → N b) {m m' : Memory} (h : AgreeOn N m m') :
    EndAlike (AgreeOn N) (rec2Effect tb a m) (rec2Effect tb a m') := by
  unfold rec2Effect
  split
  · next ca cb _ =>
    refine .ok (forUp_related (AgreeOn N) a.n h fun j hj m m' h => ?_)
    have p := h.byte (inP (a.p + j) ⟨by omega, by omega⟩)
    have ip := h.byte (inIP (a.ip + j) ⟨by omega, by omega⟩)
    have q := h.byte (inQ (a.q + j) ⟨by omega, by omega⟩)
    have iq := h.byte (inIQ (a.iq + j) ⟨by omega, by omega⟩)
    simp only [rec2Byte, p, ip, q, iq]
    exact (h.write (a.out1 + j) rfl).write (a.out2 + j) rfl
  · exact .error _

end Effects

/-! ### The bytes a command reads (R75) -/

/-- Two states with the same STATUS, RES and WOUT whose memories agree on `N`. -/
structure AlikeOn (N : Nat → Prop) (t u : State) : Prop where
  status : u.status = t.status
  res : u.res = t.res
  wout : u.wout = t.wout
  mem : AgreeOn N t.mem u.mem

theorem AlikeOn.complete {N : Nat → Prop} {t u : State} (h : AlikeOn N t u) (e : ErrCode) :
    AlikeOn N (t.complete e) (u.complete e) :=
  ⟨congrArg (Status.completed · e) h.status, h.res, h.wout, h.mem⟩

section OtherMemory
variable {snap : Snapshot} {N : Nat → Prop} {m : Memory} (hp : s.phase = .busy snap) (h : AgreeOn N s.mem m)
include hp h

/-- Rules that end alike from the two memories complete alike (R230, R238). -/
theorem runCommand_alike {body body' : Snapshot → Except ErrCode State}
    (same : EndAlike (AlikeOn N) (body snap) (body' snap)) :
    ∃ t u, runCommand s body = .next t ∧ runCommand { s with mem := m } body' = .next u ∧ AlikeOn N t u := by
  rw [runCommand_busy hp, runCommand_busy (s := { s with mem := m }) hp]
  generalize body snap = o, body' snap = o' at same
  cases same with
  | ok alike => exact ⟨_, _, rfl, rfl, alike.complete .none⟩
  | error e =>
    have start : AlikeOn N s { s with mem := m } := ⟨rfl, rfl, rfl, h⟩
    exact ⟨_, _, rfl, rfl, start.complete e⟩

/-- A memory command reads memory only in its effect, for its checks look at addresses alone (R237). -/
theorem memoryCommand_alike {effect : ArgRegs → Memory → Except ErrCode Memory}
    (same : EndAlike (AgreeOn N) (effect snap.args s.mem) (effect snap.args m)) :
    ∃ t u, memoryCommand i s effect = .next t ∧ memoryCommand i { s with mem := m } effect = .next u ∧
      AlikeOn N t u := by
  refine runCommand_alike hp h ?_
  dsimp only
  cases precheck s.params i snap.args with
  | error e => exact .error e
  | ok _ =>
    generalize effect snap.args s.mem = o, effect snap.args m = o' at same
    cases same with
    | ok agree => exact .ok ⟨rfl, rfl, rfl, agree⟩
    | error e => exact .error e

end OtherMemory

/-- A byte of a listed region is named (R69). -/
theorem namedBy_of_mem {x : Region} (hx : x ∈ regionsOf p i a) (b : Nat) (h : InBuf x.base x.len b) : NamedBy p i a b :=
  ⟨x, hx, h⟩

/-- The parity commands read the stripe (R69). -/
theorem namedBy_stripe (hi : i ∈ [.pqs, .pqw, .ponly, .qs, .qw]) (b : Nat) (h : InBuf a.d (a.w * a.n) b) :
    NamedBy p i a b := by
  refine namedBy_of_mem (x := ⟨.stripe, a.d, a.w * a.n, .r⟩) ?_ b h
  simp only [List.mem_cons, List.not_mem_nil, or_false] at hi
  obtain rfl | rfl | rfl | rfl | rfl := hi <;> exact List.mem_cons_self

/-- A byte of a W or RW region is a byte of a region. -/
theorem WrittenBy.namedBy {b : Nat} (h : WrittenBy p i a b) : NamedBy p i a b :=
  have ⟨x, hx, _, hb⟩ := h
  ⟨x, hx, hb⟩

/-- A command ends alike from two memories that agree on the regions it names (R75). -/
theorem exec_alike {snap : Snapshot} {m : Memory} (hp : s.phase = .busy snap)
    (h : AgreeOn (NamedBy s.params i snap.args) s.mem m) :
    ∃ t u, exec i s = .next t ∧ exec i { s with mem := m } = .next u ∧ AlikeOn (NamedBy s.params i snap.args) t u := by
  cases i <;> simp only [exec, execAdd, execSub, execMul, execDiv, execLog, execAlog, execDbl, execPqs, execPqw, execPonly,
    execQs, execQw, execRec1, execRec2]
  case add | sub | mul | alog | dbl => exact runCommand_alike hp h (.ok ⟨rfl, rfl, rfl, h⟩)
  case div =>
    refine runCommand_alike hp h ?_
    cases gfDiv s.tables snap.args.opa snap.args.opb with
    | ok v => exact .ok ⟨rfl, rfl, rfl, h⟩
    | error e => exact .error e
  case log =>
    refine runCommand_alike hp h ?_
    split
    · exact .error _
    · exact .ok ⟨rfl, rfl, rfl, h⟩
  case pqs =>
    exact memoryCommand_alike hp h (.ok (pqsEffect_agree (namedBy_stripe (by simp)) _
      (fun _ hb => (writtenBy_p (by simp) hb).namedBy) (fun _ hb => (writtenBy_q (by simp) hb).namedBy) h))
  case pqw =>
    exact memoryCommand_alike hp h (.ok (pqwEffect_agree (namedBy_stripe (by simp))
      (fun _ hb => (writtenBy_p (by simp) hb).namedBy) (fun _ hb => (writtenBy_q (by simp) hb).namedBy) h))
  case ponly =>
    exact memoryCommand_alike hp h (.ok (ponlyEffect_agree (namedBy_stripe (by simp)) _
      (fun _ hb => (writtenBy_p (by simp) hb).namedBy) h))
  case qs =>
    exact memoryCommand_alike hp h (.ok (qsEffect_agree (namedBy_stripe (by simp)) _
      (namedBy_of_mem (x := ⟨.coef, snap.args.coef, snap.args.w, .r⟩) (by simp [regionsOf]))
      (fun _ hb => (writtenBy_q (by simp) hb).namedBy) h))
  case qw =>
    exact memoryCommand_alike hp h (.ok (qwEffect_agree (namedBy_stripe (by simp))
      (fun _ hb => (writtenBy_q (by simp) hb).namedBy) h))
  case rec1 =>
    exact memoryCommand_alike hp h (rec1Effect_agree _
      (namedBy_of_mem (x := ⟨.q, snap.args.q, snap.args.n, .r⟩) (by simp [regionsOf]))
      (namedBy_of_mem (x := ⟨.partialQ, snap.args.iq, snap.args.n, .r⟩) (by simp [regionsOf])) h)
  case rec2 =>
    exact memoryCommand_alike hp h (rec2Effect_agree _
      (namedBy_of_mem (x := ⟨.p, snap.args.p, snap.args.n, .r⟩) (by simp [regionsOf]))
      (namedBy_of_mem (x := ⟨.partialP, snap.args.ip, snap.args.n, .r⟩) (by simp [regionsOf]))
      (namedBy_of_mem (x := ⟨.q, snap.args.q, snap.args.n, .r⟩) (by simp [regionsOf]))
      (namedBy_of_mem (x := ⟨.partialQ, snap.args.iq, snap.args.n, .r⟩) (by simp [regionsOf])) h)

/-- Settles O34: memories that agree on the named regions stay in agreement there, and every value written to a register or
to memory is computed from those bytes (`exec_alike`). -/
theorem commandsReadOnlyTheirRegions : Obligations.CommandsReadOnlyTheirRegions := by
  intro s snap i m hp wf wf' same
  obtain ⟨t, u, ht, hu, alike⟩ := exec_alike (i := i) hp ⟨wf, wf', fun hb => same _ hb⟩
  exact ⟨t, u, ht, hu, alike.status, alike.res, alike.wout, fun _ => alike.mem.byte⟩

end Sys2Proof.Machine
end

section
/-! The decoder (R90 to R92): the two fields of a command word, the map from OPCODE to command, and the round trip with the
encoder. -/

namespace Sys2Proof

/-! ### The two fields of a command word (R90) -/

/-- RSVD, bits [63:8], is 0 exactly when the word is below 256. -/
theorem rsvd_eq_zero_iff (c : Word) : c.extractLsb' 8 56 = 0 ↔ c.toNat / 256 = 0 := by
  have field : (c.extractLsb' 8 56).toNat = c.toNat / 256 := by
    rw [BitVec.extractLsb'_toNat, Nat.shiftRight_eq_div_pow]
    have := c.isLt
    omega
  rw [← field, ← BitVec.toNat_inj]
  rfl

/-- OPCODE, bits [7:0], is the word modulo 256. -/
theorem opcode_toNat (c : Word) : (c.extractLsb' 0 8).toNat = c.toNat % 256 := by simp

theorem encode_lt (i : Instr) : (encode i).toNat < 256 := by cases i <;> decide

/-! ### The opcode map (R91) -/

/-- An OPCODE is a command's exactly when it is the number of the command's word. -/
theorem instrOfOpcode_eq_some_iff {op : Nat} {i : Instr} : instrOfOpcode op = some i ↔ op = (encode i).toNat := by
  constructor
  · intro h
    unfold instrOfOpcode at h
    split at h <;> cases h <;> rfl
  · rintro rfl
    cases i <;> rfl

/-- R91's table, OPCODE by OPCODE. -/
def opcodeMap : List (Nat × Instr) :=
  [(0x01, .add), (0x02, .sub), (0x03, .mul), (0x04, .div), (0x05, .log), (0x06, .alog), (0x07, .dbl),
    (0x10, .pqs), (0x11, .pqw), (0x12, .ponly), (0x13, .qs), (0x14, .qw), (0x20, .rec1), (0x21, .rec2)]

/-- The decoder's table is R91's. -/
theorem mem_opcodeMap_iff {op : Nat} {i : Instr} : (op, i) ∈ opcodeMap ↔ instrOfOpcode op = some i := by
  rw [instrOfOpcode_eq_some_iff]
  cases i <;> simp [opcodeMap, encode]

theorem mem_assignedOpcodes_iff {op : Nat} : op ∈ assignedOpcodes ↔ ∃ i, instrOfOpcode op = some i := by
  have firsts : assignedOpcodes = opcodeMap.map Prod.fst := rfl
  simp [firsts, mem_opcodeMap_iff]

/-! ### Decoding (R92) -/

/-- A word decodes to a command exactly when RSVD is 0 and OPCODE is that command's. -/
theorem decode_eq_ok_iff {c : Word} {i : Instr} :
    decode c = .ok i ↔ c.toNat / 256 = 0 ∧ instrOfOpcode (c.toNat % 256) = some i := by
  rw [decode, opcode_toNat, ← rsvd_eq_zero_iff]
  split
  · next rsvd => exact iff_of_false nofun fun h => rsvd h.1
  · next rsvd =>
    rw [not_not] at rsvd
    cases instrOfOpcode (c.toNat % 256) <;> simp [rsvd]

/-- A word is a command's exactly when it is the command's encoding. -/
theorem decode_eq_ok_iff_eq_encode {c : Word} {i : Instr} : decode c = .ok i ↔ c = encode i := by
  rw [decode_eq_ok_iff, instrOfOpcode_eq_some_iff, ← BitVec.toNat_inj]
  have := encode_lt i
  omega

theorem decode_encode (i : Instr) : decode (encode i) = .ok i := decode_eq_ok_iff_eq_encode.2 rfl

/-- The legal words are those that decode to a command. -/
theorem commandWordOk_iff {c : Word} : commandWordOk c = true ↔ ∃ i, decode c = .ok i := by
  simp only [commandWordOk, Bool.and_eq_true, beq_iff_eq, List.contains_iff_mem, mem_assignedOpcodes_iff, decode_eq_ok_iff,
    exists_and_left]

/-- Every word that is no legal word is illegal (R92). -/
theorem decode_eq_error_iff {c : Word} : (∃ e, decode c = .error e) ↔ commandWordOk c = false := by
  rw [← Bool.not_eq_true, commandWordOk_iff]
  cases decode c <;> simp

/-- Settles O3: the decoder's two conditions on the fields of a word say that the word is the command's encoding. -/
theorem decodeOfEncodeIsTheCommand : Obligations.DecodeOfEncodeIsTheCommand :=
  fun _ _ => decode_eq_ok_iff_eq_encode

/-- Settles O2: the decoder's table is R91's, and a word outside it is illegal. -/
theorem decodeIsExactlyTheOpcodeMap : Obligations.DecodeIsExactlyTheOpcodeMap :=
  ⟨fun _ _ => decode_eq_ok_iff.trans (and_congr_right fun _ => mem_opcodeMap_iff.symm), fun _ => decode_eq_error_iff⟩

/-- Settles O1: the fourteen words are the commands' encodings; the words beside them are decoded as they stand. -/
theorem decodeReadsTheSpecWords : Obligations.DecodeReadsTheSpecWords :=
  ⟨decode_encode .add, decode_encode .sub, decode_encode .mul, decode_encode .div, decode_encode .log, decode_encode .alog,
    decode_encode .dbl, decode_encode .pqs, decode_encode .pqw, decode_encode .ponly, decode_encode .qs, decode_encode .qw,
    decode_encode .rec1, decode_encode .rec2, rfl, rfl, rfl, rfl, rfl, rfl⟩

end Sys2Proof
end

section
/-! The execute step, the host's statements and the bus transactions of a run (R94 to R101). -/

namespace Sys2Proof.Machine

variable {s t : State}

/-! ### The execute step (R97) -/

/-- On the block's turn the step executes the command in flight. -/
theorem step_command {snap : Snapshot} {i : Instr} (hp : s.phase = .busy snap) (turn : s.nextTurn = .block)
    (d : decode snap.cmd = .ok i) : step s = exec i s.popTurn := by
  rw [step_block turn, blockStep_command (s := s.popTurn) hp d]

/-! What ending the build leaves of the state, in any phase. -/

@[simp] theorem State.built_args (s : State) : s.built.args = s.args := by unfold State.built; split <;> rfl
@[simp] theorem State.built_mem (s : State) : s.built.mem = s.mem := by unfold State.built; split <;> rfl
@[simp] theorem State.built_params (s : State) : s.built.params = s.params := by unfold State.built; split <;> rfl

/-- The number of a command word stands for the word itself (log 14). -/
theorem State.withFetchWord_toNat (s : State) (w : Word) : s.withFetchWord 64 w.toNat = s.placeCommand w := by
  rw [State.withFetchWord, Nat.mod_eq_of_lt w.isLt, BitVec.ofNat_toNat, BitVec.setWidth_eq]

/-- A placed word is in flight with the arguments as they stand (R94, log 14). -/
theorem State.placeCommand_phase (s : State) (w : Word) : (s.placeCommand w).phase = .busy { cmd := w, args := s.args } := by
  simp [State.placeCommand]

/-- Settles O4: a placed word is in flight on the block's turn, and such a step is the command's. -/
theorem stepRunsTheDecodedCommand : Obligations.StepRunsTheDecodedCommand := by
  refine ⟨fun s snap i => step_command, fun s i => ⟨(s.placeCommand (encode i)).popTurn, ?_⟩⟩
  rw [State.withFetchWord_toNat]
  exact ⟨s.placeCommand_phase _, rfl, s.built_mem, s.built_params,
    step_command (s.placeCommand_phase _) rfl (decode_encode i)⟩

/-! ### The host's statements (R94, R95, R99) -/

/-- On the host's turn the step is its next statement, the position moved past it. -/
theorem step_statement {x : HostStmt} (turn : s.nextTurn = .host) (hx : s.host.code[s.host.pc]? = some x) :
    step s = hostStmt x s.popTurn.advanceHost := by
  rw [step_host turn, hostStep_statement (s := s.popTurn) hx]

/-- A CMD write while not IDLE is dropped (R95). -/
theorem State.writeReg_cmd_not_idle (h : s.phase ≠ .idle) (v : Word) : s.writeReg .cmd v = s.drop := by
  cases hp : s.phase with
  | idle => exact absurd hp h
  | building => simp [State.writeReg, State.writeCmd, hp]
  | busy snap => simp [State.writeReg, State.writeCmd, hp]

/-- Settles O42: the host's statement is an accepted CMD write. -/
theorem cmdWriteWhenIdleIsAccepted : Obligations.CmdWriteWhenIdleIsAccepted := by
  intro s v idle turn hx
  rw [step_statement turn hx, hostStmt, State.writeReg_cmd_idle (s := s.popTurn.advanceHost) idle]
  rfl

/-- Settles O43: the host's statement is a dropped CMD write. -/
theorem cmdWriteOtherwiseIsDropped : Obligations.CmdWriteOtherwiseIsDropped := by
  intro s v busy turn hx
  rw [step_statement turn hx, hostStmt, State.writeReg_cmd_not_idle (s := s.popTurn.advanceHost) busy]
  rfl

/-- A goto moves the host to its target exactly when its condition holds. -/
theorem hostStmt_gotoIf (s : State) (c : Cond) (target : Nat) : hostStmt (.gotoIf c target) s =
    .next { s with host := { s.host with pc := if Cond.holds s.host.reads c then target else s.host.pc } } := by
  rw [hostStmt]
  split <;> rfl

/-- A condition `s[hi:lo] == v` tests that field of the named value (R7). -/
theorem Cond.holds_field (reads : List (ValueName × Word)) (n : ValueName) (hi lo : Fin 64) (v : Nat) :
    Cond.holds reads (.field n hi lo v) =
      decide (((valueNamed reads n).extractLsb' lo.val (hi.val + 1 - lo.val)).toNat = v) := by
  rw [Cond.holds, BitVec.extractLsb'_toNat, Nat.shiftRight_eq_div_pow]

/-- A statement that reads nothing under a name leaves that name's value (R99). -/
theorem hostStmt_keeps_valueNamed {x : HostStmt} {n : ValueName} (h : hostStmt x s = .next t) (rd : ∀ r, x ≠ .rd r n)
    (busRd : ∀ a b, x ≠ .busRd a b n) (memRd : ∀ a, x ≠ .memRd a n) :
    valueNamed t.host.reads n = valueNamed s.host.reads n := by
  obtain ⟨_, _, _, same | ⟨m, v, named, read⟩⟩ := hostStmt_host h
  · rw [same]
  · have ne : m ≠ n := by
      rintro rfl
      obtain ⟨r, hr⟩ | ⟨a, b, hb⟩ | ⟨a, ha⟩ := read
      · exact rd r hr
      · exact busRd a b hb
      · exact memRd a ha
    rw [named, valueNamed_other _ ne]

/-- Settles O56: what a statement names, the equation of a goto, and the two forms of a condition on one value. -/
theorem conditionsSeeEveryNamedValue : Obligations.ConditionsSeeEveryNamedValue := by
  refine ⟨fun s t x n h => ⟨?_, hostStmt_keeps_valueNamed h⟩, hostStmt_gotoIf, fun reads n k val => ?_,
    fun reads n hi lo v => ?_⟩
  · rintro r rfl
    cases h
    exact valueNamed_same ..
  · rw [Cond.holds_bit, decide_eq_true_iff]
  · rw [Cond.holds_field, decide_eq_true_iff]

/-- Settles O46: the read names STATUS's value, and the goto tests the bit of it. -/
theorem pollingLoopRepeatsOnTheBit : Obligations.PollingLoopRepeatsOnTheBit := by
  intro s n bit val hrd hgoto
  refine ⟨s.advanceHost.hostSees n s.statusWord, _, hostStep_statement hrd,
    (hostStep_statement (s := s.advanceHost.hostSees n s.statusWord) hgoto).trans (hostStmt_gotoIf ..), ?_⟩
  simp only [State.advanceHost, State.hostSees, Cond.holds_bit, valueNamed_same, decide_eq_true_eq]

/-! ### The bus transactions of a run (R99) -/

/-- A run that goes on takes a step and then runs on. -/
theorem run_succ_next {k : Nat} (h : Sys2Proof.core.run (k + 1) s = .next t) :
    ∃ u, step s = .next u ∧ Sys2Proof.core.run k u = .next t := by
  simp only [Host.Core.run] at h
  split at h
  · next u hu => exact ⟨u, hu, h⟩
  · cases h
  · cases h

/-- The first statement's transaction, then those of the statements after it. -/
theorem listedTxns_cons (p : Params) (x : HostStmt) (code : List HostStmt) :
    listedTxns p (x :: code) = (stmtTxn p x).toList ++ listedTxns p code := by
  rw [listedTxns, List.filterMap_cons]
  cases stmtTxn p x <;> rfl

/-- The statements from position `i` to a later position `j`, the one at `i` first. -/
theorem take_drop_of_getElem? {code : List HostStmt} {x : HostStmt} {i j : Nat} (hx : code[i]? = some x) (lt : i < j) :
    (code.drop i).take (j - i) = x :: (code.drop (i + 1)).take (j - (i + 1)) := by
  obtain ⟨_, rfl⟩ := List.getElem?_eq_some_iff.1 hx
  rw [List.drop_eq_getElem_cons, show j - i = j - (i + 1) + 1 by omega, List.take_succ_cons]

/-- Settles O57, by induction on the steps: each puts nothing on the bus and leaves the host where it is, or passes one
statement and puts that statement's transaction there (`step_straight`). -/
theorem runsPutTheListingOnTheBus : Obligations.RunsPutTheListingOnTheBus := by
  intro k
  induction k with
  | zero =>
    intro s t _ inside run
    cases run
    simp [listedTxns, inside]
  | succ k ih =>
    intro s t straight inside run
    obtain ⟨u, hu, run⟩ := run_succ_next run
    obtain ⟨code, params, ⟨pc, txn⟩ | ⟨x, hx, pc, txn⟩⟩ := step_straight straight hu
    · have rest := ih u t (code ▸ straight) (by rwa [code, pc]) run
      rw [code, params, pc] at rest
      rwa [runTxns_succ k hu, txn]
    · obtain ⟨lt, _⟩ := List.getElem?_eq_some_iff.1 hx
      have rest := ih u t (code ▸ straight) (by rw [code, pc]; exact lt) run
      rw [code, params, pc] at rest
      obtain ⟨forward, ended, listed⟩ := rest
      refine ⟨by omega, ended, ?_⟩
      rw [runTxns_succ k hu, txn, listed, take_drop_of_getElem? hx (by omega), listedTxns_cons]

end Sys2Proof.Machine
end

section
/-! Word doubling (R125, R126): what an operation on words does to a lane, and that `dbl64` doubles each lane. -/

namespace Sys2Proof.Machine

/-! ### Lanes of words (R62) -/

theorem laneOf_toNat (k : Nat) (x : Word) : (laneOf k x).toNat = x.toNat / 256 ^ k % 256 := by
  rw [laneOf, BitVec.extractLsb'_toNat, Nat.shiftRight_eq_div_pow, Nat.pow_mul]

theorem laneOf_and (k : Nat) (x y : Word) : laneOf k (x &&& y) = laneOf k x &&& laneOf k y := by
  simp [laneOf, BitVec.extractLsb'_and]

theorem getLsbD_laneOf (k : Nat) (x : Word) {i : Nat} (hi : i < 8) :
    (laneOf k x).getLsbD i = x.getLsbD (8 * k + i) := by
  simp [laneOf, hi]

/-! ### The three steps of `dbl64` -/

/-- A shift left within the lanes: the mask drops the bit that enters from the lane below. -/
theorem laneOf_shiftLeft_masked (x : Word) {k : Nat} (hk : k < 8) :
    laneOf k ((x <<< 1) &&& 0xFEFEFEFEFEFEFEFE) = laneOf k x <<< 1 := by
  have mask : ∀ k < 8, laneOf k (0xFEFEFEFEFEFEFEFE : Word) = 0xFE := by decide
  have maskBit : ∀ i < 8, (0xFE : Byte).getLsbD i = decide (1 ≤ i) := by decide
  rw [laneOf_and, mask k hk]
  apply BitVec.eq_of_getLsbD_eq
  intro i hi
  rw [BitVec.getLsbD_and, maskBit i hi, getLsbD_laneOf k _ hi, BitVec.getLsbD_shiftLeft, BitVec.getLsbD_shiftLeft]
  cases i with
  | zero => simp
  | succ j =>
    have below : 8 * k + (j + 1) - 1 = 8 * k + j := by omega
    rw [below, Nat.add_sub_cancel, getLsbD_laneOf k x (by omega)]
    simp [hi, show 8 * k + (j + 1) < 64 by omega]

/-- The sign bit of each lane, as bit 0 of the lane. -/
def laneSigns (x : Word) : Word := (x >>> 7) &&& 0x0101010101010101

theorem laneOf_laneSigns (x : Word) {k : Nat} (hk : k < 8) :
    laneOf k (laneSigns x) = if (laneOf k x).getLsbD 7 then 1 else 0 := by
  have mask : ∀ k < 8, laneOf k (0x0101010101010101 : Word) = 1 := by decide
  have sign : (laneOf k (x >>> 7)).getLsbD 0 = (laneOf k x).getLsbD 7 := by
    rw [getLsbD_laneOf k _ (by omega), getLsbD_laneOf k _ (by omega), BitVec.getLsbD_ushiftRight, Nat.add_comm]
  rw [laneSigns, laneOf_and, mask k hk, show (1 : Byte) = 1#8 from rfl, BitVec.and_one_eq_setWidth_ofBool_getLsbD, sign]
  cases (laneOf k x).getLsbD 7 <;> rfl

/-- The sign bits at their places, shifted down (R125 `hi >> 7`). -/
theorem signBits_shiftRight (x : Word) : (x &&& 0x8080808080808080) >>> 7 = laneSigns x :=
  BitVec.ushiftRight_and_distrib _ _ _

/-- The sign bits at their places, shifted out of their lanes (R125 `hi << 1`). -/
theorem signBits_shiftLeft (x : Word) : (x &&& 0x8080808080808080) <<< 1 = laneSigns x * 256 := by
  have back : laneSigns x <<< 7 = x &&& 0x8080808080808080 := by
    rw [← signBits_shiftRight, BitVec.shiftLeft_ushiftRight, BitVec.and_assoc]
    rfl
  rw [← back, ← BitVec.shiftLeft_add, BitVec.shiftLeft_eq_mul_twoPow]
  rfl

/-- Lanes of at most 1 times 255 make no carry, so the product is lane-wise. -/
theorem lane_mul_255 (T : Nat) (bits : ∀ k < 8, T / 256 ^ k % 256 ≤ 1) {k : Nat} (hk : k < 8) :
    T * 255 / 256 ^ k % 256 = T / 256 ^ k % 256 * 255 := by
  have below : ∀ k ≤ 8, T % 256 ^ k * 255 < 256 ^ k := by
    intro k
    induction k with
    | zero => intro _; simp [Nat.mod_one]
    | succ k ih =>
      intro hk
      have lower := ih (by omega)
      have lane := Nat.mul_le_mul_left (256 ^ k) (bits k (by omega))
      rw [Nat.pow_succ, Nat.mod_mul]
      linarith
  have split : T * 255 = T % 256 ^ k * 255 + 256 ^ k * (T / 256 ^ k * 255) := by
    conv_lhs => rw [← Nat.mod_add_div T (256 ^ k)]
    ring
  rw [split, Nat.add_mul_div_left _ _ (by positivity), Nat.div_eq_of_lt (below k (by omega))]
  have := bits k hk
  omega

/-- The subtraction of `dbl64` fills each lane with its sign bit (R125). -/
theorem laneOf_signMask (x : Word) {k : Nat} (hk : k < 8) :
    laneOf k (((x &&& 0x8080808080808080) <<< 1) - ((x &&& 0x8080808080808080) >>> 7)) =
      if (laneOf k x).getLsbD 7 then 0xFF else 0 := by
  have times255 : laneSigns x * 256 - laneSigns x = laneSigns x * 255 := by ring
  have toNat : (laneSigns x * 255).toNat = (laneSigns x).toNat * 255 := by
    have le : (laneSigns x).toNat ≤ 0x0101010101010101 := Nat.and_le_right
    rw [BitVec.toNat_mul]
    exact Nat.mod_eq_of_lt (by change _ * 255 < _; omega)
  apply BitVec.eq_of_toNat_eq
  rw [signBits_shiftLeft, signBits_shiftRight, times255, laneOf_toNat, toNat, lane_mul_255 _ ?_ hk, ← laneOf_toNat,
    laneOf_laneSigns x hk]
  · split <;> rfl
  · intro j hj
    rw [← laneOf_toNat, laneOf_laneSigns x hj]
    split <;> simp

/-- `dbl64` doubles each lane (R126). -/
theorem laneOf_dbl64 (x : Word) {k : Nat} (hk : k < 8) : laneOf k (dbl64 x) = xtime (laneOf k x) := by
  have poly : ∀ k < 8, laneOf k (0x1D1D1D1D1D1D1D1D : Word) = 0x1D := by decide
  unfold dbl64 xtime
  rw [laneOf_xor, laneOf_shiftLeft_masked x hk, laneOf_and, laneOf_signMask x hk, poly k hk]
  split <;> rfl

end Sys2Proof.Machine
end

section
/-! The scalar commands (R130 to R137) and the laws of the field primitives (R127, R128). -/

namespace Sys2Proof.Machine

/-! ### The scalar commands in flight

What each answers: its result register and a normal end, or the raise of `gf_div` or of LOG. -/

section Scalar
variable {s : State} {snap : Snapshot} (h : s.phase = .busy snap)
include h

theorem exec_add_busy : exec .add s = .next ({ s with res := gfAdd snap.args.opa snap.args.opb }.complete .none) := by
  rw [exec, execAdd, runCommand_busy h]

theorem exec_sub_busy : exec .sub s = .next ({ s with res := gfSub snap.args.opa snap.args.opb }.complete .none) := by
  rw [exec, execSub, runCommand_busy h]

theorem exec_mul_busy :
    exec .mul s = .next ({ s with res := gfMul s.tables snap.args.opa snap.args.opb }.complete .none) := by
  rw [exec, execMul, runCommand_busy h]

theorem exec_alog_busy :
    exec .alog s = .next ({ s with res := s.tables.alogAt snap.args.exponent }.complete .none) := by
  rw [exec, execAlog, runCommand_busy h]

theorem exec_dbl_busy : exec .dbl s = .next ({ s with wout := dbl64 snap.args.win }.complete .none) := by
  rw [exec, execDbl, runCommand_busy h]

theorem exec_div_ok {c : Byte} (q : gfDiv s.tables snap.args.opa snap.args.opb = .ok c) :
    exec .div s = .next ({ s with res := c }.complete .none) := by
  rw [exec, execDiv, runCommand_busy h, q]

theorem exec_div_zero (z : snap.args.opb = 0) : exec .div s = .next (s.complete .domain) := by
  rw [exec, execDiv, runCommand_busy h, gfDiv, if_pos z]

theorem exec_log_ok (nz : snap.args.opa ≠ 0) :
    exec .log s = .next ({ s with res := BitVec.ofNat 8 (s.tables.logAt snap.args.opa) }.complete .none) := by
  rw [exec, execLog, runCommand_busy h, if_neg nz]

theorem exec_log_zero (z : snap.args.opa = 0) : exec .log s = .next (s.complete .domain) := by
  rw [exec, execLog, runCommand_busy h, if_pos z]

end Scalar

/-- The division by a nonzero element does not raise, over any tables (R124). -/
theorem gfDiv_ok (t : Tables) (a : Byte) {b : Byte} (hb : b ≠ 0) : ∃ c, gfDiv t a b = .ok c := by
  rw [gfDiv, if_neg hb]
  split
  · exact ⟨_, rfl⟩
  · exact ⟨_, rfl⟩

/-- Settles O7: addition and subtraction are both XOR. -/
theorem addAndSubGiveTheXor : Obligations.AddAndSubGiveTheXor :=
  ⟨decode_encode .add, decode_encode .sub, fun _ _ hp => ⟨exec_add_busy hp, exec_sub_busy hp⟩⟩

/-- Settles O8: `gf_mul` over built tables is the product of the polynomials. -/
theorem mulGivesTheFieldProduct : Obligations.MulGivesTheFieldProduct :=
  ⟨decode_encode .mul, fun _ _ hp built => by rw [exec_mul_busy hp, built.gfMul_eq]⟩

/-- Settles O9: `gf_div` over built tables is the quotient. -/
theorem divGivesTheFieldQuotient : Obligations.DivGivesTheFieldQuotient := by
  refine ⟨decode_encode .div, fun s snap hp built => ⟨fun nz => ?_, exec_div_zero hp⟩⟩
  obtain ⟨c, quotient, product⟩ := built.gfDiv_eq snap.args.opa nz
  exact ⟨c, product, exec_div_ok hp quotient⟩

/-- Settles O10: the exponent is at most 254, so RES holds it whole. -/
theorem logGivesTheExponent : Obligations.LogGivesTheExponent := by
  refine ⟨decode_encode .log, fun s snap hp built => ⟨fun nz => ?_, exec_log_zero hp⟩⟩
  obtain ⟨lt, power⟩ := built.log_spec nz
  have whole : (BitVec.ofNat 8 (s.tables.logAt snap.args.opa)).toNat = s.tables.logAt snap.args.opa := by
    rw [BitVec.toNat_ofNat, Nat.mod_eq_of_lt (by omega)]
  exact ⟨_, by omega, by rw [whole, power], exec_log_ok hp nz⟩

/-- Settles O11: every exponent of ALOG is an entry of the table. -/
theorem alogGivesThePower : Obligations.AlogGivesThePower := by
  refine ⟨decode_encode .alog, fun s snap hp built => ?_⟩
  have lt := snap.args.opa.isLt
  have exponent : snap.args.exponent = snap.args.opa.toNat := by
    rw [ArgRegs.exponent, BitVec.toNat_setWidth, Nat.mod_eq_of_lt (by omega)]
  rw [exec_alog_busy hp, exponent, built.alogAt_eq (by omega)]

/-- Settles O12: WOUT is `dbl64` of WIN. -/
theorem dblDoublesEveryLane : Obligations.DblDoublesEveryLane :=
  ⟨decode_encode .dbl, fun _ snap hp => ⟨dbl64 snap.args.win, fun _ hk => laneOf_dbl64 _ hk, exec_dbl_busy hp⟩⟩

/-- Settles O32, command by command. -/
theorem scalarCommandsWriteOneResult : Obligations.ScalarCommandsWriteOneResult := by
  intro s snap i scalar hp
  simp only [scalarCommands, List.mem_cons, List.not_mem_nil, or_false] at scalar
  rcases scalar with rfl | rfl | rfl | rfl | rfl | rfl | rfl
  · exact ⟨_, exec_add_busy hp, .inl ⟨by simp, _, rfl⟩⟩
  · exact ⟨_, exec_sub_busy hp, .inl ⟨by simp, _, rfl⟩⟩
  · exact ⟨_, exec_mul_busy hp, .inl ⟨by simp, _, rfl⟩⟩
  · by_cases z : snap.args.opb = 0
    · exact ⟨_, exec_div_zero hp z, .inr (.inr ⟨.inl rfl, rfl⟩)⟩
    · obtain ⟨c, quotient⟩ := gfDiv_ok s.tables snap.args.opa z
      exact ⟨_, exec_div_ok hp quotient, .inl ⟨by simp, _, rfl⟩⟩
  · by_cases z : snap.args.opa = 0
    · exact ⟨_, exec_log_zero hp z, .inr (.inr ⟨.inr rfl, rfl⟩)⟩
    · exact ⟨_, exec_log_ok hp z, .inl ⟨by simp, _, rfl⟩⟩
  · exact ⟨_, exec_alog_busy hp, .inl ⟨by simp, _, rfl⟩⟩
  · exact ⟨_, exec_dbl_busy hp, .inr (.inl ⟨rfl, _, rfl⟩)⟩

/-! ### The field primitives over built tables -/

/-- Multiplying by 2 is doubling (R126). -/
theorem fieldMul_two (a : Byte) : fieldMul a 2 = xtime a := fieldMul_xpow a 1

/-- Settles O13: each lane is doubled, and doubling is multiplication by 2. -/
theorem wordDoublingIsLanewise : Obligations.WordDoublingIsLanewise := fun x k hk =>
  ⟨laneOf_dbl64 x hk, fun t built => by rw [laneOf_dbl64 x hk, built.gfMul_eq, fieldMul_two]⟩

/-- Division is multiplication by the inverse (R127). -/
theorem Tables.Built.gfDiv_eq_gfMul_inverse {t : Tables} (h : t.Built) (a : Byte) {b : Byte} (hb : b ≠ 0) :
    ∃ r v, gfDiv t a b = .ok r ∧ gfDiv t 1 b = .ok v ∧ r = gfMul t a v := by
  obtain ⟨r, quotient, hr⟩ := h.gfDiv_eq a hb
  obtain ⟨v, inverse, hv⟩ := h.gfDiv_eq 1 hb
  refine ⟨r, v, quotient, inverse, fieldMul_cancel hb ?_⟩
  rw [hr, h.gfMul_eq, fieldMul_assoc, hv, fieldMul_one]

/-- Settles O14: over built tables `gf_mul` is the product of polynomials, whose laws are those of `fieldMul`. -/
theorem fieldLawsHold : Obligations.FieldLawsHold := by
  intro t built a b c
  have mul := built.gfMul_eq
  refine ⟨BitVec.xor_comm a b, BitVec.xor_zero, BitVec.xor_self, ?_, ?_, ?_, fun hb => ?_, ?_, ?_, ?_, mul a b,
    built.gfDiv_eq_gfMul_inverse a⟩
  · rw [mul, fieldMul_one]
  · rw [mul, fieldMul_zero_right]
  · rw [mul, mul, fieldMul_comm]
  · rw [mul, built.gfDiv_of_mul a hb]
  · exact if_pos rfl
  · simp only [mul, fieldMul_assoc]
  · simp only [mul, gfAdd, fieldMul_xor_right]

/-- Settles O15: LOG of a nonzero element is at most 254. -/
theorem tableIndexesAreInRange : Obligations.TableIndexesAreInRange := by
  intro t built a b ha hb
  obtain ⟨la, _⟩ := built.log_spec ha
  obtain ⟨lb, _⟩ := built.log_spec hb
  omega

end Sys2Proof.Machine
end

section
/-! The parity commands (R160 to R171): what a pass over a buffer leaves in each byte, and what the passes of PQS, PQW,
PONLY, QS and QW add up to. -/

namespace Sys2Proof.Machine

/-! ### Loops seen at one byte

A loop that keeps `I`, seen through one byte `g` of its state. -/

section Loops
variable {α : Type} {I : α → Prop} {f : Nat → α → α} {g : α → Byte} {b : Nat} {x : α}

/-- A byte that only round `k₀` changes is changed by that round alone. -/
theorem forUp_once {φ : Byte → Byte} {k₀ : Nat} (lt : k₀ < b) (start : I x)
    (round : ∀ k < b, ∀ y, I y → I (f k y) ∧ g (f k y) = if k = k₀ then φ (g y) else g y) :
    I (forUp b f x) ∧ g (forUp b f x) = φ (g x) := by
  have done := forUp_rule (f := f) (fun k y => I y ∧ g y = if k₀ < k then φ (g x) else g x) (x := x) b
    ⟨start, rfl⟩ fun k hk y ⟨iy, gy⟩ => by
      obtain ⟨iy', gy'⟩ := round k hk y iy
      refine ⟨iy', ?_⟩
      rw [gy', gy]
      rcases Nat.lt_trichotomy k k₀ with before | rfl | after
      · rw [if_neg (by omega), if_neg (by omega), if_neg (by omega)]
      · rw [if_pos rfl, if_neg (by omega), if_pos (by omega)]
      · rw [if_neg (by omega), if_pos (by omega), if_pos (by omega)]
  rwa [if_pos lt] at done

/-- Rounds that XOR `F k` into a byte XOR the sum into it. -/
theorem forUp_accumulates {F : Nat → Byte} (start : I x)
    (round : ∀ k < b, ∀ y, I y → I (f k y) ∧ g (f k y) = g y ^^^ F k) : g (forUp b f x) = g x ^^^ xorSum b F := by
  have done := forUp_rule (f := f) (fun k y => I y ∧ g y = g x ^^^ xorSum k F) (x := x) b
    ⟨start, BitVec.xor_zero.symm⟩ fun k hk y ⟨iy, gy⟩ => by
      obtain ⟨iy', gy'⟩ := round k hk y iy
      exact ⟨iy', by rw [gy', gy, xorSum, BitVec.xor_assoc]⟩
  exact done.2

/-- Horner's rule: rounds that double a byte and XOR `F k` into it, the highest first, XOR the sum of `2^k * F k` into the
doubled byte (R163, R169). -/
theorem forDown_horner {F : Nat → Byte} (start : I x)
    (round : ∀ k < b, ∀ y, I y → I (f k y) ∧ g (f k y) = xtime (g y) ^^^ F k) :
    g (forDown b f x) = xtimes b (g x) ^^^ xorSum b fun k => xtimes k (F k) := by
  induction b generalizing x with
  | zero => exact BitVec.xor_zero.symm
  | succ k ih =>
    obtain ⟨first, gx⟩ := round k (by omega) x start
    have doubled : xtimes (k + 1) (g x) = xtimes k (xtime (g x)) := xtimes_add k 1 (g x)
    rw [forDown, ih first fun j hj => round j (by omega), gx, xtimes_xor, doubled, xorSum, BitVec.xor_assoc,
      BitVec.xor_comm (xtimes k (F k))]

/-- Downward rounds that XOR `F k` into a byte XOR the sum into it, for the order does not matter. -/
theorem forDown_accumulates {F : Nat → Byte} (start : I x)
    (round : ∀ k < b, ∀ y, I y → I (f k y) ∧ g (f k y) = g y ^^^ F k) : g (forDown b f x) = g x ^^^ xorSum b F := by
  induction b generalizing x with
  | zero => exact BitVec.xor_zero.symm
  | succ k ih =>
    obtain ⟨first, gx⟩ := round k (by omega) x start
    rw [forDown, ih first fun j hj => round j (by omega), gx, xorSum, BitVec.xor_assoc, BitVec.xor_comm (F k)]

end Loops

/-! ### Words of a buffer, byte by byte (R62, R72) -/

section Words
variable {a : ArgRegs} {m : Memory} (wf : Memory.wf m = true) (base t : Nat)
include wf

/-- Byte `j` of a buffer after word `t` is stored: its lane of the word if it is in that word. -/
theorem read_setBufWord_offset (v : Word) (j : Nat) : Memory.read (setBufWord base m t v) (base + j) =
    if t = j / 8 then laneOf (j % 8) v else Memory.read m (base + j) := by
  rw [read_setBufWord _ _ _ wf]
  by_cases inWord : t = j / 8
  · rw [if_pos (by omega), if_pos inWord, show base + j - (base + 8 * t) = j % 8 by omega]
  · rw [if_neg (by omega), if_neg inWord]

/-- A byte outside the buffer is as before. -/
theorem read_setBufWord_outside {n b : Nat} (lt : t < n / 8) (out : ¬ InBuf base n b) (v : Word) :
    Memory.read (setBufWord base m t v) b = Memory.read m b := by
  rw [read_setBufWord _ _ _ wf, if_neg fun inWord => out ⟨by omega, by omega⟩]

/-- A word XORed into word `t`, seen at byte `j`. -/
theorem read_foldWord (x : Word) (j : Nat) : Memory.read (setBufWord base m t (bufWord base m t ^^^ x)) (base + j) =
    if t = j / 8 then Memory.read m (base + j) ^^^ laneOf (j % 8) x else Memory.read m (base + j) := by
  rw [read_setBufWord_offset wf]
  refine if_ctx_congr Iff.rfl (fun inWord => ?_) fun _ => rfl
  rw [laneOf_xor, laneOf_bufWord _ _ _ _ (by omega), show base + 8 * t + j % 8 = base + j by omega]

/-- Word `t` doubled and a word XORed into it, seen at byte `j` (R126). -/
theorem read_hornerWord (x : Word) (j : Nat) :
    Memory.read (setBufWord base m t (dbl64 (bufWord base m t) ^^^ x)) (base + j) =
      if t = j / 8 then xtime (Memory.read m (base + j)) ^^^ laneOf (j % 8) x else Memory.read m (base + j) := by
  rw [read_setBufWord_offset wf]
  refine if_ctx_congr Iff.rfl (fun inWord => ?_) fun _ => rfl
  rw [laneOf_xor, laneOf_dbl64 _ (by omega), laneOf_bufWord _ _ _ _ (by omega),
    show base + 8 * t + j % 8 = base + j by omega]

end Words

/-! ### Passes of a command over a buffer -/

/-- `m` and `m₀` are canonical and `m` differs from `m₀` in bytes of `W` only. -/
abbrev ChangedWithin (W : Nat → Prop) (m₀ m : Memory) : Prop := AgreeOn (¬ W ·) m₀ m

section Passes
variable {a : ArgRegs} {W : Nat → Prop} {m₀ m : Memory}

theorem ChangedWithin.refl (wf : Memory.wf m = true) : ChangedWithin W m m := ⟨wf, wf, fun _ => rfl⟩

/-- A write inside `W` keeps the bytes outside it. -/
theorem ChangedWithin.write (m : Memory) (c : Nat) (v : Byte) (h : ChangedWithin W m₀ m) (hc : W c) :
    ChangedWithin W m₀ (Memory.write m c v) where
  wf := h.wf
  wf' := Memory.wf_write c v h.wf'
  byte {b} hb := by
    have other : b ≠ c := fun eq => hb (eq ▸ hc)
    rw [Memory.read_write h.wf', if_neg other, h.byte hb]

variable (unwritten : ∀ b, InBuf a.d (a.w * a.n) b → ¬ W b)
include unwritten

/-- The stripe is read as it was at the start (R71). -/
theorem dataByte_start (h : ChangedWithin W m₀ m) {i j : Nat} (hi : i < a.w) (hj : j < a.n) :
    dataByte a m i j = dataByte a m₀ i j := h.dataByte unwritten hi hj

/-- A pass that, in each round, combines a word of data block `i` into the same word of the buffer at `base` combines byte
`j` of the block, as it was at the start, into byte `j` of the buffer (R72). -/
theorem wordPass_round {f : Nat → Memory → Memory} {combine : Byte → Byte → Byte} {base i j : Nat} (shape : a.n % 8 = 0)
    (hi : i < a.w) (hj : j < a.n) (h : ChangedWithin W m₀ m)
    (round : ∀ t < a.n / 8, ∀ m, ChangedWithin W m₀ m → ChangedWithin W m₀ (f t m) ∧ Memory.read (f t m) (base + j) =
      if t = j / 8 then combine (Memory.read m (base + j)) (laneOf (j % 8) (dataWord a m i t))
      else Memory.read m (base + j)) :
    ChangedWithin W m₀ (forUp (a.n / 8) f m) ∧
      Memory.read (forUp (a.n / 8) f m) (base + j) = combine (Memory.read m (base + j)) (dataByte a m₀ i j) := by
  have inPass : j / 8 < a.n / 8 := by omega
  refine forUp_once (g := (Memory.read · (base + j))) (φ := (combine · (dataByte a m₀ i j))) inPass h fun t ht m h => ?_
  obtain ⟨agree, read⟩ := round t ht m h
  refine ⟨agree, read.trans (if_ctx_congr Iff.rfl (fun inWord => ?_) fun _ => rfl)⟩
  have lane : laneOf (j % 8) (dataWord a m i t) = dataByte a m i j := by
    rw [laneOf_dataWord _ _ _ _ _ (by omega), dataByte, show a.d + i * a.n + 8 * t + j % 8 = a.d + i * a.n + j by omega]
  rw [lane, dataByte_start unwritten h hi hj]

end Passes

/-! ### The buffers of a command that passes its checks (R69, R70) -/

section Checks
variable {p : Params} {i : Instr} {a : ArgRegs} {b : Nat}

/-- A command names each of its regions by a role of its own (R69). -/
theorem regionsOf_roles_nodup (p : Params) (i : Instr) (a : ArgRegs) : ((regionsOf p i a).map Region.role).Nodup := by
  cases i <;> simp [regionsOf]

/-- A byte of a read-only region of a command that passes its checks is written by no region (R70). -/
theorem ChecksPass.unwritten (ok : ChecksPass p i a) {x : Region} (hx : x ∈ regionsOf p i a) (read : x.access = .r)
    (b : Nat) (hb : InBuf x.base x.len b) : ¬ WrittenBy p i a b := by
  rintro ⟨y, hy, written, inY⟩
  have role : y.role ≠ x.role := fun eq =>
    written (by rw [List.inj_on_of_nodup_map (regionsOf_roles_nodup p i a) hy hx eq, read])
  exact ok.apart y hy x hx role written b ⟨inY, hb⟩

theorem writtenBy_pq_iff (hi : i = .pqs ∨ i = .pqw) : WrittenBy p i a b ↔ InBuf a.p a.n b ∨ InBuf a.q a.n b := by
  rcases hi with rfl | rfl <;> simp [WrittenBy, regionsOf]

theorem writtenBy_ponly_iff : WrittenBy p .ponly a b ↔ InBuf a.p a.n b := by
  have written : ponlyAccess p ≠ .r := by unfold ponlyAccess; split <;> simp
  simp [WrittenBy, regionsOf, written]

theorem writtenBy_q_iff (hi : i = .qs ∨ i = .qw) : WrittenBy p i a b ↔ InBuf a.q a.n b := by
  rcases hi with rfl | rfl <;> simp [WrittenBy, regionsOf]

theorem stripe_mem_regionsOf (hi : i ∈ [.pqs, .pqw, .ponly, .qs, .qw]) :
    (⟨.stripe, a.d, a.w * a.n, .r⟩ : Region) ∈ regionsOf p i a := by
  simp only [List.mem_cons, List.not_mem_nil, or_false] at hi
  rcases hi with rfl | rfl | rfl | rfl | rfl <;> exact List.mem_cons_self

/-- The stripe is read-only (R69). -/
theorem ChecksPass.stripe_unwritten (ok : ChecksPass p i a) (hi : i ∈ [.pqs, .pqw, .ponly, .qs, .qw]) :
    ∀ b, InBuf a.d (a.w * a.n) b → ¬ WrittenBy p i a b :=
  ok.unwritten (stripe_mem_regionsOf hi) rfl

/-- The coefficient list of QS is read-only (R69). -/
theorem ChecksPass.coef_unwritten (ok : ChecksPass p .qs a) : ∀ b, InBuf a.coef a.w b → ¬ WrittenBy p .qs a b :=
  ok.unwritten (x := ⟨.coef, a.coef, a.w, .r⟩) (by simp [regionsOf]) rfl

/-- P and Q share no byte (R70). -/
theorem ChecksPass.p_apart_q (ok : ChecksPass p i a) (hi : i = .pqs ∨ i = .pqw) (inP : InBuf a.p a.n b) :
    ¬ InBuf a.q a.n b := by
  intro inQ
  rcases hi with rfl | rfl
  · exact ok.apart ⟨.p, a.p, a.n, .rw⟩ (by simp [regionsOf]) ⟨.q, a.q, a.n, .rw⟩ (by simp [regionsOf]) (by simp) (by simp) b
      ⟨inP, inQ⟩
  · exact ok.apart ⟨.p, a.p, a.n, .w⟩ (by simp [regionsOf]) ⟨.q, a.q, a.n, .w⟩ (by simp [regionsOf]) (by simp) (by simp) b
      ⟨inP, inQ⟩

/-- A command whose regions are regions of a command that passes its checks, written only where those are, passes its own if
its shape is right. -/
theorem ChecksPass.of_regions {i' : Instr} (ok : ChecksPass p i a) (shape : ShapeOk i' a)
    (sub : ∀ x ∈ regionsOf p i' a, ∃ y ∈ regionsOf p i a,
      y.role = x.role ∧ y.base = x.base ∧ y.len = x.len ∧ (x.access ≠ .r → y.access ≠ .r)) : ChecksPass p i' a where
  shape := shape
  range x hx pos := by
    obtain ⟨y, hy, _, base, len, _⟩ := sub x hx
    rw [← len] at pos
    rw [← base, ← len]
    exact ok.range y hy pos
  apart x hx z hz role written b := by
    obtain ⟨y, hy, roleY, baseY, lenY, writtenY⟩ := sub x hx
    obtain ⟨u, hu, roleU, baseU, lenU, _⟩ := sub z hz
    have apart := ok.apart y hy u hu (by rwa [roleY, roleU]) (writtenY written) b
    rwa [baseY, lenY, baseU, lenU] at apart

/-- PQS checks nothing that PQW does not (R233 to R235). -/
theorem ChecksPass.pqs_of_pqw (ok : ChecksPass p .pqw a) : ChecksPass p .pqs a :=
  ok.of_regions (by simp [ShapeOk]) (by simp [regionsOf])

/-- QW checks nothing that PQW does not (R233 to R235). -/
theorem ChecksPass.qw_of_pqw (ok : ChecksPass p .pqw a) : ChecksPass p .qw a :=
  ok.of_regions (fun _ => ok.shape (.inl rfl)) (by simp [regionsOf])

end Checks

/-! ### What is left in the P and Q buffers -/

/-- `m` is `m₀` with the bytes `P` and `Q` in the P and Q buffers. -/
structure LeavesParities (a : ArgRegs) (m₀ : Memory) (P Q : Nat → Byte) (m : Memory) : Prop where
  wf : Memory.wf m = true
  p : ∀ j < a.n, Memory.read m (a.p + j) = P j
  q : ∀ j < a.n, Memory.read m (a.q + j) = Q j
  rest : ∀ b, ¬ InBuf a.p a.n b → ¬ InBuf a.q a.n b → Memory.read m b = Memory.read m₀ b

/-- Two such memories are equal exactly when their parities are. -/
theorem LeavesParities.eq_iff {a : ArgRegs} {m₀ m m' : Memory} {P Q P' Q' : Nat → Byte} (h : LeavesParities a m₀ P Q m)
    (h' : LeavesParities a m₀ P' Q' m') : m = m' ↔ ∀ j < a.n, P j = P' j ∧ Q j = Q' j := by
  constructor
  · rintro rfl j hj
    exact ⟨(h.p j hj).symm.trans (h'.p j hj), (h.q j hj).symm.trans (h'.q j hj)⟩
  · intro same
    refine Memory.ext h.wf h'.wf fun b => ?_
    by_cases inP : InBuf a.p a.n b
    · obtain ⟨j, rfl⟩ := Nat.exists_eq_add_of_le inP.1
      have hj : j < a.n := Nat.lt_of_add_lt_add_left inP.2
      rw [h.p j hj, h'.p j hj, (same j hj).1]
    · by_cases inQ : InBuf a.q a.n b
      · obtain ⟨j, rfl⟩ := Nat.exists_eq_add_of_le inQ.1
        have hj : j < a.n := Nat.lt_of_add_lt_add_left inQ.2
        rw [h.q j hj, h'.q j hj, (same j hj).2]
      · rw [h.rest b inP inQ, h'.rest b inP inQ]

/-! ### PQS and QS, byte by byte (R161, R167) -/

theorem inBuf_offset {base n j : Nat} (hj : j < n) : InBuf base n (base + j) := ⟨by omega, by omega⟩

/-- Byte `j` of a buffer after byte `k` is written. -/
theorem read_write_offset {m : Memory} (wf : Memory.wf m = true) (base k : Nat) (v : Byte) (j : Nat) :
    Memory.read (Memory.write m (base + k) v) (base + j) = if k = j then v else Memory.read m (base + j) := by
  rw [Memory.read_write wf]
  exact if_congr (by omega) rfl rfl

section Pqs
variable {p : Params} {a : ArgRegs} {m₀ m : Memory} (tb : Tables) {i j : Nat} (ok : ChecksPass p .pqs a)
include ok

/-- PQS's round at byte `k`, seen at byte `j` of P and of Q. -/
theorem pqsByte_round (hi : i < a.w) {k : Nat} (hk : k < a.n) (hj : j < a.n) (h : ChangedWithin (WrittenBy p .pqs a) m₀ m) :
    ChangedWithin (WrittenBy p .pqs a) m₀ (pqsByte tb a i k m) ∧
      Memory.read (pqsByte tb a i k m) (a.p + j) =
        (if k = j then Memory.read m (a.p + j) ^^^ dataByte a m₀ i j else Memory.read m (a.p + j)) ∧
      Memory.read (pqsByte tb a i k m) (a.q + j) =
        if k = j then Memory.read m (a.q + j) ^^^ gfMul tb (dataByte a m₀ i j) (tb.alogAt i)
        else Memory.read m (a.q + j) := by
  have inP : ∀ {l}, l < a.n → InBuf a.p a.n (a.p + l) := inBuf_offset
  have inQ : ∀ {l}, l < a.n → InBuf a.q a.n (a.q + l) := inBuf_offset
  have apart : ∀ {l l'}, l < a.n → l' < a.n → a.p + l ≠ a.q + l' := fun hl hl' eq =>
    ok.p_apart_q (.inl rfl) (inP hl) (eq ▸ inQ hl')
  have afterP := h.write _ (a.p + k) (gfAdd (Memory.read m (a.p + k)) (Memory.read m (a.dataAddr i k)))
    (writtenBy_p (by simp) (inP hk))
  rw [← dataByte_start (ok.stripe_unwritten (by simp)) h hi hj]
  refine ⟨afterP.write _ _ _ (writtenBy_q (by simp) (inQ hk)), ?_, ?_⟩
  · rw [pqsByte, Memory.read_write afterP.wf', if_neg (apart hj hk), read_write_offset h.wf']
    exact if_ctx_congr Iff.rfl (fun eq => by rw [eq]; rfl) fun _ => rfl
  · rw [pqsByte, read_write_offset afterP.wf', Memory.read_write h.wf', Memory.read_write h.wf',
      if_neg (apart hk hk).symm, if_neg (apart hk hj).symm]
    exact if_ctx_congr Iff.rfl (fun eq => by rw [eq]; rfl) fun _ => rfl

/-- PQS's pass over a block, seen at byte `j` of P and of Q. -/
theorem pqsBlock_round (hi : i < a.w) (hj : j < a.n) (h : ChangedWithin (WrittenBy p .pqs a) m₀ m) :
    ChangedWithin (WrittenBy p .pqs a) m₀ (forUp a.n (pqsByte tb a i) m) ∧
      Memory.read (forUp a.n (pqsByte tb a i) m) (a.p + j) = Memory.read m (a.p + j) ^^^ dataByte a m₀ i j ∧
      Memory.read (forUp a.n (pqsByte tb a i) m) (a.q + j) =
        Memory.read m (a.q + j) ^^^ gfMul tb (dataByte a m₀ i j) (tb.alogAt i) := by
  have round := fun k hk m h => pqsByte_round (m₀ := m₀) (m := m) tb ok hi (k := k) hk hj h
  have once := fun g φ =>
    forUp_once (I := ChangedWithin (WrittenBy p .pqs a) m₀) (f := pqsByte tb a i) (g := g) (φ := φ) hj h
  obtain ⟨agree, readP⟩ := once (Memory.read · (a.p + j)) (· ^^^ dataByte a m₀ i j) fun k hk m h => by
    obtain ⟨agree, readP, _⟩ := round k hk m h
    exact ⟨agree, readP⟩
  obtain ⟨_, readQ⟩ := once (Memory.read · (a.q + j)) (· ^^^ gfMul tb (dataByte a m₀ i j) (tb.alogAt i)) fun k hk m h => by
    obtain ⟨agree, _, readQ⟩ := round k hk m h
    exact ⟨agree, readQ⟩
  exact ⟨agree, readP, readQ⟩

/-- What PQS leaves (R162). -/
theorem pqsEffect_leaves (wf : Memory.wf m = true) :
    LeavesParities a m (fun j => Memory.read m (a.p + j) ^^^ parityP a m j)
      (fun j => Memory.read m (a.q + j) ^^^ xorSum a.w fun i => gfMul tb (dataByte a m i j) (tb.alogAt i))
      (pqsEffect tb a m) := by
  have start := ChangedWithin.refl (W := WrittenBy p .pqs a) wf
  have done : ChangedWithin _ m (pqsEffect tb a m) :=
    pqsEffect_keeps ChangedWithin.write tb a (fun _ => writtenBy_p (by simp)) (fun _ => writtenBy_q (by simp)) start
  refine ⟨done.wf', fun j hj => ?_, fun j hj => ?_, fun b notP notQ => ?_⟩
  · refine forUp_accumulates (g := (Memory.read · (a.p + j))) start fun i hi m h => ?_
    obtain ⟨agree, readP, _⟩ := pqsBlock_round tb ok hi hj h
    exact ⟨agree, readP⟩
  · refine forUp_accumulates (g := (Memory.read · (a.q + j))) start fun i hi m h => ?_
    obtain ⟨agree, _, readQ⟩ := pqsBlock_round tb ok hi hj h
    exact ⟨agree, readQ⟩
  · exact done.byte fun written => ((writtenBy_pq_iff (.inl rfl)).1 written).elim notP notQ

end Pqs

section Qs
variable {p : Params} {a : ArgRegs} {m₀ m : Memory} (tb : Tables) {j : Nat} (ok : ChecksPass p .qs a)
include ok

/-- QS's pass over a block with coefficient `g`, seen at byte `j` of Q. -/
theorem qsBlock_round {i : Nat} (g : Byte) (hi : i < a.w) (hj : j < a.n) (h : ChangedWithin (WrittenBy p .qs a) m₀ m) :
    ChangedWithin (WrittenBy p .qs a) m₀ (forUp a.n (qsByte tb a g i) m) ∧
      Memory.read (forUp a.n (qsByte tb a g i) m) (a.q + j) =
        Memory.read m (a.q + j) ^^^ gfMul tb (dataByte a m₀ i j) g := by
  refine forUp_once (g := (Memory.read · (a.q + j))) (φ := (· ^^^ gfMul tb (dataByte a m₀ i j) g)) hj h fun k hk m h =>
    ⟨h.write _ _ _ (writtenBy_q (by simp) (inBuf_offset hk)), ?_⟩
  rw [← dataByte_start (ok.stripe_unwritten (by simp)) h hi hj, qsByte, read_write_offset h.wf']
  exact if_ctx_congr Iff.rfl (fun eq => by rw [eq]; rfl) fun _ => rfl

/-- What QS leaves (R168). -/
theorem qsEffect_read (wf : Memory.wf m = true) (hj : j < a.n) : Memory.read (qsEffect tb a m) (a.q + j) =
    Memory.read m (a.q + j) ^^^
      xorSum a.w fun i => gfMul tb (dataByte a m i j) (tb.alogAt (Memory.read m (a.coef + i)).toNat) := by
  refine forUp_accumulates (g := (Memory.read · (a.q + j))) (ChangedWithin.refl (W := WrittenBy p .qs a) wf)
    fun i hi m' h => ?_
  have coef : Memory.read m' (a.coef + i) = Memory.read m (a.coef + i) := h.byte (ok.coef_unwritten _ (inBuf_offset hi))
  rw [← coef]
  exact qsBlock_round tb ok _ hi hj h

end Qs

/-! ### P and Q as the loops compute them -/

/-- Over built tables PQS's Q is Q with the coefficients `2^i` (R160, R162). -/
theorem Tables.Built.parityQ_eq {tb : Tables} (built : tb.Built) (a : ArgRegs) (m : Memory) (j : Nat) :
    (xorSum a.w fun i => gfMul tb (dataByte a m i j) (tb.alogAt i)) = parityQ a m j := by
  refine xorSum_congr fun i hi => ?_
  have lt : a.w < 256 := a.width.isLt
  rw [built.gfMul_eq, built.alogAt_eq (by omega)]

/-- A sum is its last term and the sum of the terms before it. -/
theorem xorSum_last {b : Nat} (pos : 1 ≤ b) (f : Nat → Byte) : f (b - 1) ^^^ xorSum (b - 1) f = xorSum b f := by
  obtain ⟨k, rfl⟩ := Nat.exists_eq_add_of_le' pos
  exact BitVec.xor_comm _ _

/-- The blocks before the last one XORed into a copy of it give P (R163, R165). -/
theorem parityP_last {a : ArgRegs} (pos : 1 ≤ a.w) (m : Memory) (j : Nat) :
    dataByte a m (a.w - 1) j ^^^ xorSum (a.w - 1) (fun i => dataByte a m i j) = parityP a m j :=
  xorSum_last pos fun i => dataByte a m i j

/-- Horner's rule from the last block on gives Q (R163, R169). -/
theorem parityQ_horner {a : ArgRegs} (pos : 1 ≤ a.w) (m : Memory) (j : Nat) :
    xtimes (a.w - 1) (dataByte a m (a.w - 1) j) ^^^ xorSum (a.w - 1) (fun i => xtimes i (dataByte a m i j)) =
      parityQ a m j := by
  simp only [parityQ, fieldMul_xpow]
  exact xorSum_last pos fun i => xtimes i (dataByte a m i j)

/-! ### PQW, PONLY and QW, word by word (R163, R165, R169) -/

section Pqw
variable {p : Params} {a : ArgRegs} {m₀ m : Memory} {i j t : Nat} (ok : ChecksPass p .pqw a)
include ok

/-- Word `t` stored in P and then in Q, seen at byte `j` of each. -/
theorem storeBoth_round (ht : t < a.n / 8) (hj : j < a.n) (h : ChangedWithin (WrittenBy p .pqw a) m₀ m) (v v' : Word) :
    ChangedWithin (WrittenBy p .pqw a) m₀ (setBufWord a.p m t v) ∧
    ChangedWithin (WrittenBy p .pqw a) m₀ (setBufWord a.q (setBufWord a.p m t v) t v') ∧
      Memory.read (setBufWord a.q (setBufWord a.p m t v) t v') (a.p + j) =
        Memory.read (setBufWord a.p m t v) (a.p + j) ∧
      Memory.read (setBufWord a.p m t v) (a.q + j) = Memory.read m (a.q + j) := by
  have afterP := setBufWord_keeps ChangedWithin.write (v := v) ht (fun _ => writtenBy_p (by simp)) h
  have afterQ := setBufWord_keeps ChangedWithin.write (v := v') ht (fun _ => writtenBy_q (by simp)) afterP
  refine ⟨afterP, afterQ, ?_, ?_⟩
  · exact read_setBufWord_outside afterP.wf' _ _ ht (ok.p_apart_q (.inr rfl) (inBuf_offset hj)) _
  · exact read_setBufWord_outside h.wf' _ _ ht (fun inP => ok.p_apart_q (.inr rfl) inP (inBuf_offset hj)) _

/-- The copy of the last block into P and Q, seen at byte `j` of each (R163). -/
theorem pqwCopy_round (pos : 1 ≤ a.w) (hj : j < a.n) (h : ChangedWithin (WrittenBy p .pqw a) m₀ m) :
    ChangedWithin (WrittenBy p .pqw a) m₀ (pqwCopy a m) ∧
      Memory.read (pqwCopy a m) (a.p + j) = dataByte a m₀ (a.w - 1) j ∧
      Memory.read (pqwCopy a m) (a.q + j) = dataByte a m₀ (a.w - 1) j := by
  have pass := fun base => wordPass_round (f := fun t m =>
      setBufWord a.q (setBufWord a.p m t (dataWord a m (a.w - 1) t)) t (dataWord a m (a.w - 1) t))
    (combine := fun _ d => d) (base := base) (ok.stripe_unwritten (by simp)) (ok.shape (.inl rfl))
    (show a.w - 1 < a.w by omega) hj h
  obtain ⟨agree, readP⟩ := pass a.p fun t ht m h => by
    obtain ⟨_, agree, readP, _⟩ := storeBoth_round ok ht hj h _ _
    exact ⟨agree, readP.trans (read_setBufWord_offset h.wf' ..)⟩
  obtain ⟨_, readQ⟩ := pass a.q fun t ht m h => by
    obtain ⟨afterP, agree, _, readQ⟩ := storeBoth_round ok ht hj h _ _
    refine ⟨agree, ?_⟩
    rw [read_setBufWord_offset afterP.wf', readQ]
  exact ⟨agree, readP, readQ⟩

/-- A pass of PQW's Horner loop over a block, seen at byte `j` of P and of Q (R163). -/
theorem pqwBlock_round (hi : i < a.w) (hj : j < a.n) (h : ChangedWithin (WrittenBy p .pqw a) m₀ m) :
    ChangedWithin (WrittenBy p .pqw a) m₀ (forUp (a.n / 8) (pqwWord a i) m) ∧
      Memory.read (forUp (a.n / 8) (pqwWord a i) m) (a.p + j) = Memory.read m (a.p + j) ^^^ dataByte a m₀ i j ∧
      Memory.read (forUp (a.n / 8) (pqwWord a i) m) (a.q + j) =
        xtime (Memory.read m (a.q + j)) ^^^ dataByte a m₀ i j := by
  have pass := fun combine base => wordPass_round (f := pqwWord a i) (combine := combine) (base := base)
    (ok.stripe_unwritten (by simp)) (ok.shape (.inl rfl)) hi hj h
  obtain ⟨agree, readP⟩ := pass (· ^^^ ·) a.p fun t ht m h => by
    obtain ⟨_, agree, readP, _⟩ := storeBoth_round ok ht hj h _ _
    exact ⟨agree, readP.trans (read_foldWord h.wf' ..)⟩
  obtain ⟨_, readQ⟩ := pass (xtime · ^^^ ·) a.q fun t ht m h => by
    obtain ⟨afterP, agree, _, readQ⟩ := storeBoth_round ok ht hj h _ _
    refine ⟨agree, ?_⟩
    rw [pqwWord, read_hornerWord afterP.wf', readQ]
  exact ⟨agree, readP, readQ⟩

omit ok in
/-- PQW's effect on a stripe of width at least 1: with one block the Horner loop is empty (R163). -/
theorem pqwEffect_pos (pos : 1 ≤ a.w) :
    pqwEffect a m = forDown (a.w - 1) (fun i => forUp (a.n / 8) (pqwWord a i)) (pqwCopy a m) := by
  rw [pqwEffect, if_neg (by omega)]
  split
  · next one => rw [one]; rfl
  · rfl

/-- What PQW leaves (R164). -/
theorem pqwEffect_leaves (wf : Memory.wf m = true) (pos : 1 ≤ a.w) :
    LeavesParities a m (parityP a m) (parityQ a m) (pqwEffect a m) := by
  have start := ChangedWithin.refl (W := WrittenBy p .pqw a) wf
  have done : ChangedWithin _ m (pqwEffect a m) :=
    pqwEffect_keeps ChangedWithin.write a (fun _ => writtenBy_p (by simp)) (fun _ => writtenBy_q (by simp)) start
  refine ⟨done.wf', fun j hj => ?_, fun j hj => ?_, fun b notP notQ => ?_⟩
  · obtain ⟨copied, readP, _⟩ := pqwCopy_round ok pos hj start
    have folded := forDown_accumulates (g := (Memory.read · (a.p + j))) (b := a.w - 1) copied fun i hi m h => by
      obtain ⟨agree, readP, _⟩ := pqwBlock_round ok (show i < a.w by omega) hj h
      exact ⟨agree, readP⟩
    rw [pqwEffect_pos pos, folded, readP]
    exact parityP_last pos m j
  · obtain ⟨copied, _, readQ⟩ := pqwCopy_round ok pos hj start
    have folded := forDown_horner (g := (Memory.read · (a.q + j))) (b := a.w - 1) copied fun i hi m h => by
      obtain ⟨agree, _, readQ⟩ := pqwBlock_round ok (show i < a.w by omega) hj h
      exact ⟨agree, readQ⟩
    rw [pqwEffect_pos pos, folded, readQ]
    exact parityQ_horner pos m j
  · exact done.byte fun written => ((writtenBy_pq_iff (.inr rfl)).1 written).elim notP notQ

end Pqw

section OneBuffer
variable {p : Params} {a : ArgRegs} {m₀ m : Memory} {i j : Nat}

/-- The copy of the last block into a written buffer, seen at byte `j` (R165 COPY, R169). -/
theorem copyLast_round {W : Nat → Prop} (unwritten : ∀ b, InBuf a.d (a.w * a.n) b → ¬ W b) (shape : a.n % 8 = 0)
    {base : Nat} (inW : ∀ b, InBuf base a.n b → W b) (pos : 1 ≤ a.w) (hj : j < a.n) (h : ChangedWithin W m₀ m) :
    ChangedWithin W m₀ (copyLast base a m) ∧ Memory.read (copyLast base a m) (base + j) = dataByte a m₀ (a.w - 1) j :=
  wordPass_round (combine := fun _ d => d) unwritten shape (show a.w - 1 < a.w by omega) hj h fun _ ht _ h =>
    ⟨setBufWord_keeps ChangedWithin.write ht inW h, read_setBufWord_offset h.wf' ..⟩

/-- A block XORed into P, seen at byte `j` (R165). -/
theorem ponlyFold_round (ok : ChecksPass p .ponly a) (hi : i < a.w) (hj : j < a.n)
    (h : ChangedWithin (WrittenBy p .ponly a) m₀ m) : ChangedWithin (WrittenBy p .ponly a) m₀ (ponlyFold a i m) ∧
      Memory.read (ponlyFold a i m) (a.p + j) = Memory.read m (a.p + j) ^^^ dataByte a m₀ i j :=
  wordPass_round (combine := (· ^^^ ·)) (ok.stripe_unwritten (by simp)) (ok.shape (by simp)) hi hj h fun _ ht _ h =>
    ⟨setBufWord_keeps ChangedWithin.write ht (fun _ => writtenBy_p (by simp)) h, read_foldWord h.wf' ..⟩

/-- A Horner step of QW over a block, seen at byte `j` (R169). -/
theorem qwFold_round (ok : ChecksPass p .qw a) (hi : i < a.w) (hj : j < a.n)
    (h : ChangedWithin (WrittenBy p .qw a) m₀ m) : ChangedWithin (WrittenBy p .qw a) m₀ (qwFold a i m) ∧
      Memory.read (qwFold a i m) (a.q + j) = xtime (Memory.read m (a.q + j)) ^^^ dataByte a m₀ i j :=
  wordPass_round (combine := (xtime · ^^^ ·)) (ok.stripe_unwritten (by simp)) (ok.shape (by simp)) hi hj h fun _ ht _ h =>
    ⟨setBufWord_keeps ChangedWithin.write ht (fun _ => writtenBy_q (by simp)) h, read_hornerWord h.wf' ..⟩

/-- What PONLY leaves under COPY (R166). -/
theorem ponlyEffect_copy_read (ok : ChecksPass p .ponly a) (wf : Memory.wf m = true) (pos : 1 ≤ a.w) (hj : j < a.n) :
    Memory.read (ponlyEffect .copy a m) (a.p + j) = parityP a m j := by
  obtain ⟨copied, read⟩ := copyLast_round (ok.stripe_unwritten (by simp)) (ok.shape (by simp))
    (fun _ => writtenBy_p (by simp)) pos hj (ChangedWithin.refl wf)
  have folded := forDown_accumulates (g := (Memory.read · (a.p + j))) (b := a.w - 1) copied fun i hi m h =>
    ponlyFold_round (i := i) ok (by omega) hj h
  rw [ponlyEffect, if_neg (by omega)]
  exact folded.trans (by rw [read]; exact parityP_last pos m j)

/-- What PONLY leaves under ACCUMULATE (R166). -/
theorem ponlyEffect_accumulate_read (ok : ChecksPass p .ponly a) (wf : Memory.wf m = true) (pos : 1 ≤ a.w) (hj : j < a.n) :
    Memory.read (ponlyEffect .accumulate a m) (a.p + j) = Memory.read m (a.p + j) ^^^ parityP a m j := by
  rw [ponlyEffect, if_neg (by omega)]
  exact forDown_accumulates (g := (Memory.read · (a.p + j))) (ChangedWithin.refl wf) fun i hi m h =>
    ponlyFold_round ok hi hj h

/-- QW's effect on a stripe of width at least 1: with one block the Horner loop is empty (R169). -/
theorem qwEffect_pos (pos : 1 ≤ a.w) : qwEffect a m = forDown (a.w - 1) (qwFold a) (copyLast a.q a m) := by
  rw [qwEffect, if_neg (by omega)]
  split
  · next one => rw [one]; rfl
  · rfl

/-- What QW leaves (R169, R170). -/
theorem qwEffect_read (ok : ChecksPass p .qw a) (wf : Memory.wf m = true) (pos : 1 ≤ a.w) (hj : j < a.n) :
    Memory.read (qwEffect a m) (a.q + j) = parityQ a m j := by
  obtain ⟨copied, read⟩ := copyLast_round (ok.stripe_unwritten (by simp)) (ok.shape (by simp))
    (fun _ => writtenBy_q (by simp)) pos hj (ChangedWithin.refl wf)
  have folded := forDown_horner (g := (Memory.read · (a.q + j))) (b := a.w - 1) copied fun i hi m h =>
    qwFold_round (i := i) ok (by omega) hj h
  rw [qwEffect_pos pos, folded, read]
  exact parityQ_horner pos m j

end OneBuffer

/-! ### The statements -/

/-- A byte that no region of the command writes is as before (R75). -/
theorem exec_frame {s t : State} {snap : Snapshot} {i : Instr} {b : Nat} (hp : s.phase = .busy snap)
    (wf : Memory.wf s.mem = true) (he : exec i s = .next t) (unwritten : ¬ WrittenBy s.params i snap.args b) :
    Memory.read t.mem b = Memory.read s.mem b := by
  obtain ⟨_, frame, _⟩ := commandsWriteOnlyTheirRegions s t snap i hp wf he
  exact frame b unwritten

/-- Settles O18: what PQS's effect leaves, `pqsEffect_leaves`. -/
theorem pqsAccumulatesBothParities : Obligations.PqsAccumulatesBothParities := by
  intro s snap hp wf ok
  have left := pqsEffect_leaves s.tables ok wf
  exact ⟨_, exec_pqs_pass hp ok, left.p, left.q, left.rest⟩

/-- Settles O19: what PQW's effect leaves; PQS leaves the same exactly when what it XORs the parities into is 0. -/
theorem pqwOverwritesBothParities : Obligations.PqwOverwritesBothParities := by
  intro s snap hp wf built ok
  refine ⟨fun zero => ?_, fun pos => ?_⟩
  · rw [exec_pqw_pass hp ok, pqwEffect, if_pos zero]
  · have left := pqwEffect_leaves ok wf pos
    have pqs := pqsEffect_leaves s.tables ok.pqs_of_pqw wf
    refine ⟨_, exec_pqw_pass hp ok, left.p, fun j hj => ?_, left.rest, ?_⟩
    · rw [built.parityQ_eq, left.q j hj]
    · have zeros := pqs.eq_iff left
      simp only [built.parityQ_eq, xor_right_eq_self_iff] at zeros
      rw [exec_pqw_pass hp ok, exec_pqs_pass hp ok.pqs_of_pqw, ← zeros]
      simp [State.complete]

/-- Settles O20: PONLY's effect under either seed. -/
theorem ponlyFoldsByTheSeed : Obligations.PonlyFoldsByTheSeed := by
  intro s snap hp wf ok
  refine ⟨fun zero => ?_, fun pos => ⟨_, exec_ponly_pass hp ok, fun seed j hj => ?_, fun seed j hj => ?_, fun b notP => ?_⟩⟩
  · have unchanged : ponlyEffect s.params.ponlySeed snap.args s.mem = s.mem := by
      unfold ponlyEffect
      exact if_pos zero
    rw [exec_ponly_pass hp ok, unchanged]
  · rw [seed]
    exact ponlyEffect_copy_read ok wf pos hj
  · rw [seed]
    exact ponlyEffect_accumulate_read ok wf pos hj
  · exact exec_frame hp wf (exec_ponly_pass hp ok) (notP ∘ writtenBy_ponly_iff.1)

/-- Settles O21: QS's effect; where entry `i` of the list is `i`, its coefficients are PQS's. -/
theorem qsUsesTheListedExponents : Obligations.QsUsesTheListedExponents := by
  intro s snap hp wf ok
  refine ⟨_, exec_qs_pass hp ok, fun j hj => qsEffect_read s.tables ok wf hj, fun listed j hj => ?_, fun b notQ => ?_⟩
  · rw [qsEffect_read s.tables ok wf hj]
    exact congrArg _ (xorSum_congr fun i hi => by rw [listed i hi])
  · exact exec_frame hp wf (exec_qs_pass hp ok) (notQ ∘ (writtenBy_q_iff (.inl rfl)).1)

/-- Settles O22: what QW's effect leaves, `qwEffect_read`. -/
theorem qwOverwritesQ : Obligations.QwOverwritesQ := by
  intro s snap hp wf _ ok
  refine ⟨fun zero => ?_, fun pos => ⟨_, exec_qw_pass hp ok, fun j hj => qwEffect_read ok wf pos hj, fun b notQ => ?_⟩⟩
  · rw [exec_qw_pass hp ok, qwEffect, if_pos zero]
  · exact exec_frame hp wf (exec_qw_pass hp ok) (notQ ∘ (writtenBy_q_iff (.inr rfl)).1)

/-- Settles O23: PQW and QW leave the stripe's parities, and PQS XORs the same into what it finds. -/
theorem scalarAndWordParityAgree : Obligations.ScalarAndWordParityAgree := by
  intro s snap hp wf built ok pos
  have pqw := pqwEffect_leaves ok wf pos
  have pqs := pqsEffect_leaves s.tables ok.pqs_of_pqw wf
  simp only [built.parityQ_eq] at pqs
  have qw := fun j hj => qwEffect_read (j := j) ok.qw_of_pqw wf pos hj
  refine ⟨_, _, _, exec_pqw_pass hp ok, exec_qw_pass hp ok.qw_of_pqw, exec_pqs_pass hp ok.pqs_of_pqw, fun j hj => ?_,
    fun zeroQ j hj => ?_, fun zeroP j hj => ?_⟩
  · exact (qw j hj).trans (pqw.q j hj).symm
  · simp only [State.complete_mem, pqs.q j hj, qw j hj, zeroQ j hj]
    exact BitVec.zero_xor
  · simp only [State.complete_mem, pqs.p j hj, pqw.p j hj, zeroP j hj]
    exact BitVec.zero_xor

end Sys2Proof.Machine
end

section
/-! The recovery solver (R200 to R209): REC1 divides by one coefficient, REC2 eliminates on two equations, and both give lost
blocks back. -/

namespace Sys2Proof.Machine

/-! ### What the parities miss (R201, R204) -/

/-- `ΔP[j]`: what the partial P misses of P (R204). -/
def deltaP (a : ArgRegs) (m : Memory) (j : Nat) : Byte := Memory.read m (a.p + j) ^^^ Memory.read m (a.ip + j)

/-- `ΔQ[j]`: what the partial Q misses of Q (R201, R204). -/
def deltaQ (a : ArgRegs) (m : Memory) (j : Nat) : Byte := Memory.read m (a.q + j) ^^^ Memory.read m (a.iq + j)

/-- A sum differs from the sum without two of its terms by those terms. -/
theorem xorSum_without_two {b k1 k2 : Nat} (h1 : k1 < b) (h2 : k2 < b) (ne : k1 ≠ k2) (f : Nat → Byte) :
    xorSum b f ^^^ xorSum b (fun i => if i = k1 ∨ i = k2 then 0 else f i) = f k1 ^^^ f k2 := by
  have second := xorSum_without h2 f
  have first := xorSum_without h1 fun i => if i = k2 then 0 else f i
  rw [if_neg ne] at first
  simp only [ite_or]
  rw [BitVec.xor_comm (f k1), ← second, ← first, BitVec.xor_assoc, xor_cancel_left]

/-! ### REC1 (R201, R202) -/

section Rec1
variable {p : Params} {a : ArgRegs} {m : Memory} {tb : Tables} {j : Nat}

/-- In built tables the coefficient of a position is its power of 2, whatever the position (R202). -/
theorem Tables.Built.coefficient (built : tb.Built) (idx : Byte) : tb.alogAt idx.toNat = xpow idx.toNat :=
  built.alogAt_eq (by have := idx.isLt; omega)

/-- No position has coefficient 0 (R202). -/
theorem Tables.Built.coefficient_ne_zero (built : tb.Built) (idx : Byte) : tb.alogAt idx.toNat ≠ 0 := by
  rw [built.coefficient]
  exact xpow_ne_zero _

/-- With a nonzero coefficient REC1's round writes the quotient and does not raise. -/
theorem rec1Byte_ok {g : Byte} (nz : g ≠ 0) (a : ArgRegs) (m : Memory) (j : Nat) :
    ∃ c, gfDiv tb (deltaQ a m j) g = .ok c ∧ rec1Byte tb a g j m = .ok (Memory.write m (a.out1 + j) c) := by
  obtain ⟨c, quotient⟩ := gfDiv_ok tb (deltaQ a m j) nz
  refine ⟨c, quotient, ?_⟩
  rw [deltaQ] at quotient
  rw [rec1Byte, gfAdd, quotient]

/-- REC1's effect never raises (R202). -/
theorem rec1Effect_ne_error (built : tb.Built) (e : ErrCode) : rec1Effect tb a m ≠ .error e := by
  intro raised
  obtain ⟨j, _, m', h⟩ := forUpRaise_error raised
  obtain ⟨c, _, written⟩ := rec1Byte_ok (tb := tb) (built.coefficient_ne_zero a.idx1) a m' j
  rw [written] at h
  cases h

/-- The bytes that REC1 writes are those of its output (R69). -/
theorem writtenBy_rec1_iff {b : Nat} : WrittenBy p .rec1 a b ↔ InBuf a.out1 a.n b := by
  simp [WrittenBy, regionsOf]

/-- ΔQ is read as it was at the start (R200). -/
theorem deltaQ_start {i : Instr} {m₀ : Memory} (ok : ChecksPass p i a) (hi : i = .rec1 ∨ i = .rec2) (hj : j < a.n)
    (h : ChangedWithin (WrittenBy p i a) m₀ m) : deltaQ a m j = deltaQ a m₀ j := by
  have q : ⟨.q, a.q, a.n, .r⟩ ∈ regionsOf p i a := by rcases hi with rfl | rfl <;> simp [regionsOf]
  have iq : ⟨.partialQ, a.iq, a.n, .r⟩ ∈ regionsOf p i a := by rcases hi with rfl | rfl <;> simp [regionsOf]
  rw [deltaQ, deltaQ, h.byte (ok.unwritten q rfl _ (inBuf_offset hj)), h.byte (ok.unwritten iq rfl _ (inBuf_offset hj))]

/-- What REC1 leaves in its output (R201). -/
theorem rec1Effect_divides (ok : ChecksPass p .rec1 a) (wf : Memory.wf m = true) (built : tb.Built) :
    ∃ m', rec1Effect tb a m = .ok m' ∧
      ∀ j < a.n, gfDiv tb (deltaQ a m j) (tb.alogAt a.idx1.toNat) = .ok (Memory.read m' (a.out1 + j)) := by
  obtain ⟨m', run, _, divided⟩ := forUpRaise_rule (f := rec1Byte tb a (tb.alogAt a.idx1.toNat))
    (fun k m' => ChangedWithin (WrittenBy p .rec1 a) m m' ∧
      ∀ j < k, gfDiv tb (deltaQ a m j) (tb.alogAt a.idx1.toNat) = .ok (Memory.read m' (a.out1 + j))) a.n
    ⟨.refl wf, nofun⟩ fun k hk m' ⟨h, divided⟩ => by
      obtain ⟨c, quotient, written⟩ := rec1Byte_ok (tb := tb) (built.coefficient_ne_zero a.idx1) a m' k
      refine ⟨_, written, h.write _ _ _ (writtenBy_out1 (.inl rfl) (inBuf_offset hk)), fun j hj => ?_⟩
      rw [read_write_offset h.wf']
      split
      · next same => rw [← same, ← deltaQ_start ok (.inl rfl) hk h, quotient]
      · next other => exact divided j (by omega)
  exact ⟨m', run, divided⟩

/-- A command that takes every block size fails its checks with ERR_RANGE or ERR_ALIAS (R200, R237). -/
theorem precheck_error_of_byteGranular {i : Instr} (hi : wordParallel i = false) (fails : ¬ ChecksPass p i a) :
    precheck p i a = .error .range ∨ precheck p i a = .error .overlap := by
  rw [precheck, hi, Bool.false_and, if_neg Bool.false_ne_true]
  split
  · exact .inl rfl
  · next range =>
    split
    · exact .inr rfl
    · next apart => exact absurd ((precheck_ok_iff p i a).1 (by simp [precheck, hi, range, apart])) fails

end Rec1

/-- Settles O24: the quotient is never by 0, so REC1's loop writes it in every round (`rec1Effect_divides`). -/
theorem rec1DividesByTheCoefficient : Obligations.Rec1DividesByTheCoefficient := by
  refine ⟨decode_encode .rec1, fun s snap hp wf built => ⟨fun fails => ?_, fun ok => ?_⟩⟩
  · exact (precheck_error_of_byteGranular rfl fails).imp (exec_precheck hp (by decide)) (exec_precheck hp (by decide))
  · obtain ⟨m, effect, divided⟩ := rec1Effect_divides ok wf built
    have run : exec .rec1 s = .next ({ s with mem := m }.complete .none) := by rw [exec_rec1_pass hp ok, effect]
    exact ⟨m, run, divided, fun b out => exec_frame hp wf run (out ∘ writtenBy_rec1_iff.1)⟩

/-- Two snapshots on which a memory command's checks and its effect give the same end it alike. -/
theorem memoryCommand_congr {s : State} {snap snap' : Snapshot} {i : Instr}
    {effect : ArgRegs → Memory → Except ErrCode Memory}
    (checks : precheck s.params i snap.args = precheck s.params i snap'.args)
    (same : effect snap.args s.mem = effect snap'.args s.mem) :
    memoryCommand i { s with phase := .busy snap } effect = memoryCommand i { s with phase := .busy snap' } effect := by
  simp only [memoryCommand, runCommand, checks, same]
  cases precheck s.params i snap'.args with
  | error e => rfl
  | ok _ => cases effect snap'.args s.mem <;> rfl

/-- REC1 looks at its position only through the position's coefficient (R201). -/
theorem exec_rec1_congr (s : State) (snap : Snapshot) {idx idx' : Byte}
    (same : s.tables.alogAt idx.toNat = s.tables.alogAt idx'.toNat) :
    exec .rec1 { s with phase := .busy { snap with args := { snap.args with idx1 := idx } } } =
      exec .rec1 { s with phase := .busy { snap with args := { snap.args with idx1 := idx' } } } := by
  refine memoryCommand_congr (effect := rec1Effect s.tables) rfl ?_
  rw [rec1Effect, same]
  rfl

/-- Settles O25: the coefficient of a position is a power of 2, and powers repeat after 255. -/
theorem rec1PositionsNeedNoRangeCheck : Obligations.Rec1PositionsNeedNoRangeCheck := by
  intro s snap built
  refine ⟨built.coefficient_ne_zero _, fun t hp run => ?_, ?_⟩
  · obtain ⟨snap', _, ⟨m, _, _, rfl⟩ | ⟨e, rfl, raised | ⟨_, raised⟩⟩⟩ := memoryCommand_next run
    · exact nofun
    · show e ≠ .domain
      rcases precheck_error raised with rfl | rfl | rfl <;> decide
    · exact absurd raised (rec1Effect_ne_error built e)
  · have same : s.tables.alogAt (255 : Byte).toNat = s.tables.alogAt (0 : Byte).toNat := by
      rw [built.coefficient, built.coefficient]
      exact xpow_add_255 0
    obtain ⟨t, run⟩ :=
      exec_busy (s := { s with phase := .busy { snap with args := { snap.args with idx1 := 0 } } }) .rec1 rfl
    exact ⟨t, (exec_rec1_congr s snap same).trans run, run⟩

/-- Settles O28: `Q ^ IQ` is the lost block's weighted contribution, which REC1 divides by its weight. -/
theorem singleLossIsRecovered : Obligations.SingleLossIsRecovered := by
  rintro s snap hp wf built ok w k data - hk rfl full partialQ
  obtain ⟨m, run, divided, _⟩ := (rec1DividesByTheCoefficient.2 s snap hp wf built).2 ok
  refine ⟨m, run, fun j hj => ?_⟩
  have quotient := divided j hj
  rw [full j hj, partialQ j hj, xorSum_without hk fun i => fieldMul (data i j) (xpow i), built.coefficient,
    built.gfDiv_of_mul _ (xpow_ne_zero _)] at quotient
  exact (Except.ok.inj quotient).symm

/-! ### The two equations of REC2 (R207, R208) -/

/-- Elimination: the two equations hold exactly when `d1` solves what is left once `d2` is eliminated, and `d2` is
substituted back (R208). -/
theorem twoEquations_iff {g1 g2 d1 d2 dp dq : Byte} :
    d1 ^^^ d2 = dp ∧ fieldMul d1 g1 ^^^ fieldMul d2 g2 = dq ↔
      fieldMul d1 (g1 ^^^ g2) = fieldMul dp g2 ^^^ dq ∧ d2 = dp ^^^ d1 := by
  rw [xor_eq_iff_right_eq, BitVec.xor_comm d1 dp, and_comm]
  refine and_congr_left ?_
  rintro rfl
  have eliminated : fieldMul d1 g1 ^^^ fieldMul (dp ^^^ d1) g2 = fieldMul dp g2 ^^^ fieldMul d1 (g1 ^^^ g2) := by
    rw [fieldMul_xor_left, fieldMul_xor_right]
    ac_rfl
  rw [eliminated, xor_eq_iff_right_eq]

/-- With different coefficients the two equations have one solution (R207). -/
theorem twoEquations_unique {g1 g2 d1 d2 e1 e2 : Byte} (ne : g1 ≠ g2) (p : d1 ^^^ d2 = e1 ^^^ e2)
    (q : fieldMul d1 g1 ^^^ fieldMul d2 g2 = fieldMul e1 g1 ^^^ fieldMul e2 g2) : d1 = e1 ∧ d2 = e2 := by
  obtain ⟨d1_solves, _⟩ := twoEquations_iff.1 ⟨p, q⟩
  obtain ⟨e1_solves, _⟩ := (twoEquations_iff (d1 := e1) (d2 := e2)).1 ⟨rfl, rfl⟩
  have same : d1 = e1 := fieldMul_cancel (xor_eq_zero_iff.not.2 ne) (d1_solves.trans e1_solves.symm)
  exact ⟨same, by rwa [same, BitVec.xor_right_inj] at p⟩

/-- Powers of 2 are equal exactly when their exponents are modulo 255 (R41, R121). -/
theorem xpow_eq_iff {i j : Nat} : xpow i = xpow j ↔ i % 255 = j % 255 := by
  rw [xpow_mod i, xpow_mod j]
  exact ⟨xpow_injective (Nat.mod_lt _ (by decide)) (Nat.mod_lt _ (by decide)), congrArg xpow⟩

/-! ### REC2's coefficients (R204, R206, R209) -/

section Coefficients
variable {tb : Tables} (built : tb.Built) {idx1 idx2 : Byte}
include built

/-- `g1'` is the ratio of the two coefficients, in either order of the positions (R209). -/
theorem ratio_mul_xpow (idx1 idx2 : Byte) :
    fieldMul (tb.alogAt (idx2.toNat + 255 - idx1.toNat)) (xpow idx1.toNat) = xpow idx2.toNat := by
  have lt1 := idx1.isLt
  have lt2 := idx2.isLt
  rw [built.alogAt_eq (by omega), fieldMul_xpow_xpow, Nat.sub_add_cancel (by omega), xpow_add_255]

/-- The pivot `g1' ^ 1` is the sum of the coefficients divided by the first (R208). -/
theorem pivot_mul_xpow (idx1 idx2 : Byte) :
    fieldMul (gfAdd (tb.alogAt (idx2.toNat + 255 - idx1.toNat)) 1) (xpow idx1.toNat) =
      xpow idx1.toNat ^^^ xpow idx2.toNat := by
  rw [gfAdd, fieldMul_xor_left, ratio_mul_xpow built, fieldMul_one_left, BitVec.xor_comm]

/-- The pivot is 0 exactly when the coefficients are equal (R206). -/
theorem pivot_eq_zero_iff :
    gfAdd (tb.alogAt (idx2.toNat + 255 - idx1.toNat)) 1 = 0 ↔ xpow idx1.toNat = xpow idx2.toNat := by
  rw [← xor_eq_zero_iff (a := xpow _), ← pivot_mul_xpow built]
  constructor
  · intro zero
    rw [zero, fieldMul_zero_left]
  · intro zero
    by_contra nz
    exact fieldMul_ne_zero nz (xpow_ne_zero _) zero

/-- On different coefficients REC2 computes `a = g2 / (g1 ^ g2)` and `b = 1 / (g1 ^ g2)` (R207). -/
theorem rec2Coeffs_spec (distinct : xpow idx1.toNat ≠ xpow idx2.toNat) :
    ∃ ca cb, rec2Coeffs tb idx1 idx2 = .ok (ca, cb) ∧
      fieldMul ca (xpow idx1.toNat ^^^ xpow idx2.toNat) = xpow idx2.toNat ∧
      fieldMul cb (xpow idx1.toNat ^^^ xpow idx2.toNat) = 1 := by
  have pivot := (pivot_eq_zero_iff built).not.2 distinct
  obtain ⟨g2p, inverse, g2p_eq⟩ := built.gfDiv_eq 1 (xpow_ne_zero idx1.toNat)
  obtain ⟨ca, quotientA, ca_eq⟩ := built.gfDiv_eq (tb.alogAt (idx2.toNat + 255 - idx1.toNat)) pivot
  obtain ⟨cb, quotientB, cb_eq⟩ := built.gfDiv_eq g2p pivot
  refine ⟨ca, cb, ?_, ?_, ?_⟩
  · simp only [rec2Coeffs, built.coefficient, inverse, quotientA, quotientB, bind, Except.bind, pure, Except.pure]
  · rw [← pivot_mul_xpow built, ← fieldMul_assoc, ca_eq, ratio_mul_xpow built]
  · rw [← pivot_mul_xpow built, ← fieldMul_assoc, cb_eq, g2p_eq]

/-- On equal coefficients REC2's division by the pivot raises (R206). -/
theorem rec2Coeffs_raise (equal : xpow idx1.toNat = xpow idx2.toNat) : rec2Coeffs tb idx1 idx2 = .error .domain := by
  obtain ⟨g2p, inverse, _⟩ := built.gfDiv_eq 1 (xpow_ne_zero idx1.toNat)
  have raise : ∀ x, gfDiv tb x (gfAdd (tb.alogAt (idx2.toNat + 255 - idx1.toNat)) 1) = .error .domain := fun x =>
    if_pos ((pivot_eq_zero_iff built).2 equal)
  simp only [rec2Coeffs, built.coefficient, inverse, raise, bind, Except.bind]

end Coefficients

/-! ### REC2 (R204 to R208) -/

section Rec2
variable {p : Params} {a : ArgRegs} {m₀ m : Memory} {b j k : Nat}

/-- The bytes that REC2 writes are those of its two outputs (R69). -/
theorem writtenBy_rec2_iff : WrittenBy p .rec2 a b ↔ InBuf a.out1 a.n b ∨ InBuf a.out2 a.n b := by
  simp [WrittenBy, regionsOf]

/-- The first output byte of REC2's round (R204). -/
def firstLost (tb : Tables) (ca cb : Byte) (a : ArgRegs) (m : Memory) (j : Nat) : Byte :=
  gfMul tb (deltaP a m j) ca ^^^ gfMul tb (deltaQ a m j) cb

/-- With REC2's coefficients `firstLost` is the first unknown of the eliminated equation (R207). -/
theorem firstLost_solves {tb : Tables} (built : tb.Built) {g1 g2 ca cb : Byte} (ca_eq : fieldMul ca (g1 ^^^ g2) = g2)
    (cb_eq : fieldMul cb (g1 ^^^ g2) = 1) :
    fieldMul (firstLost tb ca cb a m j) (g1 ^^^ g2) = fieldMul (deltaP a m j) g2 ^^^ deltaQ a m j := by
  rw [firstLost, built.gfMul_eq, built.gfMul_eq, fieldMul_xor_left, fieldMul_assoc, fieldMul_assoc, ca_eq, cb_eq,
    fieldMul_one]

variable (ok : ChecksPass p .rec2 a)
include ok

/-- The outputs share no byte (R200). -/
theorem ChecksPass.out1_apart_out2 (inO1 : InBuf a.out1 a.n b) : ¬ InBuf a.out2 a.n b := fun inO2 =>
  ok.apart ⟨.out1, a.out1, a.n, .w⟩ (by simp [regionsOf]) ⟨.out2, a.out2, a.n, .w⟩ (by simp [regionsOf]) (by simp)
    (by simp) b ⟨inO1, inO2⟩

/-- ΔP is read as it was at the start (R200). -/
theorem deltaP_start (hj : j < a.n) (h : ChangedWithin (WrittenBy p .rec2 a) m₀ m) : deltaP a m j = deltaP a m₀ j := by
  have full : ⟨.p, a.p, a.n, .r⟩ ∈ regionsOf p .rec2 a := by simp [regionsOf]
  have part : ⟨.partialP, a.ip, a.n, .r⟩ ∈ regionsOf p .rec2 a := by simp [regionsOf]
  rw [deltaP, deltaP, h.byte (ok.unwritten full rfl _ (inBuf_offset hj)), h.byte (ok.unwritten part rfl _ (inBuf_offset hj))]

/-- REC2's round at byte `k`, seen at byte `j` of the outputs (R205). -/
theorem rec2Byte_round (tb : Tables) (ca cb : Byte) (hk : k < a.n) (hj : j < a.n)
    (h : ChangedWithin (WrittenBy p .rec2 a) m₀ m) :
    ChangedWithin (WrittenBy p .rec2 a) m₀ (rec2Byte tb a ca cb k m) ∧
      Memory.read (rec2Byte tb a ca cb k m) (a.out1 + j) =
        (if k = j then firstLost tb ca cb a m₀ j else Memory.read m (a.out1 + j)) ∧
      Memory.read (rec2Byte tb a ca cb k m) (a.out2 + j) =
        if k = j then deltaP a m₀ j ^^^ firstLost tb ca cb a m₀ j else Memory.read m (a.out2 + j) := by
  have in1 : ∀ {l}, l < a.n → InBuf a.out1 a.n (a.out1 + l) := inBuf_offset
  have in2 : ∀ {l}, l < a.n → InBuf a.out2 a.n (a.out2 + l) := inBuf_offset
  have apart : ∀ {l l'}, l < a.n → l' < a.n → a.out1 + l ≠ a.out2 + l' := fun hl hl' eq =>
    ok.out1_apart_out2 (in1 hl) (eq ▸ in2 hl')
  have d1 : firstLost tb ca cb a m k = firstLost tb ca cb a m₀ k := by
    rw [firstLost, firstLost, deltaP_start ok hk h, deltaQ_start ok (.inr rfl) hk h]
  have after1 := h.write _ (a.out1 + k) (firstLost tb ca cb a m₀ k) (writtenBy_out1 (by simp) (in1 hk))
  have written : rec2Byte tb a ca cb k m = Memory.write (Memory.write m (a.out1 + k) (firstLost tb ca cb a m₀ k))
      (a.out2 + k) (deltaP a m₀ k ^^^ firstLost tb ca cb a m₀ k) := by
    rw [← d1, ← deltaP_start ok hk h]
    rfl
  rw [written]
  refine ⟨after1.write _ _ _ (writtenBy_out2 (in2 hk)), ?_, ?_⟩
  · rw [Memory.read_write after1.wf', if_neg (apart hj hk), read_write_offset h.wf']
    exact if_ctx_congr Iff.rfl (fun eq => by rw [eq]) fun _ => rfl
  · rw [read_write_offset after1.wf', Memory.read_write h.wf', if_neg (apart hk hj).symm]
    exact if_ctx_congr Iff.rfl (fun eq => by rw [eq]) fun _ => rfl

/-- What REC2's loop leaves in its outputs: `d1`, and `d2` substituted back (R204). -/
theorem rec2Loop_leaves (tb : Tables) (ca cb : Byte) (wf : Memory.wf m = true) (hj : j < a.n) :
    Memory.read (forUp a.n (rec2Byte tb a ca cb) m) (a.out1 + j) = firstLost tb ca cb a m j ∧
      Memory.read (forUp a.n (rec2Byte tb a ca cb) m) (a.out2 + j) = deltaP a m j ^^^ firstLost tb ca cb a m j := by
  have once := fun g φ => forUp_once (f := rec2Byte tb a ca cb) (g := g) (φ := φ) hj
    (ChangedWithin.refl (W := WrittenBy p .rec2 a) wf)
  obtain ⟨_, read1⟩ := once (Memory.read · (a.out1 + j)) (fun _ => firstLost tb ca cb a m j) fun k hk m' h =>
    have ⟨agree, read1, _⟩ := rec2Byte_round ok tb ca cb hk hj h
    ⟨agree, read1⟩
  obtain ⟨_, read2⟩ := once (Memory.read · (a.out2 + j)) (fun _ => deltaP a m j ^^^ firstLost tb ca cb a m j)
    fun k hk m' h =>
      have ⟨agree, _, read2⟩ := rec2Byte_round ok tb ca cb hk hj h
      ⟨agree, read2⟩
  exact ⟨read1, read2⟩

end Rec2

section OnSnapshot
variable {s : State} {snap : Snapshot} (hp : s.phase = .busy snap) (ok : ChecksPass s.params .rec2 snap.args)
include hp ok

/-- REC2 with its checks passed and its coefficients computed runs its loop (R204). -/
theorem exec_rec2_ok {ca cb : Byte} (coeffs : rec2Coeffs s.tables snap.args.idx1 snap.args.idx2 = .ok (ca, cb)) :
    exec .rec2 s =
      .next ({ s with mem := forUp snap.args.n (rec2Byte s.tables snap.args ca cb) s.mem }.complete .none) := by
  rw [exec_rec2_pass hp ok, rec2Effect, coeffs]

/-- REC2 with its checks passed on positions of equal coefficients completes with ERR_DOMAIN and nothing else (R206). -/
theorem exec_rec2_raise (built : s.tables.Built) (equal : xpow snap.args.idx1.toNat = xpow snap.args.idx2.toNat) :
    exec .rec2 s = .next (s.complete .domain) := by
  rw [exec_rec2_pass hp ok, rec2Effect, rec2Coeffs_raise built equal]

end OnSnapshot

/-- Settles O26: REC2's loop writes the solution of the eliminated equation, and substitutes it back. -/
theorem rec2SolvesTheTwoEquations : Obligations.Rec2SolvesTheTwoEquations := by
  intro s snap hp wf built ok distinct
  obtain ⟨ca, cb, coeffs, ca_eq, cb_eq⟩ := rec2Coeffs_spec built (xpow_eq_iff.not.2 distinct)
  have run := exec_rec2_ok hp ok coeffs
  refine ⟨_, run, fun j hj => ?_, fun b out1 out2 => ?_⟩
  · obtain ⟨read1, read2⟩ := rec2Loop_leaves ok s.tables ca cb wf hj
    rw [read1]
    exact twoEquations_iff.2 ⟨firstLost_solves built ca_eq cb_eq, read2⟩
  · exact exec_frame hp wf run fun written => (writtenBy_rec2_iff.1 written).elim out1 out2

/-- Two 8-bit positions have equal coefficients exactly when they are equal or are 0 and 255 (R206). -/
theorem xpow_position_eq_iff (idx1 idx2 : Byte) : xpow idx1.toNat = xpow idx2.toNat ↔
    idx1.toNat = idx2.toNat ∨ (idx1.toNat = 0 ∧ idx2.toNat = 255) ∨ (idx1.toNat = 255 ∧ idx2.toNat = 0) := by
  have lt1 := idx1.isLt
  have lt2 := idx2.isLt
  rw [xpow_eq_iff]
  omega

/-- Settles O27: REC2 raises on equal coefficients and completes without error on others. -/
theorem rec2RejectsEqualPositions : Obligations.Rec2RejectsEqualPositions := by
  intro s snap hp built ok
  rw [← xpow_position_eq_iff]
  by_cases equal : xpow snap.args.idx1.toNat = xpow snap.args.idx2.toNat
  · rw [exec_rec2_raise hp ok built equal]
    exact ⟨iff_of_true rfl equal, fun t run _ => (Host.Outcome.next.inj run).symm⟩
  · obtain ⟨ca, cb, coeffs, _⟩ := rec2Coeffs_spec built equal
    have noError : ∀ t, exec .rec2 s = .next t → t.status.errcode ≠ .domain := by
      rw [exec_rec2_ok hp ok coeffs]
      rintro _ ⟨⟩
      exact nofun
    exact ⟨iff_of_false (fun run => noError _ run rfl) equal, fun t run domain => absurd domain (noError t run)⟩

/-- Settles O29: the lost blocks solve REC2's two equations, which have one solution. -/
theorem doubleLossIsRecovered : Obligations.DoubleLossIsRecovered := by
  rintro s snap hp wf built ok w k1 k2 data hw h1 h2 ne rfl rfl fullP partialP fullQ partialQ
  have distinct : snap.args.idx1.toNat % 255 ≠ snap.args.idx2.toNat % 255 := by omega
  obtain ⟨m, run, solved, _⟩ := rec2SolvesTheTwoEquations s snap hp wf built ok distinct
  have recovered : ∀ j < snap.args.n, Memory.read m (snap.args.out1 + j) = data snap.args.idx1.toNat j ∧
      Memory.read m (snap.args.out2 + j) = data snap.args.idx2.toNat j := fun j hj => by
    obtain ⟨equationP, equationQ⟩ := solved j hj
    rw [fullP j hj, partialP j hj, xorSum_without_two h1 h2 ne fun i => data i j] at equationP
    rw [fullQ j hj, partialQ j hj, xorSum_without_two h1 h2 ne fun i => fieldMul (data i j) (xpow i)] at equationQ
    exact twoEquations_unique (xpow_eq_iff.not.2 distinct) equationP equationQ
  exact ⟨m, run, fun j hj => (recovered j hj).1, fun j hj => (recovered j hj).2⟩

end Sys2Proof.Machine
end

section
/-! How a command in flight ends (R230 to R238): every command completes, an illegal word and a failed check with their codes,
and an error changes nothing but STATUS and the phase. -/

namespace Sys2Proof

/-- The two ways a word is illegal: a reserved bit is set, or no command has its OPCODE (R92). -/
theorem commandWordOk_eq_false_iff {c : Word} :
    commandWordOk c = false ↔ c.toNat / 256 ≠ 0 ∨ c.toNat % 256 ∉ assignedOpcodes := by
  rw [commandWordOk, Bool.and_eq_false_iff, beq_eq_false_iff_ne, ← Bool.not_eq_true, List.contains_iff_mem]

end Sys2Proof

namespace Sys2Proof.Machine

variable {s t : State} {snap : Snapshot}

/-! ### The execute step -/

/-- Settles O5: the word does not decode, so the block's step is the completion with ERR_ILLEGAL. -/
theorem illegalWordsCompleteWithErrIllegal : Obligations.IllegalWordsCompleteWithErrIllegal := by
  intro s snap hp turn illegal
  obtain ⟨e, undecoded⟩ := decode_eq_error_iff.2 (commandWordOk_eq_false_iff.2 illegal)
  rw [step_block turn, blockStep_illegal (s := s.popTurn) hp undecoded]
  rfl

/-- The execute step completes the command in flight: normally, having changed only RES, WOUT and memory, or with a code,
having changed nothing (R230, R238). -/
theorem blockStep_completes (hp : s.phase = .busy snap) (h : blockStep s = .next t) :
    (∃ r w m, t = { s with res := r, wout := w, mem := m }.complete .none) ∨ ∃ e, t = s.complete e := by
  obtain ⟨building, _⟩ | ⟨idle, _⟩ | ⟨_, _, _, _, command⟩ | ⟨_, _, _, _, illegal⟩ := blockStep_cases h
  · simp [hp] at building
  · simp [hp] at idle
  · obtain ⟨_, _, ends⟩ := exec_cases command
    exact ends
  · exact .inr ⟨.illegal, illegal⟩

/-- Settles O6: the execute step always answers, and either end of a command is a completion with a code. -/
theorem everyAcceptedCommandCompletes : Obligations.EveryAcceptedCommandCompletes := by
  refine ⟨fun s snap hp turn => ?_, fun s snap body hp => ⟨fun u normal => ?_, fun e raise => ?_⟩, fun s e => rfl⟩
  · obtain ⟨t, ht⟩ := blockStep_total s.popTurn
    refine ⟨t, ?_⟩
    rw [step_block turn, ht]
    obtain ⟨_, _, _, rfl⟩ | ⟨e, rfl⟩ := blockStep_completes (s := s.popTurn) hp ht
    · exact ⟨.none, rfl, rfl, rfl⟩
    · exact ⟨e, rfl, rfl, rfl⟩
  · rw [runCommand_busy hp, normal]
  · rw [runCommand_busy hp, raise]

/-- A completion with an error sets DONE and ERR and leaves DROPPED (R230). -/
theorem State.complete_error (s : State) {e : ErrCode} (error : e ≠ .none) : s.complete e = { s with
    status := { done := true, err := true, dropped := s.status.dropped, errcode := e }
    phase := .idle } := by
  rw [State.complete, Status.completed, decide_eq_true error]

/-- Settles O31: a normal end has code 0, so the step is a completion of the state before it. -/
theorem errorsArePrecise : Obligations.ErrorsArePrecise := by
  intro s t snap hp h error
  obtain ⟨_, _, _, rfl⟩ | ⟨e, rfl⟩ := blockStep_completes hp h
  · exact absurd rfl error
  · exact s.complete_error error

/-! ### The order of the checks (R237) -/

section Order
variable {p : Params} {i : Instr} {a : ArgRegs}

/-- The shape is checked first (R233). -/
theorem precheck_shape (shape : ¬ ShapeOk i a) : precheck p i a = .error .shape := by
  simp only [precheck, shapeFails_iff, shape, not_false_eq_true, if_true]

/-- The range is checked once the shape passes (R234). -/
theorem precheck_range (shape : ShapeOk i a) (range : ¬ RangeOk p i a) : precheck p i a = .error .range := by
  simp only [precheck, shapeFails_iff, rangeFails_iff, shape, range, not_true_eq_false, not_false_eq_true, if_false, if_true]

/-- Overlaps are checked once the shape and the range pass (R235). -/
theorem precheck_overlap (shape : ShapeOk i a) (range : RangeOk p i a) (apart : ¬ AliasOk p i a) :
    precheck p i a = .error .overlap := by
  simp only [precheck, shapeFails_iff, rangeFails_iff, aliasFails_iff, shape, range, apart, not_true_eq_false,
    not_false_eq_true, if_false, if_true]

end Order

/-- Settles O30: `precheck` raises the first check that fails, and a memory command completes with what it raises. -/
theorem failedChecksCompleteInOrder : Obligations.FailedChecksCompleteInOrder := fun _ _ _ memory hp =>
  ⟨fun shape => exec_precheck hp memory (precheck_shape shape),
    fun shape range => exec_precheck hp memory (precheck_range shape range),
    fun shape range apart => exec_precheck hp memory (precheck_overlap shape range apart)⟩

end Sys2Proof.Machine
end

section
/-! Reset, the end of the build, and the hazards of a command in flight (R260 to R268): the state after reset, what a reset
does to the bytes of an abandoned command, who may touch the buffers in flight, what register accesses leave of a command in
flight, and that it ends. -/

namespace Sys2Proof.Machine

variable {s t : State} {snap : Snapshot}

/-! ### The state after reset (R260) -/

/-- Settles O47: register by register. -/
theorem resetLeavesTheSpecValues : Obligations.ResetLeavesTheSpecValues := by
  refine ⟨rfl, rfl, fun r => ?_, fun a => rfl, rfl⟩
  cases r <;> rfl

/-- Settles O55: memory lists no byte, the registers are 0, and no command has completed. -/
theorem resetHasTheInvariant : Obligations.ResetHasTheInvariant where
  mem_wf := rfl
  mem_in := fun _ listed => nomatch listed
  args_masked := ArgRegs.Masked.zero _
  snap_masked := fun _ busy => nomatch busy
  tables_built := fun past => absurd rfl past
  err_code := rfl
  err_done := fun err => nomatch err
  quiet := fun _ => ⟨rfl, rfl, rfl⟩

/-! ### The build (R261) -/

/-- The block's step while BUILDING is the end of the build. -/
theorem blockStep_building (hp : s.phase = .building) : blockStep s = .next s.endBuild := by
  simp only [blockStep, hp]

/-- A write of a register other than CMD does the same in every phase, and leaves the phase (R36). -/
theorem State.writeReg_with_phase (s : State) {r : Reg} (other : r ≠ .cmd) (v : Word) (p : Phase) :
    State.writeReg { s with phase := p } r v = { s.writeReg r v with phase := p } := by
  cases r
  case cmd => exact absurd rfl other
  all_goals rfl

/-- Settles O49: the model's build is the pseudocode's (`buildIsThePseudocode`) and leaves built tables, and the phase matters
to a write of CMD alone. -/
theorem buildEndsInIdleWithTables : Obligations.BuildEndsInIdleWithTables := by
  refine ⟨fun s hp turn => ?_, fun s r v hp => ⟨?_, fun other => ?_⟩⟩
  · rw [← buildIsThePseudocode, step_block turn, blockStep_building (s := s.popTurn) hp]
    exact ⟨rfl, s.tables.build_built⟩
  · rw [State.writeReg_cmd_not_idle (by simp [hp]), State.drop, Status.withDrop]
  · rw [← State.writeReg_with_phase _ other, ← hp]

/-! ### The bytes of an abandoned command (R262) -/

/-- Scribbling has reached the bytes of `D`: from canonical memory `m₀` and counter `k₀`, each byte of `D` holds a free value
drawn since, and every other byte is as it was. -/
structure Scribbled (m₀ : Memory) (k₀ : Nat) (D : Nat → Prop) (mk : Memory × Nat) : Prop where
  wf : Memory.wf mk.1 = true
  counter : k₀ ≤ mk.2
  kept : ∀ b, ¬ D b → Memory.read mk.1 b = Memory.read m₀ b
  drawn : ∀ b, D b → ∃ k, k₀ ≤ k ∧ k < mk.2 ∧ Memory.read mk.1 b = Config.freeByte k

section Scribbling
variable {m₀ : Memory} {k₀ : Nat} {D : Nat → Prop} {mk : Memory × Nat}

theorem Scribbled.start (wf : Memory.wf m₀ = true) : Scribbled m₀ k₀ (fun _ => False) (m₀, k₀) :=
  ⟨wf, Nat.le_refl _, fun _ _ => rfl, fun _ none => none.elim⟩

theorem Scribbled.congr {D' : Nat → Prop} (h : Scribbled m₀ k₀ D mk) (same : ∀ b, D b ↔ D' b) : Scribbled m₀ k₀ D' mk :=
  (funext fun b => propext (same b) : D = D') ▸ h

/-- One more byte takes the next free value; a byte drawn before keeps its value or takes the new one. -/
theorem Scribbled.draw (h : Scribbled m₀ k₀ D mk) (c : Nat) :
    Scribbled m₀ k₀ (fun b => D b ∨ b = c) (Memory.write mk.1 c (Config.freeByte mk.2), mk.2 + 1) where
  wf := Memory.wf_write c _ h.wf
  counter := Nat.le_succ_of_le h.counter
  kept b out := by
    obtain ⟨undrawn, other⟩ := not_or.1 out
    rw [Memory.read_write h.wf, if_neg other, h.kept b undrawn]
  drawn b reached := by
    rw [Memory.read_write h.wf]
    split
    · exact ⟨mk.2, h.counter, Nat.lt_succ_self _, rfl⟩
    · next other =>
      obtain ⟨k, lo, hi, value⟩ := h.drawn b (reached.resolve_right other)
      exact ⟨k, lo, Nat.lt_succ_of_lt hi, value⟩

/-- Scribbling over a region reaches its existing bytes (R60, R262). -/
theorem Scribbled.region (h : Scribbled m₀ k₀ D mk) (p : Params) (x : Region) :
    Scribbled m₀ k₀ (fun b => D b ∨ (InBuf x.base x.len b ∧ b < p.memSize)) (scribble p x mk) := by
  refine forUp_rule (fun j mk => Scribbled m₀ k₀ (fun b => D b ∨ (InBuf x.base j b ∧ b < p.memSize)) mk) x.len
    (h.congr fun b => ?_) fun j _ mk hj => ?_
  · exact ⟨.inl, fun reached => reached.resolve_right fun ⟨⟨lo, hi⟩, _⟩ => by omega⟩
  · split
    · next inside =>
      refine (hj.draw (x.base + j)).congr fun b => ?_
      rw [or_assoc]
      refine or_congr_right ?_
      simp only [InBuf]
      omega
    · next past =>
      refine hj.congr fun b => or_congr_right ?_
      simp only [InBuf]
      omega

/-- Scribbling over the written regions of a list reaches their existing bytes (R262). -/
theorem Scribbled.regions (h : Scribbled m₀ k₀ D mk) (p : Params) (rs : List Region) : Scribbled m₀ k₀
    (fun b => D b ∨ ((∃ x ∈ rs, x.access ≠ .r ∧ InBuf x.base x.len b) ∧ b < p.memSize)) (scribbleAll p rs mk) := by
  induction rs generalizing D mk with
  | nil => exact h.congr fun b => by simp
  | cons x rest ih =>
    rw [scribbleAll]
    split
    · next written =>
      refine (ih (h.region p x)).congr fun b => ?_
      simp only [List.exists_mem_cons_iff, ne_eq, (Region.written_iff x).1 written, not_false_eq_true, true_and,
        or_and_right, or_assoc]
    · next unwritten =>
      refine (ih h).congr fun b => ?_
      simp only [List.exists_mem_cons_iff, mt (Region.written_iff x).2 unwritten, false_and, false_or]

end Scribbling

/-- A reset reaches the existing bytes that the command in flight writes (R262). -/
theorem State.pulseReset_scribbled (wf : Memory.wf s.mem = true) : Scribbled s.mem s.fresh
    (fun b => (∃ x ∈ s.inFlight, x.access ≠ .r ∧ InBuf x.base x.len b) ∧ b < s.params.memSize)
    (scribbleAll s.params s.inFlight (s.mem, s.fresh)) :=
  ((Scribbled.start wf).regions s.params s.inFlight).congr fun _ => by rw [false_or]

theorem inFlight_illegal {e : DecodeError} (hp : s.phase = .busy snap) (d : decode snap.cmd = .error e) :
    s.inFlight = [] := by
  simp only [State.inFlight, hp, d]

/-- A reset with no region in flight leaves memory (R260). -/
theorem State.pulseReset_mem (none : s.inFlight = []) : s.pulseReset.mem = s.mem := by
  rw [State.pulseReset, none, scribbleAll]

/-- Settles O48: no region is in flight unless a legal command is, and then its written regions are scribbled over. -/
theorem resetAbandonsTheCommandInFlight : Obligations.ResetAbandonsTheCommandInFlight := by
  intro s wf
  have after := State.pulseReset_scribbled wf
  refine ⟨s.pulseReset, rfl, rfl, rfl, rfl, rfl, rfl, rfl, rfl, rfl, after.wf,
    fun free => State.pulseReset_mem (inFlight_not_busy free),
    fun snap e hp d => State.pulseReset_mem (inFlight_illegal hp d), fun snap i hp d b => ?_⟩
  have regions := inFlight_busy hp d
  refine ⟨fun unwritten => after.kept b fun ⟨⟨x, hx, hb⟩, _⟩ => unwritten ⟨x, regions ▸ hx, hb⟩, fun ⟨x, hx, hb⟩ lt => ?_⟩
  · obtain ⟨k, lo, hi, value⟩ := after.drawn b ⟨⟨x, regions ▸ hx, hb⟩, lt⟩
    exact ⟨k, lo, Nat.lt_add_right _ hi, value⟩

/-! ### The buffers in flight (R265) -/

/-- The bytes no agent may write are those of the regions of the command in flight (R265). -/
theorem inFlightHolds_iff {b : Nat} : s.inFlightHolds b = true ↔
    ∃ snap i, s.phase = .busy snap ∧ decode snap.cmd = .ok i ∧ NamedBy s.params i snap.args b := by
  simp only [State.inFlightHolds, List.any_eq_true, Region.holds_iff, mem_inFlight_iff]
  exact ⟨fun ⟨x, ⟨snap, i, hp, d, hx⟩, hb⟩ => ⟨snap, i, hp, d, x, hx, hb⟩,
    fun ⟨snap, i, hp, d, x, hx, hb⟩ => ⟨x, ⟨snap, i, hp, d, hx⟩, hb⟩⟩

/-- An agent's write of an existing byte is a fault when a region in flight holds it, and else stores it (R265). -/
theorem State.agentWrite_existing {a : Nat} (lt : a < s.params.memSize) (v : Byte) : s.agentWrite a v =
    if s.inFlightHolds a then .fault .bufferHazard else .next { s with mem := Memory.write s.mem a v } := by
  rw [State.agentWrite, if_neg (Nat.not_le.2 lt)]

/-- Settles O45: by whether the command in flight names the byte; a byte it does not name it does not write, so reads follow
from O44. -/
theorem writesIntoBuffersInFlightFault : Obligations.WritesIntoBuffersInFlightFault := by
  intro s a v n lt
  obtain ⟨settled, unsettled⟩ := hostReadsSeeOnlySettledBytes s a n lt
  refine ⟨fun snap i hp d named => ?_, fun snap i hp d written => ⟨_, _, unsettled snap i hp d written⟩, fun free => ?_⟩
  · have hazard : s.agentWrite a v = .fault .bufferHazard := by
      rw [State.agentWrite_existing lt, if_pos (inFlightHolds_iff.2 ⟨snap, i, hp, d, named⟩)]
    exact ⟨hazard, hazard⟩
  · have unheld : ¬ s.inFlightHolds a = true := fun held =>
      have ⟨snap, i, hp, d, named⟩ := inFlightHolds_iff.1 held
      free snap i hp d named
    have stored : s.agentWrite a v = .next { s with mem := Memory.write s.mem a v } := by
      rw [State.agentWrite_existing lt, if_neg unheld]
    exact ⟨stored, stored, settled fun snap i hp d written => free snap i hp d written.namedBy⟩

/-! ### Register accesses while a command is in flight (R267) -/

/-- A step that ends with a command in flight is neither the block's nor a reset (R97, R260). -/
theorem nextTurn_of_step_busy (h : step s = .next t) (ht : t.phase = .busy snap) :
    s.nextTurn ≠ .block ∧ s.nextTurn ≠ .reset := by
  refine ⟨fun turn => ?_, fun turn => ?_⟩
  · rw [step_block turn] at h
    simp [(blockStep_phase h).1] at ht
  · rw [step_reset turn] at h
    cases h
    cases ht

/-- Settles O41: a step that stays BUSY leaves RES and WOUT (`step_leaves`), and an argument write is a write of the
arguments. -/
theorem registerReadsHaveNoSideEffect : Obligations.RegisterReadsHaveNoSideEffect := by
  refine ⟨fun s r n => rfl, fun s => ⟨rfl, rfl⟩, fun s t _ _ _ h ht => ?_, fun s snap r k v hp hr => ?_⟩
  · obtain ⟨block, reset⟩ := nextTurn_of_step_busy h ht
    obtain ⟨_, res, wout⟩ := step_leaves h block reset
    exact ⟨congrArg (BitVec.setWidth 64) res, wout⟩
  · have written := s.writeReg_rw hr v
    exact ⟨written, by rw [written]; exact hp⟩

/-! ### A command in flight ends (R268) -/

/-- After `k` steps the command has completed, or a reset has abandoned it, or the run has stopped. -/
def EndsAt (k : Nat) (s : State) : Prop :=
  (∃ t, Sys2Proof.core.run k s = .next t ∧ t.phase = .idle ∧ t.status.done = true) ∨
  (∃ t, Sys2Proof.core.run k s = .next t ∧ t.phase = .building) ∨
  (∃ f, Sys2Proof.core.run k s = .fault f) ∨ (∃ r, Sys2Proof.core.run k s = .refused r)

/-- A run of one step is the step. -/
theorem run_one (s : State) : Sys2Proof.core.run 1 s = step s := by
  cases h : Sys2Proof.core.step s <;> simp only [Host.Core.run, h] <;> exact h.symm

/-- After a step that answers, the run goes on from its state. -/
theorem run_succ (h : step s = .next t) (k : Nat) : Sys2Proof.core.run (k + 1) s = Sys2Proof.core.run k t := by
  have first : Sys2Proof.core.step s = .next t := h
  simp only [Host.Core.run, first]

theorem EndsAt.succ {k : Nat} (ends : EndsAt k t) (h : step s = .next t) : EndsAt (k + 1) s := by
  rwa [EndsAt, run_succ h]

/-- A register write leaves the agenda. -/
theorem State.writeReg_agenda (s : State) (r : Reg) (v : Word) : (s.writeReg r v).agenda = s.agenda := by
  obtain e | ⟨_, e⟩ | ⟨_, _, e⟩ | ⟨_, _, e⟩ := State.writeReg_cases s r v <;> rw [e] <;> rfl

/-- The host's turn leaves the agenda. -/
theorem hostStep_agenda (h : hostStep s = .next t) : t.agenda = s.agenda := by
  obtain rfl | ⟨_, _, hx⟩ := hostStep_cases h
  · rfl
  · obtain ⟨r, v, rfl, _⟩ | ⟨_, _, _, _, rfl⟩ | ⟨_, _, rfl⟩ := hostStmt_cases hx
    · exact s.advanceHost.writeReg_agenda r v
    · rfl
    · rfl

/-- The block's step leaves the agenda. -/
theorem blockStep_agenda (h : blockStep s = .next t) : t.agenda = s.agenda := by
  obtain ⟨_, rfl⟩ | ⟨_, rfl⟩ | ⟨_, _, _, _, he⟩ | ⟨_, _, _, _, rfl⟩ := blockStep_cases h
  · rfl
  · rfl
  · obtain ⟨_, _, ⟨_, _, _, rfl⟩ | ⟨_, rfl⟩⟩ := exec_cases he <;> rfl
  · rfl

/-- A step takes its turn off the agenda and leaves the rest of it (log 5). -/
theorem step_agenda (h : step s = .next t) : t.agenda = s.agenda.tail := by
  obtain ⟨_, hb⟩ | ⟨_, hh⟩ | ⟨_, _, _, hw⟩ | ⟨_, rfl⟩ := step_cases h
  · exact blockStep_agenda hb
  · exact hostStep_agenda hh
  · obtain ⟨_, _, rfl⟩ := agentWrite_next hw
    rfl
  · rfl

/-- With a command in flight the next step ends it or stops the run, or another agent moves and it stays in flight (R43). -/
theorem endsAt_one_or_busy (hp : s.phase = .busy snap) :
    EndsAt 1 s ∨ ∃ t, step s = .next t ∧ t.phase = .busy snap := by
  rw [EndsAt, run_one]
  cases h : step s with
  | fault f => exact .inl (.inr (.inr (.inl ⟨f, rfl⟩)))
  | refused r => exact .inl (.inr (.inr (.inr ⟨r, rfl⟩)))
  | next t =>
    obtain same | ⟨building, _⟩ | ⟨idle, _⟩ | ⟨_, _, idle, done⟩ | ⟨_, abandoned⟩ := phaseChangesOnlyAsListed.1 s t h
    · exact .inr ⟨t, rfl, same.trans hp⟩
    · simp [hp] at building
    · simp [hp] at idle
    · exact .inl (.inl ⟨t, rfl, idle, done⟩)
    · exact .inl (.inr (.inl ⟨t, rfl, abandoned⟩))

/-- With a command in flight and no turn listed, the block moves next (log 5). -/
theorem State.nextTurn_of_busy (hp : s.phase = .busy snap) (empty : s.agenda = []) : s.nextTurn = .block := by
  simp only [State.nextTurn, empty, List.headD_nil, State.defaultTurn, hp]

/-- Settles O53, by induction on the agenda: each step ends the command or takes a turn off the agenda, and with none left
the block moves. -/
theorem commandsEndWithinTheAgenda : Obligations.CommandsEndWithinTheAgenda := by
  intro s snap hp
  show ∃ k ≤ s.agenda.length + 1, EndsAt k s
  induction hag : s.agenda generalizing s with
  | nil =>
    refine ⟨1, Nat.le_refl _, (endsAt_one_or_busy hp).resolve_right fun ⟨t, h, busy⟩ => ?_⟩
    exact (nextTurn_of_step_busy h busy).1 (State.nextTurn_of_busy hp hag)
  | cons turn rest ih =>
    obtain ends | ⟨t, h, busy⟩ := endsAt_one_or_busy hp
    · exact ⟨1, by omega, ends⟩
    · obtain ⟨k, le, ends⟩ := ih t busy (by rw [step_agenda h, hag, List.tail_cons])
      exact ⟨k + 1, Nat.succ_le_succ le, ends.succ h⟩

end Sys2Proof.Machine
end
